-- ==== Sys2Proof/Word.lean ====
section
/-! DEFINITION. The word types of the MCU-32X (`00_scope.md` R5, R7): XLEN is 32 bits, a halfword 16, a byte 8; a
register field holds a register's number (`10_state.md` R20). -/

namespace Sys2Proof

/-- A 32-bit value: a general register, the program counter, an address, an instruction word (R5). -/
abbrev Word := BitVec 32

/-- A 16-bit value (`00_scope.md`, glossary). -/
abbrev Half := BitVec 16

/-- The addressable unit, 8 bits (R5). -/
abbrev Byte := BitVec 8

/-- The number of a general register, x0 to x31 (R20). -/
abbrev Reg := Fin 32

end Sys2Proof
end

