-- ==== Sys2Proof/Machine/Flags.lean ====
section
/-! DEFINITION. The machine has no flags, condition codes or predicate registers (`10_state.md` R26). What other machines keep in flags is
here a comparison of two 32-bit values, whose answer a set-less-than instruction writes to a register and a branch tests at once. Comparisons
are on the mathematical values and never overflow (`40_arithmetic.md` R118). -/

namespace Sys2Proof.Machine

/-- `a == b` (`00_scope.md` R8). -/
def eqWord (a b : Word) : Bool := a == b

/-- `a <s b`: comparison of signed(a) with signed(b) (R8, R118). -/
def ltSigned (a b : Word) : Bool := decide (a.toInt < b.toInt)

/-- `a <u b`: comparison of unsigned(a) with unsigned(b) (R8, R118). -/
def ltUnsigned (a b : Word) : Bool := decide (a.toNat < b.toNat)

/-- `a >=s b` (R8). -/
def geSigned (a b : Word) : Bool := decide (b.toInt ≤ a.toInt)

/-- `a >=u b` (R8). -/
def geUnsigned (a b : Word) : Bool := decide (b.toNat ≤ a.toNat)

/-- `c ? 1 : 0`, the 32-bit values 0x00000001 and 0x00000000 (`40_arithmetic.md` R114). -/
def boolWord (c : Bool) : Word := if c then 0x00000001#32 else 0x00000000#32

end Sys2Proof.Machine
end

