-- ==== Sys2Proof/Machine/Operands.lean ====
section
/-! DEFINITION. Operand forms: the immediates as 32-bit values (`30_encoding.md` R78 to R83), shift amounts (`41_logical_shift.md` R133), the one
addressing mode (`42_load_store.md` R141) and the targets of control transfers (`43_control_flow.md`). Every sum is modulo 2^32 (`10_state.md` R24,
`20_memory.md` R46). -/

namespace Sys2Proof.Machine

/-- `imm_I` and `imm_S`: sext_12 (R78, R79). -/
def sext12 (imm : BitVec 12) : Word := imm.signExtend 32

/-- `imm_B`: sext_13 of the byte offset, whose appended 0 bit already holds the source's "× 2" (R80, `90_conflicts.md` C6). -/
def sext13 (off : BitVec 13) : Word := off.signExtend 32

/-- `imm_J`: sext_21 of the byte offset (R82). -/
def sext21 (off : BitVec 21) : Word := off.signExtend 32

/-- `imm_U`: the 20-bit field ‖ 0^12 (R81). -/
def immU (imm20 : BitVec 20) : Word := imm20 ++ 0#12

/-- The amount of a register shift: the low 5 bits of the register, 0 to 31 (R133). -/
def shiftAmount (v : Word) : BitVec 5 := v.extractLsb' 0 5

/-- `a << n` (`00_scope.md` R8, R133). -/
def shiftLeft (a : Word) (n : BitVec 5) : Word := a <<< n.toNat

/-- `a >>u n` (R8, R133). -/
def shiftRightLogical (a : Word) (n : BitVec 5) : Word := a >>> n.toNat

/-- `a >>s n` (R8, R133). -/
def shiftRightArith (a : Word) (n : BitVec 5) : Word := a.sshiftRight n.toNat

/-- sext_8 (R8). -/
def sextByte (b : Byte) : Word := b.signExtend 32
/-- zext_8 (R8). -/
def zextByte (b : Byte) : Word := b.setWidth 32
/-- sext_16 (R8). -/
def sextHalf (h : Half) : Word := h.signExtend 32
/-- zext_16 (R8). -/
def zextHalf (h : Half) : Word := h.setWidth 32

/-- The effective address: base + displacement, modulo 2^32 (R141). -/
def effAddr (base : Word) (imm : BitVec 12) : Word := base + sext12 imm

/-- The target of JALR: (base + imm_I) & 0xFFFFFFFE (R168). -/
def jalrTarget (base : Word) (imm : BitVec 12) : Word := (base + sext12 imm) &&& 0xFFFFFFFE#32

end Sys2Proof.Machine
end

