-- ==== Sys2Proof/Config.lean ====
section
/-! DEFINITION. The five parameters the source leaves open (`00_scope.md` R6, the second table of
`92_eei_decisions.md`), as plain data. A run is started with one `Config` and no step changes it. The spec's model "takes these five as
arguments and nothing else"; no other behaviour is configurable. -/

namespace Sys2Proof

/-- The kind of an access (`20_memory.md` R47). -/
inductive AccessKind where
  | fetch | load | store
  deriving DecidableEq, Repr

/-- `MISALIGNED_DATA` (`20_memory.md` R45): what a load or store at an address that is not a multiple of its size does. -/
inductive MisalignedData where
  /-- The access raises `LoadAddrMisaligned` or `StoreAddrMisaligned`; the spec's default. -/
  | refuse
  /-- The access is made byte by byte. -/
  | bytewise
  deriving DecidableEq, Repr

/-- One row of the memory map: the byte addresses `first` to `last`, both included, admit accesses of `kind`. -/
structure Window where
  kind  : AccessKind
  first : Nat
  last  : Nat
  deriving DecidableEq, Repr

/-- Memory as data: (address, byte) pairs in the canonical form `Memory.wf` of `Machine/Memory.lean`. An address that is
not listed reads as `Memory.unlisted`. -/
abbrev Memory := List Host.Cell

/-- The parameters of R6. `access` is the predicate `Accessible(kind, addr)` of R47 written as a list of windows: an address admits a
kind of access when some window of that kind holds it (`Config.accessible`, `Machine/Memory.lean`). -/
structure Config where
  /-- `RESET_PC`, a multiple of 4 (`10_state.md` R31). -/
  resetPc    : Word
  /-- `INIT_MEM`: memory at the start of a run, the program included (`10_state.md` R33). -/
  initMem    : Memory
  /-- `Accessible` (`20_memory.md` R47). -/
  access     : List Window
  /-- `MISALIGNED_DATA` (`20_memory.md` R45). -/
  misaligned : MisalignedData
  /-- `HALT_PC` (`70_reset_and_hazards.md` R246). -/
  haltPc     : Option Word
  deriving DecidableEq, Repr

/-- The defaults the second table of `92_eei_decisions.md` names: `RESET_PC` = 0x00000000; fetch below 0x00001000, load and store below
0x00002000; `refuse`. No program is given, so `INIT_MEM` lists nothing and `HALT_PC` is absent. DESIGN CHOICE, unsafe (assumption log 2). -/
def Config.specDefault : Config where
  resetPc    := 0x00000000#32
  initMem    := []
  access     := [⟨.fetch, 0x0000, 0x0FFF⟩, ⟨.load, 0x0000, 0x1FFF⟩, ⟨.store, 0x0000, 0x1FFF⟩]
  misaligned := .refuse
  haltPc     := none

end Sys2Proof
end

