-- ==== Sys2Proof/Machine/Memory.lean ====
section
/-! DEFINITION. Memory as a canonical list of (address, byte) pairs (`10_state.md` R29, `20_memory.md` R40), its byte order
(`20_memory.md` R41, R42, R43), and the predicate `Accessible` (R47). Addresses are natural numbers below 2^32. -/

namespace Sys2Proof

/-- What an address that memory does not list reads as. The spec gives no reset contents (R33: unspecified, fixed for the run): DESIGN CHOICE
0x00, unsafe (assumption log 4). Every memory contents is some list, so a claim about every state leans on no such byte. -/
def Memory.unlisted : Byte := 0x00#8

/-- The canonical form: addresses strictly rise and lie below 2^32, and no entry equals what an unlisted address reads as. -/
abbrev Memory.wf (m : Memory) : Prop :=
  m.Pairwise (fun c d => c.1 < d.1) ∧ ∀ c ∈ m, c.1 < 2 ^ 32 ∧ c.2 ≠ Memory.unlisted

/-- The byte at an address. -/
def Memory.read : Memory → Nat → Byte
  | [], _ => Memory.unlisted
  | c :: m, a => if c.1 = a then c.2 else Memory.read m a

/-- Puts a listed byte at its place in a sorted memory. -/
def Memory.insert : Memory → Nat → Byte → Memory
  | [], a, b => [(a, b)]
  | c :: m, a, b =>
    if a < c.1 then (a, b) :: c :: m
    else if a = c.1 then (a, b) :: m
    else c :: Memory.insert m a b

/-- Writes a byte. Writing the byte an unlisted address reads as removes the entry, so that equal memories are equal data. -/
def Memory.write (m : Memory) (a : Nat) (b : Byte) : Memory :=
  if b = Memory.unlisted then m.filter (fun c => c.1 != a) else m.insert a b

/-- mem[a + 1] ‖ mem[a] (R41). -/
def Memory.read16 (m : Memory) (a : Nat) : Half := m.read (a + 1) ++ m.read a

/-- mem[a + 3] ‖ mem[a + 2] ‖ mem[a + 1] ‖ mem[a] (R41, R43). -/
def Memory.read32 (m : Memory) (a : Nat) : Word :=
  m.read (a + 3) ++ m.read (a + 2) ++ m.read (a + 1) ++ m.read a

/-- mem[a] ← v[7:0]; mem[a + 1] ← v[15:8] (R42). -/
def Memory.write16 (m : Memory) (a : Nat) (v : Half) : Memory :=
  (m.write a (v.extractLsb' 0 8)).write (a + 1) (v.extractLsb' 8 8)

/-- mem[a + i] ← v[8i+7 : 8i] for i = 0 to 3 (R42). -/
def Memory.write32 (m : Memory) (a : Nat) (v : Word) : Memory :=
  (((m.write a (v.extractLsb' 0 8)).write (a + 1) (v.extractLsb' 8 8)).write
    (a + 2) (v.extractLsb' 16 8)).write (a + 3) (v.extractLsb' 24 8)

/-- `Accessible(kind, addr)` (R47): some window of that kind holds the address. -/
def Config.accessible (c : Config) (k : AccessKind) (a : Nat) : Bool :=
  c.access.any (fun w => w.kind == k && decide (w.first ≤ a) && decide (a ≤ w.last))

/-- Every byte of the `n` bytes at `a` admits the access (R47). -/
def Config.allAccessible (c : Config) (k : AccessKind) (a n : Nat) : Bool :=
  (List.range n).all (fun i => c.accessible k (a + i))

/-- Some byte of the `n` bytes at `a` admits the access (R55). -/
def Config.someAccessible (c : Config) (k : AccessKind) (a n : Nat) : Bool :=
  (List.range n).any (fun i => c.accessible k (a + i))

end Sys2Proof
end

