-- ==== Sys2Proof/Machine/State.lean ====
section
/-! DEFINITION. The architectural state of the MCU-32X (`10_state.md` R30): 32 general registers, the program counter, memory; the
configuration of R6 beside them; the reasons a step can stop; the state at the start of a run (R31 to R34, `70_reset_and_hazards.md` R240).
There are no flags, no control registers, no mode and no interrupt state (R26, R27, R34). -/

namespace Sys2Proof.Machine

/-- The state of the machine (`10_state.md` R30). Plain data.
`cfg` is not architectural: it carries the five parameters of `00_scope.md` R6, which the spec's rules take as arguments, and no step writes it
(assumption log 1). -/
structure State where
  /-- The general registers (R20). Read and written by `State.readReg` and `State.writeReg` only, where x0 is hard-wired (R21). -/
  x   : Vector Word 32
  /-- The address of the instruction being executed (R23). -/
  pc  : Word
  /-- Memory, one byte at each address (R29), in the canonical form `Memory.wf`. -/
  mem : Memory
  /-- The parameters of the run (R6). -/
  cfg : Config
  deriving DecidableEq, Repr

/-- The faults of `60_exceptions.md` R201, with their `info` values. Each is terminal and leaves the state as it was (R205). Each is safe: the
model stops where the source gives no behaviour and the chip may go on (decision D5). -/
inductive Fault where
  /-- Raised by a step whose pc is not a multiple of 4, and by a taken branch, JAL or JALR whose target has bit 1 set (R169). Safe. -/
  | instrAddrMisaligned (addr : Word)
  /-- Raised by the fetch when a byte of pc .. pc+3 does not admit fetch (`20_memory.md` R50). Safe. -/
  | fetchAccessFault (addr : Word)
  /-- Raised by a fetched word that matches no row of the opcode table (`30_encoding.md` R97). Safe. -/
  | illegalInstruction (word : Word)
  /-- Raised by LH, LHU, LW at a misaligned address under `refuse` (`20_memory.md` R45). Safe. -/
  | loadAddrMisaligned (addr : Word)
  /-- Raised by a load some byte of which does not admit loads, or that runs past 0xFFFFFFFF (`20_memory.md` R46, R47). Safe. -/
  | loadAccessFault (addr : Word)
  /-- Raised by SH, SW at a misaligned address under `refuse` (`20_memory.md` R45). Safe. -/
  | storeAddrMisaligned (addr : Word)
  /-- Raised by a store some byte of which does not admit stores, or that runs past 0xFFFFFFFF (`20_memory.md` R46, R47). Safe. -/
  | storeAccessFault (addr : Word)
  /-- Raised by a store some byte of which admits fetch (`20_memory.md` R55). Safe. -/
  | storeToCode (addr : Word)
  deriving DecidableEq, Repr

/-- Why the model gives an instruction no meaning. Every instruction of the 37 has one, so nothing raises a refusal. -/
inductive Refusal where
  /-- Answered by an arm of `exec` whose instruction has no meaning yet. No arm is left so. Safe. -/
  | notModelled (mnemonic : String)
  deriving DecidableEq, Repr

/-- The state in which a run starts (R31 to R34, R240): `pc` = `RESET_PC`, x0 = 0, memory = `INIT_MEM`, and for x1 to x31, which the spec leaves
unspecified but fixed for the run, the given values. A claim about programs holds for every `x` (R32). -/
def State.start (c : Config) (x : Vector Word 32) : State where
  x   := x.set 0 0
  pc  := c.resetPc
  mem := c.initMem
  cfg := c

/-- The machine right after reset, at the values the assumption log names where the spec gives none: the defaults of `92_eei_decisions.md`
for the parameters (DESIGN CHOICE, log 2) and 0 for x1 to x31 (DESIGN CHOICE, log 3). Unsafe: a proof could lean on these values. -/
def State.reset : State := State.start Config.specDefault (Vector.replicate 32 0#32)

end Sys2Proof.Machine
end

