-- ==== Sys2Proof/Machine/Ops.lean ====
section
/-! DEFINITION. The named operations every meaning is built from: `raise` (`00_scope.md` R9), registers (`10_state.md` R20 to R22), the advance of
pc (R24), `MemRead` and `MemWrite` (`20_memory.md` R48, R49) and control transfer (`43_control_flow.md` R169). There is no trap entry and no trap
return (`60_exceptions.md` R205, R206): taking an exception is `raise` and nothing else. -/

namespace Sys2Proof.Machine

/-- What a step answers (R9). -/
abbrev Result := Host.Outcome State Fault Refusal

/-- `raise E(info)` (R9, R205): the step ends in the fault; no register, pc or memory byte is changed, no cause or address is recorded, no
handler is entered. -/
def raise (f : Fault) : Result := .fault f

/-- `x[r]`: x0 reads as zero (R21). -/
def State.readReg (s : State) (r : Reg) : Word := if r = 0 then 0#32 else s.x[r]

/-- `x[r] <- v`: a write to x0 has no effect (R21). -/
def State.writeReg (s : State) (r : Reg) (v : Word) : State :=
  if r = 0 then s else { s with x := s.x.set r v }

/-- `pc <- t`. -/
def State.setPc (s : State) (t : Word) : State := { s with pc := t }

/-- Memory replaced. -/
def State.setMem (s : State) (m : Memory) : State := { s with mem := m }

/-- The address after this instruction, `pc + 4` modulo 2^32 (R24). -/
def State.nextPc (s : State) : Word := s.pc + 4#32

/-- The byte at an address. -/
def State.byteAt (s : State) (a : Nat) : Byte := s.mem.read a

/-- The end of an instruction that computes a value: `x[rd] <- v`, `pc <- pc + 4` (R24, R110, R120, R180). -/
def writeBack (rd : Reg) (v : Word) (s : State) : Result :=
  .next ((s.writeReg rd v).setPc s.nextPc)

/-- The checks of `MemRead(a, n)` in their order (R48): alignment, the top of the address space, accessibility. An aligned access never passes the
top, so the second check fails only under `bytewise` (R46). -/
def loadFault (s : State) (a : Word) (n : Nat) : Option Fault :=
  if a.toNat % n ≠ 0 ∧ s.cfg.misaligned = .refuse then some (.loadAddrMisaligned a)
  else if 2 ^ 32 < a.toNat + n then some (.loadAccessFault a)
  else if s.cfg.allAccessible .load a.toNat n = false then some (.loadAccessFault a)
  else none

/-- The checks of `MemWrite(a, n, v)` in their order (R49): alignment, the top of the address space, store access of every byte, then fetch access
of any byte (R55). All are made before any byte is written. -/
def storeFault (s : State) (a : Word) (n : Nat) : Option Fault :=
  if a.toNat % n ≠ 0 ∧ s.cfg.misaligned = .refuse then some (.storeAddrMisaligned a)
  else if 2 ^ 32 < a.toNat + n then some (.storeAccessFault a)
  else if s.cfg.allAccessible .store a.toNat n = false then some (.storeAccessFault a)
  else if s.cfg.someAccessible .fetch a.toNat n then some (.storeToCode a)
  else none

/-- A load of `n` bytes at `a`: the checks, then `x[rd] <- v` where `v` is made from the bytes at `a` (R48, R140). With rd = x0 the checks are made
all the same (R98). -/
def loadTo (rd : Reg) (a : Word) (n : Nat) (v : Word) (s : State) : Result :=
  match loadFault s a n with
  | some f => raise f
  | none => writeBack rd v s

/-- A store of `n` bytes at `a`: the checks, then memory becomes `m`, which differs from the old in those bytes (R49, R140). -/
def storeAt (a : Word) (n : Nat) (m : Memory) (s : State) : Result :=
  match storeFault s a n with
  | some f => raise f
  | none => .next ((s.setMem m).setPc s.nextPc)

/-- The conditional branch of `43_control_flow.md` section 2: taken, the target must not have bit 1 set (R169); not taken, `pc + 4`. -/
def branchIf (c : Bool) (off : Word) (s : State) : Result :=
  if c then
    if (s.pc + off).getLsbD 1 then raise (.instrAddrMisaligned (s.pc + off)) else .next (s.setPc (s.pc + off))
  else .next (s.setPc s.nextPc)

/-- Jump and link: the target must not have bit 1 set (R169); then `x[rd] <- pc + 4` and `pc <- t` (R167, R168). -/
def jumpAndLink (rd : Reg) (t : Word) (s : State) : Result :=
  if t.getLsbD 1 then raise (.instrAddrMisaligned t) else .next ((s.writeReg rd s.nextPc).setPc t)

end Sys2Proof.Machine
end

