-- ==== Sys2Proof/Machine/Arith.lean ====
section
/-! DEFINITION. Arithmetic and comparison (`40_arithmetic.md`). Sums and differences are modulo 2^32 and overflow is ignored (R118, R200); no
instruction of this file raises (R110). -/

namespace Sys2Proof.Machine

/-- ADD (R111): x[rd] <- x[rs1] + x[rs2]. -/
def execAdd (rd rs1 rs2 : Reg) (s : State) : Result :=
  writeBack rd (s.readReg rs1 + s.readReg rs2) s

/-- SUB (R112): x[rd] <- x[rs1] - x[rs2]. -/
def execSub (rd rs1 rs2 : Reg) (s : State) : Result :=
  writeBack rd (s.readReg rs1 - s.readReg rs2) s

/-- SLT (R114): signed comparison. -/
def execSlt (rd rs1 rs2 : Reg) (s : State) : Result :=
  writeBack rd (boolWord (ltSigned (s.readReg rs1) (s.readReg rs2))) s

/-- SLTU (R115): unsigned comparison. -/
def execSltu (rd rs1 rs2 : Reg) (s : State) : Result :=
  writeBack rd (boolWord (ltUnsigned (s.readReg rs1) (s.readReg rs2))) s

/-- ADDI (R113): x[rd] <- x[rs1] + imm_I. With rd = x0 it is the NOP (`30_encoding.md` R104). -/
def execAddi (rd rs1 : Reg) (imm : BitVec 12) (s : State) : Result :=
  writeBack rd (s.readReg rs1 + sext12 imm) s

/-- SLTI (R116): signed comparison with imm_I. -/
def execSlti (rd rs1 : Reg) (imm : BitVec 12) (s : State) : Result :=
  writeBack rd (boolWord (ltSigned (s.readReg rs1) (sext12 imm))) s

/-- SLTIU (R117): the immediate is sign-extended first and the 32-bit result compared as unsigned. DEDUCED from the I-type field
description (assumption log 21). -/
def execSltiu (rd rs1 : Reg) (imm : BitVec 12) (s : State) : Result :=
  writeBack rd (boolWord (ltUnsigned (s.readReg rs1) (sext12 imm))) s

end Sys2Proof.Machine
end

