-- ==== Sys2Proof/Machine/Branch.lean ====
section
/-! DEFINITION. Conditional branches (`43_control_flow.md` section 2): no register is written, no delay slot (R160); a taken branch to a target with bit 1
set raises (R169). -/

namespace Sys2Proof.Machine

/-- BEQ (R161): x[rs1] == x[rs2]. -/
def execBeq (rs1 rs2 : Reg) (off : BitVec 13) (s : State) : Result :=
  branchIf (eqWord (s.readReg rs1) (s.readReg rs2)) (sext13 off) s

/-- BNE (R162): x[rs1] != x[rs2]. -/
def execBne (rs1 rs2 : Reg) (off : BitVec 13) (s : State) : Result :=
  branchIf (!eqWord (s.readReg rs1) (s.readReg rs2)) (sext13 off) s

/-- BLT (R163): x[rs1] <s x[rs2]. -/
def execBlt (rs1 rs2 : Reg) (off : BitVec 13) (s : State) : Result :=
  branchIf (ltSigned (s.readReg rs1) (s.readReg rs2)) (sext13 off) s

/-- BGE (R164): x[rs1] >=s x[rs2]. -/
def execBge (rs1 rs2 : Reg) (off : BitVec 13) (s : State) : Result :=
  branchIf (geSigned (s.readReg rs1) (s.readReg rs2)) (sext13 off) s

/-- BLTU (R165): x[rs1] <u x[rs2]. -/
def execBltu (rs1 rs2 : Reg) (off : BitVec 13) (s : State) : Result :=
  branchIf (ltUnsigned (s.readReg rs1) (s.readReg rs2)) (sext13 off) s

/-- BGEU (R166): x[rs1] >=u x[rs2]. -/
def execBgeu (rs1 rs2 : Reg) (off : BitVec 13) (s : State) : Result :=
  branchIf (geUnsigned (s.readReg rs1) (s.readReg rs2)) (sext13 off) s

end Sys2Proof.Machine
end

