-- ==== Sys2Proof/Machine/Jump.lean ====
section
/-! DEFINITION. Jumps (`43_control_flow.md` section 3). The link value is pc + 4; a target with bit 1 set raises before rd is written (R169). -/

namespace Sys2Proof.Machine

/-- JAL (R167): t = pc + imm_J. -/
def execJal (rd : Reg) (off : BitVec 21) (s : State) : Result :=
  jumpAndLink rd (s.pc + sext21 off) s

/-- JALR (R168): t = (x[rs1] + imm_I) & 0xFFFFFFFE, from the value x[rs1] has before rd is written (decision D23, assumption log 20). -/
def execJalr (rd rs1 : Reg) (imm : BitVec 12) (s : State) : Result :=
  jumpAndLink rd (jalrTarget (s.readReg rs1) imm) s

end Sys2Proof.Machine
end

