-- ==== Sys2Proof/Machine/Load.lean ====
section
/-! DEFINITION. Loads (`42_load_store.md` section 2): ea = x[rs1] + imm_I (R141), the checks of `MemRead`, then the extension to 32 bits. -/

namespace Sys2Proof.Machine

/-- LB (R142): one byte, sign-extended; never misaligned. -/
def execLb (rd rs1 : Reg) (imm : BitVec 12) (s : State) : Result :=
  let ea := effAddr (s.readReg rs1) imm
  loadTo rd ea 1 (sextByte (s.mem.read ea.toNat)) s

/-- LH (R143): two bytes, sign-extended. -/
def execLh (rd rs1 : Reg) (imm : BitVec 12) (s : State) : Result :=
  let ea := effAddr (s.readReg rs1) imm
  loadTo rd ea 2 (sextHalf (s.mem.read16 ea.toNat)) s

/-- LW (R144): four bytes. -/
def execLw (rd rs1 : Reg) (imm : BitVec 12) (s : State) : Result :=
  let ea := effAddr (s.readReg rs1) imm
  loadTo rd ea 4 (s.mem.read32 ea.toNat) s

/-- LBU (R145): one byte, zero-extended. -/
def execLbu (rd rs1 : Reg) (imm : BitVec 12) (s : State) : Result :=
  let ea := effAddr (s.readReg rs1) imm
  loadTo rd ea 1 (zextByte (s.mem.read ea.toNat)) s

/-- LHU (R146): two bytes, zero-extended. -/
def execLhu (rd rs1 : Reg) (imm : BitVec 12) (s : State) : Result :=
  let ea := effAddr (s.readReg rs1) imm
  loadTo rd ea 2 (zextHalf (s.mem.read16 ea.toNat)) s

end Sys2Proof.Machine
end

