-- ==== Sys2Proof/Machine/Logic.lean ====
section
/-! DEFINITION. Bitwise operations (`41_logical_shift.md` section 2); no instruction of this file raises (R120). Immediates are sign-extended. -/

namespace Sys2Proof.Machine

/-- AND (R121). -/
def execAnd (rd rs1 rs2 : Reg) (s : State) : Result :=
  writeBack rd (s.readReg rs1 &&& s.readReg rs2) s

/-- OR (R122). -/
def execOr (rd rs1 rs2 : Reg) (s : State) : Result :=
  writeBack rd (s.readReg rs1 ||| s.readReg rs2) s

/-- XOR (R123). -/
def execXor (rd rs1 rs2 : Reg) (s : State) : Result :=
  writeBack rd (s.readReg rs1 ^^^ s.readReg rs2) s

/-- ANDI (R124). -/
def execAndi (rd rs1 : Reg) (imm : BitVec 12) (s : State) : Result :=
  writeBack rd (s.readReg rs1 &&& sext12 imm) s

/-- ORI (R125). -/
def execOri (rd rs1 : Reg) (imm : BitVec 12) (s : State) : Result :=
  writeBack rd (s.readReg rs1 ||| sext12 imm) s

/-- XORI (R126). -/
def execXori (rd rs1 : Reg) (imm : BitVec 12) (s : State) : Result :=
  writeBack rd (s.readReg rs1 ^^^ sext12 imm) s

end Sys2Proof.Machine
end

