-- ==== Sys2Proof/Machine/Shift.lean ====
section
/-! DEFINITION. Shifts (`41_logical_shift.md` section 3); no instruction of this file raises (R120). The amount is 0 to 31 (R133). -/

namespace Sys2Proof.Machine

/-- SLL (R127): by the low 5 bits of x[rs2]. -/
def execSll (rd rs1 rs2 : Reg) (s : State) : Result :=
  writeBack rd (shiftLeft (s.readReg rs1) (shiftAmount (s.readReg rs2))) s

/-- SRL (R128). -/
def execSrl (rd rs1 rs2 : Reg) (s : State) : Result :=
  writeBack rd (shiftRightLogical (s.readReg rs1) (shiftAmount (s.readReg rs2))) s

/-- SRA (R129). -/
def execSra (rd rs1 rs2 : Reg) (s : State) : Result :=
  writeBack rd (shiftRightArith (s.readReg rs1) (shiftAmount (s.readReg rs2))) s

/-- SLLI (R130). -/
def execSlli (rd rs1 : Reg) (shamt : BitVec 5) (s : State) : Result :=
  writeBack rd (shiftLeft (s.readReg rs1) shamt) s

/-- SRLI (R131). -/
def execSrli (rd rs1 : Reg) (shamt : BitVec 5) (s : State) : Result :=
  writeBack rd (shiftRightLogical (s.readReg rs1) shamt) s

/-- SRAI (R132). -/
def execSrai (rd rs1 : Reg) (shamt : BitVec 5) (s : State) : Result :=
  writeBack rd (shiftRightArith (s.readReg rs1) shamt) s

end Sys2Proof.Machine
end

