-- ==== Sys2Proof/Machine/Store.lean ====
section
/-! DEFINITION. Stores (`42_load_store.md` section 3): ea = x[rs1] + imm_S (R141), the checks of `MemWrite`, then exactly the bytes of the width (R44).
No register is written. -/

namespace Sys2Proof.Machine

/-- SB (R147): x[rs2][7:0]. -/
def execSb (rs1 rs2 : Reg) (imm : BitVec 12) (s : State) : Result :=
  let ea := effAddr (s.readReg rs1) imm
  storeAt ea 1 (s.mem.write ea.toNat ((s.readReg rs2).extractLsb' 0 8)) s

/-- SH (R148): x[rs2][15:0]. -/
def execSh (rs1 rs2 : Reg) (imm : BitVec 12) (s : State) : Result :=
  let ea := effAddr (s.readReg rs1) imm
  storeAt ea 2 (s.mem.write16 ea.toNat ((s.readReg rs2).extractLsb' 0 16)) s

/-- SW (R149): x[rs2]. -/
def execSw (rs1 rs2 : Reg) (imm : BitVec 12) (s : State) : Result :=
  let ea := effAddr (s.readReg rs1) imm
  storeAt ea 4 (s.mem.write32 ea.toNat (s.readReg rs2)) s

end Sys2Proof.Machine
end

