-- ==== Sys2Proof/Machine/Upper.lean ====
section
/-! DEFINITION. Upper immediates (`44_upper_immediate.md`); neither reads a register or raises (R180). -/

namespace Sys2Proof.Machine

/-- LUI (R181): x[rd] <- imm_U. -/
def execLui (rd : Reg) (imm20 : BitVec 20) (s : State) : Result :=
  writeBack rd (immU imm20) s

/-- AUIPC (R182): x[rd] <- pc + imm_U, pc being the address of the AUIPC itself (DEDUCED, assumption log 27). -/
def execAuipc (rd : Reg) (imm20 : BitVec 20) (s : State) : Result :=
  writeBack rd (s.pc + immU imm20) s

end Sys2Proof.Machine
end

