-- ==== Sys2Proof/Syntax.lean ====
section
/-! DEFINITION. The 37 instructions of `00_scope.md` R3, one constructor per row of `spec/opcode_table.json`, in the table's order.
Operands are the decoded fields of `30_encoding.md`: register numbers (R71), the 12-bit immediate before sign extension (R78, R79), the
5-bit shift amount (R83), the byte offset of a branch (13 bits, R80) or of JAL (21 bits, R82) with its appended bit 0, and the 20-bit
field of LUI and AUIPC (R81). -/

namespace Sys2Proof

/-- The instructions of the MCU-32X (`00_scope.md` R3). -/
inductive Instr where
  /-- ADD rd, rs1, rs2 (R111). -/
  | add (rd rs1 rs2 : Reg)
  /-- SUB rd, rs1, rs2 (R112). -/
  | sub (rd rs1 rs2 : Reg)
  /-- SLT rd, rs1, rs2 (R114). -/
  | slt (rd rs1 rs2 : Reg)
  /-- SLTU rd, rs1, rs2 (R115). -/
  | sltu (rd rs1 rs2 : Reg)
  /-- AND rd, rs1, rs2 (R121). -/
  | and (rd rs1 rs2 : Reg)
  /-- OR rd, rs1, rs2 (R122). -/
  | or (rd rs1 rs2 : Reg)
  /-- XOR rd, rs1, rs2 (R123). -/
  | xor (rd rs1 rs2 : Reg)
  /-- SLL rd, rs1, rs2 (R127). -/
  | sll (rd rs1 rs2 : Reg)
  /-- SRL rd, rs1, rs2 (R128). -/
  | srl (rd rs1 rs2 : Reg)
  /-- SRA rd, rs1, rs2 (R129). -/
  | sra (rd rs1 rs2 : Reg)
  /-- ADDI rd, rs1, imm (R113). -/
  | addi (rd rs1 : Reg) (imm : BitVec 12)
  /-- SLTI rd, rs1, imm (R116). -/
  | slti (rd rs1 : Reg) (imm : BitVec 12)
  /-- SLTIU rd, rs1, imm (R117). -/
  | sltiu (rd rs1 : Reg) (imm : BitVec 12)
  /-- ANDI rd, rs1, imm (R124). -/
  | andi (rd rs1 : Reg) (imm : BitVec 12)
  /-- ORI rd, rs1, imm (R125). -/
  | ori (rd rs1 : Reg) (imm : BitVec 12)
  /-- XORI rd, rs1, imm (R126). -/
  | xori (rd rs1 : Reg) (imm : BitVec 12)
  /-- SLLI rd, rs1, shamt (R130). -/
  | slli (rd rs1 : Reg) (shamt : BitVec 5)
  /-- SRLI rd, rs1, shamt (R131). -/
  | srli (rd rs1 : Reg) (shamt : BitVec 5)
  /-- SRAI rd, rs1, shamt (R132). -/
  | srai (rd rs1 : Reg) (shamt : BitVec 5)
  /-- LB rd, imm(rs1) (R142). -/
  | lb (rd rs1 : Reg) (imm : BitVec 12)
  /-- LH rd, imm(rs1) (R143). -/
  | lh (rd rs1 : Reg) (imm : BitVec 12)
  /-- LW rd, imm(rs1) (R144). -/
  | lw (rd rs1 : Reg) (imm : BitVec 12)
  /-- LBU rd, imm(rs1) (R145). -/
  | lbu (rd rs1 : Reg) (imm : BitVec 12)
  /-- LHU rd, imm(rs1) (R146). -/
  | lhu (rd rs1 : Reg) (imm : BitVec 12)
  /-- SB rs2, imm(rs1) (R147). -/
  | sb (rs1 rs2 : Reg) (imm : BitVec 12)
  /-- SH rs2, imm(rs1) (R148). -/
  | sh (rs1 rs2 : Reg) (imm : BitVec 12)
  /-- SW rs2, imm(rs1) (R149). -/
  | sw (rs1 rs2 : Reg) (imm : BitVec 12)
  /-- BEQ rs1, rs2, offset (R161). -/
  | beq (rs1 rs2 : Reg) (off : BitVec 13)
  /-- BNE rs1, rs2, offset (R162). -/
  | bne (rs1 rs2 : Reg) (off : BitVec 13)
  /-- BLT rs1, rs2, offset (R163). -/
  | blt (rs1 rs2 : Reg) (off : BitVec 13)
  /-- BGE rs1, rs2, offset (R164). -/
  | bge (rs1 rs2 : Reg) (off : BitVec 13)
  /-- BLTU rs1, rs2, offset (R165). -/
  | bltu (rs1 rs2 : Reg) (off : BitVec 13)
  /-- BGEU rs1, rs2, offset (R166). -/
  | bgeu (rs1 rs2 : Reg) (off : BitVec 13)
  /-- JAL rd, offset (R167). -/
  | jal (rd : Reg) (off : BitVec 21)
  /-- JALR rd, imm(rs1) (R168). -/
  | jalr (rd rs1 : Reg) (imm : BitVec 12)
  /-- LUI rd, imm20 (R181). -/
  | lui (rd : Reg) (imm20 : BitVec 20)
  /-- AUIPC rd, imm20 (R182). -/
  | auipc (rd : Reg) (imm20 : BitVec 20)
  deriving DecidableEq, Repr

/-- The mnemonic of an instruction, as `spec/opcode_table.json` spells it. -/
def Instr.mnemonic : Instr → String
  | .add _ _ _ => "ADD"
  | .sub _ _ _ => "SUB"
  | .slt _ _ _ => "SLT"
  | .sltu _ _ _ => "SLTU"
  | .and _ _ _ => "AND"
  | .or _ _ _ => "OR"
  | .xor _ _ _ => "XOR"
  | .sll _ _ _ => "SLL"
  | .srl _ _ _ => "SRL"
  | .sra _ _ _ => "SRA"
  | .addi _ _ _ => "ADDI"
  | .slti _ _ _ => "SLTI"
  | .sltiu _ _ _ => "SLTIU"
  | .andi _ _ _ => "ANDI"
  | .ori _ _ _ => "ORI"
  | .xori _ _ _ => "XORI"
  | .slli _ _ _ => "SLLI"
  | .srli _ _ _ => "SRLI"
  | .srai _ _ _ => "SRAI"
  | .lb _ _ _ => "LB"
  | .lh _ _ _ => "LH"
  | .lw _ _ _ => "LW"
  | .lbu _ _ _ => "LBU"
  | .lhu _ _ _ => "LHU"
  | .sb _ _ _ => "SB"
  | .sh _ _ _ => "SH"
  | .sw _ _ _ => "SW"
  | .beq _ _ _ => "BEQ"
  | .bne _ _ _ => "BNE"
  | .blt _ _ _ => "BLT"
  | .bge _ _ _ => "BGE"
  | .bltu _ _ _ => "BLTU"
  | .bgeu _ _ _ => "BGEU"
  | .jal _ _ => "JAL"
  | .jalr _ _ _ => "JALR"
  | .lui _ _ => "LUI"
  | .auipc _ _ => "AUIPC"

/-- The destination register field (R71); stores and branches have none (R74, R75). -/
def Instr.rdField : Instr → Option Reg
  | .add rd _ _ => some rd
  | .sub rd _ _ => some rd
  | .slt rd _ _ => some rd
  | .sltu rd _ _ => some rd
  | .and rd _ _ => some rd
  | .or rd _ _ => some rd
  | .xor rd _ _ => some rd
  | .sll rd _ _ => some rd
  | .srl rd _ _ => some rd
  | .sra rd _ _ => some rd
  | .addi rd _ _ => some rd
  | .slti rd _ _ => some rd
  | .sltiu rd _ _ => some rd
  | .andi rd _ _ => some rd
  | .ori rd _ _ => some rd
  | .xori rd _ _ => some rd
  | .slli rd _ _ => some rd
  | .srli rd _ _ => some rd
  | .srai rd _ _ => some rd
  | .lb rd _ _ => some rd
  | .lh rd _ _ => some rd
  | .lw rd _ _ => some rd
  | .lbu rd _ _ => some rd
  | .lhu rd _ _ => some rd
  | .sb _ _ _ => none
  | .sh _ _ _ => none
  | .sw _ _ _ => none
  | .beq _ _ _ => none
  | .bne _ _ _ => none
  | .blt _ _ _ => none
  | .bge _ _ _ => none
  | .bltu _ _ _ => none
  | .bgeu _ _ _ => none
  | .jal rd _ => some rd
  | .jalr rd _ _ => some rd
  | .lui rd _ => some rd
  | .auipc rd _ => some rd

/-- The first source register field (R71); the U-type and JAL have none (R76, R77). -/
def Instr.rs1Field : Instr → Option Reg
  | .add _ rs1 _ => some rs1
  | .sub _ rs1 _ => some rs1
  | .slt _ rs1 _ => some rs1
  | .sltu _ rs1 _ => some rs1
  | .and _ rs1 _ => some rs1
  | .or _ rs1 _ => some rs1
  | .xor _ rs1 _ => some rs1
  | .sll _ rs1 _ => some rs1
  | .srl _ rs1 _ => some rs1
  | .sra _ rs1 _ => some rs1
  | .addi _ rs1 _ => some rs1
  | .slti _ rs1 _ => some rs1
  | .sltiu _ rs1 _ => some rs1
  | .andi _ rs1 _ => some rs1
  | .ori _ rs1 _ => some rs1
  | .xori _ rs1 _ => some rs1
  | .slli _ rs1 _ => some rs1
  | .srli _ rs1 _ => some rs1
  | .srai _ rs1 _ => some rs1
  | .lb _ rs1 _ => some rs1
  | .lh _ rs1 _ => some rs1
  | .lw _ rs1 _ => some rs1
  | .lbu _ rs1 _ => some rs1
  | .lhu _ rs1 _ => some rs1
  | .sb rs1 _ _ => some rs1
  | .sh rs1 _ _ => some rs1
  | .sw rs1 _ _ => some rs1
  | .beq rs1 _ _ => some rs1
  | .bne rs1 _ _ => some rs1
  | .blt rs1 _ _ => some rs1
  | .bge rs1 _ _ => some rs1
  | .bltu rs1 _ _ => some rs1
  | .bgeu rs1 _ _ => some rs1
  | .jal _ _ => none
  | .jalr _ rs1 _ => some rs1
  | .lui _ _ => none
  | .auipc _ _ => none

/-- The second source register field (R71): R-type, S-type and B-type only (R72, R74, R75). -/
def Instr.rs2Field : Instr → Option Reg
  | .add _ _ rs2 => some rs2
  | .sub _ _ rs2 => some rs2
  | .slt _ _ rs2 => some rs2
  | .sltu _ _ rs2 => some rs2
  | .and _ _ rs2 => some rs2
  | .or _ _ rs2 => some rs2
  | .xor _ _ rs2 => some rs2
  | .sll _ _ rs2 => some rs2
  | .srl _ _ rs2 => some rs2
  | .sra _ _ rs2 => some rs2
  | .addi _ _ _ => none
  | .slti _ _ _ => none
  | .sltiu _ _ _ => none
  | .andi _ _ _ => none
  | .ori _ _ _ => none
  | .xori _ _ _ => none
  | .slli _ _ _ => none
  | .srli _ _ _ => none
  | .srai _ _ _ => none
  | .lb _ _ _ => none
  | .lh _ _ _ => none
  | .lw _ _ _ => none
  | .lbu _ _ _ => none
  | .lhu _ _ _ => none
  | .sb _ rs2 _ => some rs2
  | .sh _ rs2 _ => some rs2
  | .sw _ rs2 _ => some rs2
  | .beq _ rs2 _ => some rs2
  | .bne _ rs2 _ => some rs2
  | .blt _ rs2 _ => some rs2
  | .bge _ rs2 _ => some rs2
  | .bltu _ rs2 _ => some rs2
  | .bgeu _ rs2 _ => some rs2
  | .jal _ _ => none
  | .jalr _ _ _ => none
  | .lui _ _ => none
  | .auipc _ _ => none

/-- The 12-bit immediate of the I-type instructions but the immediate shifts (R73, R78). -/
def Instr.immIField : Instr → Option (BitVec 12)
  | .add _ _ _ => none
  | .sub _ _ _ => none
  | .slt _ _ _ => none
  | .sltu _ _ _ => none
  | .and _ _ _ => none
  | .or _ _ _ => none
  | .xor _ _ _ => none
  | .sll _ _ _ => none
  | .srl _ _ _ => none
  | .sra _ _ _ => none
  | .addi _ _ imm => some imm
  | .slti _ _ imm => some imm
  | .sltiu _ _ imm => some imm
  | .andi _ _ imm => some imm
  | .ori _ _ imm => some imm
  | .xori _ _ imm => some imm
  | .slli _ _ _ => none
  | .srli _ _ _ => none
  | .srai _ _ _ => none
  | .lb _ _ imm => some imm
  | .lh _ _ imm => some imm
  | .lw _ _ imm => some imm
  | .lbu _ _ imm => some imm
  | .lhu _ _ imm => some imm
  | .sb _ _ _ => none
  | .sh _ _ _ => none
  | .sw _ _ _ => none
  | .beq _ _ _ => none
  | .bne _ _ _ => none
  | .blt _ _ _ => none
  | .bge _ _ _ => none
  | .bltu _ _ _ => none
  | .bgeu _ _ _ => none
  | .jal _ _ => none
  | .jalr _ _ imm => some imm
  | .lui _ _ => none
  | .auipc _ _ => none

/-- The shift amount of the immediate shifts (R83). -/
def Instr.shamtField : Instr → Option (BitVec 5)
  | .add _ _ _ => none
  | .sub _ _ _ => none
  | .slt _ _ _ => none
  | .sltu _ _ _ => none
  | .and _ _ _ => none
  | .or _ _ _ => none
  | .xor _ _ _ => none
  | .sll _ _ _ => none
  | .srl _ _ _ => none
  | .sra _ _ _ => none
  | .addi _ _ _ => none
  | .slti _ _ _ => none
  | .sltiu _ _ _ => none
  | .andi _ _ _ => none
  | .ori _ _ _ => none
  | .xori _ _ _ => none
  | .slli _ _ shamt => some shamt
  | .srli _ _ shamt => some shamt
  | .srai _ _ shamt => some shamt
  | .lb _ _ _ => none
  | .lh _ _ _ => none
  | .lw _ _ _ => none
  | .lbu _ _ _ => none
  | .lhu _ _ _ => none
  | .sb _ _ _ => none
  | .sh _ _ _ => none
  | .sw _ _ _ => none
  | .beq _ _ _ => none
  | .bne _ _ _ => none
  | .blt _ _ _ => none
  | .bge _ _ _ => none
  | .bltu _ _ _ => none
  | .bgeu _ _ _ => none
  | .jal _ _ => none
  | .jalr _ _ _ => none
  | .lui _ _ => none
  | .auipc _ _ => none

/-- The 12-bit displacement of the S-type instructions (R74, R79). -/
def Instr.immSField : Instr → Option (BitVec 12)
  | .add _ _ _ => none
  | .sub _ _ _ => none
  | .slt _ _ _ => none
  | .sltu _ _ _ => none
  | .and _ _ _ => none
  | .or _ _ _ => none
  | .xor _ _ _ => none
  | .sll _ _ _ => none
  | .srl _ _ _ => none
  | .sra _ _ _ => none
  | .addi _ _ _ => none
  | .slti _ _ _ => none
  | .sltiu _ _ _ => none
  | .andi _ _ _ => none
  | .ori _ _ _ => none
  | .xori _ _ _ => none
  | .slli _ _ _ => none
  | .srli _ _ _ => none
  | .srai _ _ _ => none
  | .lb _ _ _ => none
  | .lh _ _ _ => none
  | .lw _ _ _ => none
  | .lbu _ _ _ => none
  | .lhu _ _ _ => none
  | .sb _ _ imm => some imm
  | .sh _ _ imm => some imm
  | .sw _ _ imm => some imm
  | .beq _ _ _ => none
  | .bne _ _ _ => none
  | .blt _ _ _ => none
  | .bge _ _ _ => none
  | .bltu _ _ _ => none
  | .bgeu _ _ _ => none
  | .jal _ _ => none
  | .jalr _ _ _ => none
  | .lui _ _ => none
  | .auipc _ _ => none

/-- The byte offset of the B-type instructions (R75, R80). -/
def Instr.immBField : Instr → Option (BitVec 13)
  | .add _ _ _ => none
  | .sub _ _ _ => none
  | .slt _ _ _ => none
  | .sltu _ _ _ => none
  | .and _ _ _ => none
  | .or _ _ _ => none
  | .xor _ _ _ => none
  | .sll _ _ _ => none
  | .srl _ _ _ => none
  | .sra _ _ _ => none
  | .addi _ _ _ => none
  | .slti _ _ _ => none
  | .sltiu _ _ _ => none
  | .andi _ _ _ => none
  | .ori _ _ _ => none
  | .xori _ _ _ => none
  | .slli _ _ _ => none
  | .srli _ _ _ => none
  | .srai _ _ _ => none
  | .lb _ _ _ => none
  | .lh _ _ _ => none
  | .lw _ _ _ => none
  | .lbu _ _ _ => none
  | .lhu _ _ _ => none
  | .sb _ _ _ => none
  | .sh _ _ _ => none
  | .sw _ _ _ => none
  | .beq _ _ off => some off
  | .bne _ _ off => some off
  | .blt _ _ off => some off
  | .bge _ _ off => some off
  | .bltu _ _ off => some off
  | .bgeu _ _ off => some off
  | .jal _ _ => none
  | .jalr _ _ _ => none
  | .lui _ _ => none
  | .auipc _ _ => none

/-- The 20-bit field of the U-type instructions (R76, R81). -/
def Instr.immUField : Instr → Option (BitVec 20)
  | .add _ _ _ => none
  | .sub _ _ _ => none
  | .slt _ _ _ => none
  | .sltu _ _ _ => none
  | .and _ _ _ => none
  | .or _ _ _ => none
  | .xor _ _ _ => none
  | .sll _ _ _ => none
  | .srl _ _ _ => none
  | .sra _ _ _ => none
  | .addi _ _ _ => none
  | .slti _ _ _ => none
  | .sltiu _ _ _ => none
  | .andi _ _ _ => none
  | .ori _ _ _ => none
  | .xori _ _ _ => none
  | .slli _ _ _ => none
  | .srli _ _ _ => none
  | .srai _ _ _ => none
  | .lb _ _ _ => none
  | .lh _ _ _ => none
  | .lw _ _ _ => none
  | .lbu _ _ _ => none
  | .lhu _ _ _ => none
  | .sb _ _ _ => none
  | .sh _ _ _ => none
  | .sw _ _ _ => none
  | .beq _ _ _ => none
  | .bne _ _ _ => none
  | .blt _ _ _ => none
  | .bge _ _ _ => none
  | .bltu _ _ _ => none
  | .bgeu _ _ _ => none
  | .jal _ _ => none
  | .jalr _ _ _ => none
  | .lui _ imm20 => some imm20
  | .auipc _ imm20 => some imm20

/-- The byte offset of the J-type instruction (R77, R82). -/
def Instr.immJField : Instr → Option (BitVec 21)
  | .add _ _ _ => none
  | .sub _ _ _ => none
  | .slt _ _ _ => none
  | .sltu _ _ _ => none
  | .and _ _ _ => none
  | .or _ _ _ => none
  | .xor _ _ _ => none
  | .sll _ _ _ => none
  | .srl _ _ _ => none
  | .sra _ _ _ => none
  | .addi _ _ _ => none
  | .slti _ _ _ => none
  | .sltiu _ _ _ => none
  | .andi _ _ _ => none
  | .ori _ _ _ => none
  | .xori _ _ _ => none
  | .slli _ _ _ => none
  | .srli _ _ _ => none
  | .srai _ _ _ => none
  | .lb _ _ _ => none
  | .lh _ _ _ => none
  | .lw _ _ _ => none
  | .lbu _ _ _ => none
  | .lhu _ _ _ => none
  | .sb _ _ _ => none
  | .sh _ _ _ => none
  | .sw _ _ _ => none
  | .beq _ _ _ => none
  | .bne _ _ _ => none
  | .blt _ _ _ => none
  | .bge _ _ _ => none
  | .bltu _ _ _ => none
  | .bgeu _ _ _ => none
  | .jal _ off => some off
  | .jalr _ _ _ => none
  | .lui _ _ => none
  | .auipc _ _ => none

/-- The loads (`42_load_store.md` R142 to R146). -/
def Instr.isLoad : Instr → Bool
  | .add _ _ _ => false
  | .sub _ _ _ => false
  | .slt _ _ _ => false
  | .sltu _ _ _ => false
  | .and _ _ _ => false
  | .or _ _ _ => false
  | .xor _ _ _ => false
  | .sll _ _ _ => false
  | .srl _ _ _ => false
  | .sra _ _ _ => false
  | .addi _ _ _ => false
  | .slti _ _ _ => false
  | .sltiu _ _ _ => false
  | .andi _ _ _ => false
  | .ori _ _ _ => false
  | .xori _ _ _ => false
  | .slli _ _ _ => false
  | .srli _ _ _ => false
  | .srai _ _ _ => false
  | .lb _ _ _ => true
  | .lh _ _ _ => true
  | .lw _ _ _ => true
  | .lbu _ _ _ => true
  | .lhu _ _ _ => true
  | .sb _ _ _ => false
  | .sh _ _ _ => false
  | .sw _ _ _ => false
  | .beq _ _ _ => false
  | .bne _ _ _ => false
  | .blt _ _ _ => false
  | .bge _ _ _ => false
  | .bltu _ _ _ => false
  | .bgeu _ _ _ => false
  | .jal _ _ => false
  | .jalr _ _ _ => false
  | .lui _ _ => false
  | .auipc _ _ => false

/-- The stores (`42_load_store.md` R147 to R149). -/
def Instr.isStore : Instr → Bool
  | .add _ _ _ => false
  | .sub _ _ _ => false
  | .slt _ _ _ => false
  | .sltu _ _ _ => false
  | .and _ _ _ => false
  | .or _ _ _ => false
  | .xor _ _ _ => false
  | .sll _ _ _ => false
  | .srl _ _ _ => false
  | .sra _ _ _ => false
  | .addi _ _ _ => false
  | .slti _ _ _ => false
  | .sltiu _ _ _ => false
  | .andi _ _ _ => false
  | .ori _ _ _ => false
  | .xori _ _ _ => false
  | .slli _ _ _ => false
  | .srli _ _ _ => false
  | .srai _ _ _ => false
  | .lb _ _ _ => false
  | .lh _ _ _ => false
  | .lw _ _ _ => false
  | .lbu _ _ _ => false
  | .lhu _ _ _ => false
  | .sb _ _ _ => true
  | .sh _ _ _ => true
  | .sw _ _ _ => true
  | .beq _ _ _ => false
  | .bne _ _ _ => false
  | .blt _ _ _ => false
  | .bge _ _ _ => false
  | .bltu _ _ _ => false
  | .bgeu _ _ _ => false
  | .jal _ _ => false
  | .jalr _ _ _ => false
  | .lui _ _ => false
  | .auipc _ _ => false

/-- The conditional branches (`43_control_flow.md` R161 to R166). -/
def Instr.isBranch : Instr → Bool
  | .add _ _ _ => false
  | .sub _ _ _ => false
  | .slt _ _ _ => false
  | .sltu _ _ _ => false
  | .and _ _ _ => false
  | .or _ _ _ => false
  | .xor _ _ _ => false
  | .sll _ _ _ => false
  | .srl _ _ _ => false
  | .sra _ _ _ => false
  | .addi _ _ _ => false
  | .slti _ _ _ => false
  | .sltiu _ _ _ => false
  | .andi _ _ _ => false
  | .ori _ _ _ => false
  | .xori _ _ _ => false
  | .slli _ _ _ => false
  | .srli _ _ _ => false
  | .srai _ _ _ => false
  | .lb _ _ _ => false
  | .lh _ _ _ => false
  | .lw _ _ _ => false
  | .lbu _ _ _ => false
  | .lhu _ _ _ => false
  | .sb _ _ _ => false
  | .sh _ _ _ => false
  | .sw _ _ _ => false
  | .beq _ _ _ => true
  | .bne _ _ _ => true
  | .blt _ _ _ => true
  | .bge _ _ _ => true
  | .bltu _ _ _ => true
  | .bgeu _ _ _ => true
  | .jal _ _ => false
  | .jalr _ _ _ => false
  | .lui _ _ => false
  | .auipc _ _ => false

/-- The jumps (`43_control_flow.md` R167, R168). -/
def Instr.isJump : Instr → Bool
  | .add _ _ _ => false
  | .sub _ _ _ => false
  | .slt _ _ _ => false
  | .sltu _ _ _ => false
  | .and _ _ _ => false
  | .or _ _ _ => false
  | .xor _ _ _ => false
  | .sll _ _ _ => false
  | .srl _ _ _ => false
  | .sra _ _ _ => false
  | .addi _ _ _ => false
  | .slti _ _ _ => false
  | .sltiu _ _ _ => false
  | .andi _ _ _ => false
  | .ori _ _ _ => false
  | .xori _ _ _ => false
  | .slli _ _ _ => false
  | .srli _ _ _ => false
  | .srai _ _ _ => false
  | .lb _ _ _ => false
  | .lh _ _ _ => false
  | .lw _ _ _ => false
  | .lbu _ _ _ => false
  | .lhu _ _ _ => false
  | .sb _ _ _ => false
  | .sh _ _ _ => false
  | .sw _ _ _ => false
  | .beq _ _ _ => false
  | .bne _ _ _ => false
  | .blt _ _ _ => false
  | .bge _ _ _ => false
  | .bltu _ _ _ => false
  | .bgeu _ _ _ => false
  | .jal _ _ => true
  | .jalr _ _ _ => true
  | .lui _ _ => false
  | .auipc _ _ => false

/-- The same instruction with another destination register; stores and branches have none and are unchanged. -/
def Instr.withRd : Instr → Reg → Instr
  | .add _ rs1 rs2, d => .add d rs1 rs2
  | .sub _ rs1 rs2, d => .sub d rs1 rs2
  | .slt _ rs1 rs2, d => .slt d rs1 rs2
  | .sltu _ rs1 rs2, d => .sltu d rs1 rs2
  | .and _ rs1 rs2, d => .and d rs1 rs2
  | .or _ rs1 rs2, d => .or d rs1 rs2
  | .xor _ rs1 rs2, d => .xor d rs1 rs2
  | .sll _ rs1 rs2, d => .sll d rs1 rs2
  | .srl _ rs1 rs2, d => .srl d rs1 rs2
  | .sra _ rs1 rs2, d => .sra d rs1 rs2
  | .addi _ rs1 imm, d => .addi d rs1 imm
  | .slti _ rs1 imm, d => .slti d rs1 imm
  | .sltiu _ rs1 imm, d => .sltiu d rs1 imm
  | .andi _ rs1 imm, d => .andi d rs1 imm
  | .ori _ rs1 imm, d => .ori d rs1 imm
  | .xori _ rs1 imm, d => .xori d rs1 imm
  | .slli _ rs1 shamt, d => .slli d rs1 shamt
  | .srli _ rs1 shamt, d => .srli d rs1 shamt
  | .srai _ rs1 shamt, d => .srai d rs1 shamt
  | .lb _ rs1 imm, d => .lb d rs1 imm
  | .lh _ rs1 imm, d => .lh d rs1 imm
  | .lw _ rs1 imm, d => .lw d rs1 imm
  | .lbu _ rs1 imm, d => .lbu d rs1 imm
  | .lhu _ rs1 imm, d => .lhu d rs1 imm
  | .sb rs1 rs2 imm, _ => .sb rs1 rs2 imm
  | .sh rs1 rs2 imm, _ => .sh rs1 rs2 imm
  | .sw rs1 rs2 imm, _ => .sw rs1 rs2 imm
  | .beq rs1 rs2 off, _ => .beq rs1 rs2 off
  | .bne rs1 rs2 off, _ => .bne rs1 rs2 off
  | .blt rs1 rs2 off, _ => .blt rs1 rs2 off
  | .bge rs1 rs2 off, _ => .bge rs1 rs2 off
  | .bltu rs1 rs2 off, _ => .bltu rs1 rs2 off
  | .bgeu rs1 rs2 off, _ => .bgeu rs1 rs2 off
  | .jal _ off, d => .jal d off
  | .jalr _ rs1 imm, d => .jalr d rs1 imm
  | .lui _ imm20, d => .lui d imm20
  | .auipc _ imm20, d => .auipc d imm20

end Sys2Proof
end

