-- ==== Sys2Proof/Decode.lean ====
section
/-! DEFINITION. Instruction encoding (`30_encoding.md`): the decoder from the opcode map of R84 to R92, the encoder from the formats of R72
to R77, and, written separately from both, the mask and match values of `spec/opcode_table.json`.
UNVERIFIED: five of the nine opcodes, six funct7 values and the two single bits of the B and J formats are not in the spec's source; the spec's rules
state them from general knowledge (decisions D1, D2, D3). Unsafe: a wrong value would misread a machine word (assumption log 7). -/

namespace Sys2Proof

/-! ### Fields (R71) and immediates (R78 to R83) -/

/-- `opcode` = inst[6:0] (R71). -/
def opcodeOf (w : Word) : BitVec 7 := w.extractLsb' 0 7
/-- `funct3` = inst[14:12] (R71). -/
def funct3Of (w : Word) : BitVec 3 := w.extractLsb' 12 3
/-- `funct7` = inst[31:25] (R71); for the shift-immediates the selector of R83. -/
def funct7Of (w : Word) : BitVec 7 := w.extractLsb' 25 7
/-- The register whose number a 5-bit field holds (R20). -/
def regOf (f : BitVec 5) : Reg := f.toFin
/-- `rd` = inst[11:7] (R71). -/
def rdOf (w : Word) : Reg := regOf (w.extractLsb' 7 5)
/-- `rs1` = inst[19:15] (R71). -/
def rs1Of (w : Word) : Reg := regOf (w.extractLsb' 15 5)
/-- `rs2` = inst[24:20] (R71). -/
def rs2Of (w : Word) : Reg := regOf (w.extractLsb' 20 5)
/-- `shamt` = inst[24:20] (R83). -/
def shamtOf (w : Word) : BitVec 5 := w.extractLsb' 20 5
/-- The I-type immediate field inst[31:20] (R73, R78). -/
def immIOf (w : Word) : BitVec 12 := w.extractLsb' 20 12
/-- The S-type immediate inst[31:25] ‖ inst[11:7] (R74, R79). -/
def immSOf (w : Word) : BitVec 12 := w.extractLsb' 25 7 ++ w.extractLsb' 7 5
/-- The B-type byte offset inst[31] ‖ inst[7] ‖ inst[30:25] ‖ inst[11:8] ‖ 0 (R75, R80; the placing of inst[31] and inst[7] is D3). -/
def immBOf (w : Word) : BitVec 13 :=
  w.extractLsb' 31 1 ++ w.extractLsb' 7 1 ++ w.extractLsb' 25 6 ++ w.extractLsb' 8 4 ++ 0#1
/-- The U-type field inst[31:12] (R76, R81). -/
def immUOf (w : Word) : BitVec 20 := w.extractLsb' 12 20
/-- The J-type byte offset inst[31] ‖ inst[19:12] ‖ inst[20] ‖ inst[30:21] ‖ 0 (R77, R82; the placing of inst[31] and inst[20] is D3). -/
def immJOf (w : Word) : BitVec 21 :=
  w.extractLsb' 31 1 ++ w.extractLsb' 12 8 ++ w.extractLsb' 20 1 ++ w.extractLsb' 21 10 ++ 0#1

/-! ### The decoder (R84 to R92, R95 to R97) -/

/-- Why a word or a run of bytes is no instruction. The machine reports every one of them as `IllegalInstruction(word)` (R97). -/
inductive DecodeError where
  /-- Fewer than the 4 bytes every instruction has (R70). Not raised by a step, which always fetches 4 bytes. -/
  | truncated
  /-- The opcode is none of the nine of R84 (R97 (c), (d); R96 for words whose low two bits are not 11). -/
  | unknownOpcode (opcode : BitVec 7)
  /-- `funct3` names no instruction of the opcode's group (R97 (b)). -/
  | unknownFunct3 (opcode : BitVec 7) (funct3 : BitVec 3)
  /-- inst[31:25] names no instruction of the group OP or no immediate shift (R97 (a)). -/
  | unknownFunct7 (opcode : BitVec 7) (funct3 : BitVec 3) (funct7 : BitVec 7)
  deriving DecidableEq, Repr

/-- Group OP, opcode 0110011, R-type (R85). -/
def decodeOp (w : Word) : Except DecodeError Instr :=
  match funct7Of w, funct3Of w with
  | 0b0000000#7, 0b000#3 => .ok (.add (rdOf w) (rs1Of w) (rs2Of w))
  | 0b0000000#7, 0b001#3 => .ok (.sll (rdOf w) (rs1Of w) (rs2Of w))
  | 0b0000000#7, 0b010#3 => .ok (.slt (rdOf w) (rs1Of w) (rs2Of w))
  | 0b0000000#7, 0b011#3 => .ok (.sltu (rdOf w) (rs1Of w) (rs2Of w))
  | 0b0000000#7, 0b100#3 => .ok (.xor (rdOf w) (rs1Of w) (rs2Of w))
  | 0b0000000#7, 0b101#3 => .ok (.srl (rdOf w) (rs1Of w) (rs2Of w))
  | 0b0000000#7, 0b110#3 => .ok (.or (rdOf w) (rs1Of w) (rs2Of w))
  | 0b0000000#7, 0b111#3 => .ok (.and (rdOf w) (rs1Of w) (rs2Of w))
  | 0b0100000#7, 0b000#3 => .ok (.sub (rdOf w) (rs1Of w) (rs2Of w))
  | 0b0100000#7, 0b101#3 => .ok (.sra (rdOf w) (rs1Of w) (rs2Of w))
  | f7, f3 => .error (.unknownFunct7 (opcodeOf w) f3 f7)

/-- The immediate shift with funct3 = 001: SLLI requires inst[31:25] = 0000000 (R83, R86). -/
def decodeShiftLeftImm (w : Word) : Except DecodeError Instr :=
  match funct7Of w with
  | 0b0000000#7 => .ok (.slli (rdOf w) (rs1Of w) (shamtOf w))
  | f7 => .error (.unknownFunct7 (opcodeOf w) (funct3Of w) f7)

/-- The immediate shifts with funct3 = 101: SRLI and SRAI by inst[31:25] (R83, R86). -/
def decodeShiftRightImm (w : Word) : Except DecodeError Instr :=
  match funct7Of w with
  | 0b0000000#7 => .ok (.srli (rdOf w) (rs1Of w) (shamtOf w))
  | 0b0100000#7 => .ok (.srai (rdOf w) (rs1Of w) (shamtOf w))
  | f7 => .error (.unknownFunct7 (opcodeOf w) (funct3Of w) f7)

/-- Group OP-IMM, opcode 0010011, I-type (R86): all eight funct3 values are used. -/
def decodeOpImm (w : Word) : Except DecodeError Instr :=
  match funct3Of w with
  | 0b000#3 => .ok (.addi (rdOf w) (rs1Of w) (immIOf w))
  | 0b001#3 => decodeShiftLeftImm w
  | 0b010#3 => .ok (.slti (rdOf w) (rs1Of w) (immIOf w))
  | 0b011#3 => .ok (.sltiu (rdOf w) (rs1Of w) (immIOf w))
  | 0b100#3 => .ok (.xori (rdOf w) (rs1Of w) (immIOf w))
  | 0b101#3 => decodeShiftRightImm w
  | 0b110#3 => .ok (.ori (rdOf w) (rs1Of w) (immIOf w))
  | 0b111#3 => .ok (.andi (rdOf w) (rs1Of w) (immIOf w))

/-- Group LOAD, opcode 0000011, I-type (R87). -/
def decodeLoad (w : Word) : Except DecodeError Instr :=
  match funct3Of w with
  | 0b000#3 => .ok (.lb (rdOf w) (rs1Of w) (immIOf w))
  | 0b001#3 => .ok (.lh (rdOf w) (rs1Of w) (immIOf w))
  | 0b010#3 => .ok (.lw (rdOf w) (rs1Of w) (immIOf w))
  | 0b100#3 => .ok (.lbu (rdOf w) (rs1Of w) (immIOf w))
  | 0b101#3 => .ok (.lhu (rdOf w) (rs1Of w) (immIOf w))
  | f3 => .error (.unknownFunct3 (opcodeOf w) f3)

/-- Group STORE, opcode 0100011, S-type (R88). -/
def decodeStore (w : Word) : Except DecodeError Instr :=
  match funct3Of w with
  | 0b000#3 => .ok (.sb (rs1Of w) (rs2Of w) (immSOf w))
  | 0b001#3 => .ok (.sh (rs1Of w) (rs2Of w) (immSOf w))
  | 0b010#3 => .ok (.sw (rs1Of w) (rs2Of w) (immSOf w))
  | f3 => .error (.unknownFunct3 (opcodeOf w) f3)

/-- Group BRANCH, opcode 1100011, B-type (R89). -/
def decodeBranch (w : Word) : Except DecodeError Instr :=
  match funct3Of w with
  | 0b000#3 => .ok (.beq (rs1Of w) (rs2Of w) (immBOf w))
  | 0b001#3 => .ok (.bne (rs1Of w) (rs2Of w) (immBOf w))
  | 0b100#3 => .ok (.blt (rs1Of w) (rs2Of w) (immBOf w))
  | 0b101#3 => .ok (.bge (rs1Of w) (rs2Of w) (immBOf w))
  | 0b110#3 => .ok (.bltu (rs1Of w) (rs2Of w) (immBOf w))
  | 0b111#3 => .ok (.bgeu (rs1Of w) (rs2Of w) (immBOf w))
  | f3 => .error (.unknownFunct3 (opcodeOf w) f3)

/-- JALR, opcode 1100111, I-type, funct3 = 000 (R90). -/
def decodeJalr (w : Word) : Except DecodeError Instr :=
  match funct3Of w with
  | 0b000#3 => .ok (.jalr (rdOf w) (rs1Of w) (immIOf w))
  | f3 => .error (.unknownFunct3 (opcodeOf w) f3)

/-- `Decode(inst)` (R95): total on all 2^32 words; a word of no row of R85 to R92 is refused by name (R97). The opcodes are those of R84. -/
def decode (w : Word) : Except DecodeError Instr :=
  match opcodeOf w with
  | 0b0110011#7 => decodeOp w
  | 0b0010011#7 => decodeOpImm w
  | 0b0000011#7 => decodeLoad w
  | 0b0100011#7 => decodeStore w
  | 0b1100011#7 => decodeBranch w
  | 0b1101111#7 => .ok (.jal (rdOf w) (immJOf w))
  | 0b1100111#7 => decodeJalr w
  | 0b0110111#7 => .ok (.lui (rdOf w) (immUOf w))
  | 0b0010111#7 => .ok (.auipc (rdOf w) (immUOf w))
  | op => .error (.unknownOpcode op)

/-- The word whose four bytes lie at rising addresses, the first at the lowest: bits 7..0 from the first (R43). -/
def wordOfBytes (b0 b1 b2 b3 : Byte) : Word := b3 ++ b2 ++ b1 ++ b0

/-- Decodes the instruction at the head of a run of bytes, and gives the bytes after it: every instruction is 4 bytes (R70), in
little-endian order (R43). Total on any bytes. -/
def decodeBytes : List Byte → Except DecodeError (Instr × List Byte)
  | b0 :: b1 :: b2 :: b3 :: rest => (decode (wordOfBytes b0 b1 b2 b3)).map (fun i => (i, rest))
  | _ => .error .truncated

/-! ### The encoder (R72 to R92) -/

/-- The 5-bit field that holds a register's number (R20). -/
def regField (r : Reg) : BitVec 5 := BitVec.ofFin r

/-- R-type (R72). -/
def encodeR (f7 : BitVec 7) (rs2 rs1 : Reg) (f3 : BitVec 3) (rd : Reg) (op : BitVec 7) : Word :=
  f7 ++ regField rs2 ++ regField rs1 ++ f3 ++ regField rd ++ op
/-- I-type (R73). -/
def encodeI (imm : BitVec 12) (rs1 : Reg) (f3 : BitVec 3) (rd : Reg) (op : BitVec 7) : Word :=
  imm ++ regField rs1 ++ f3 ++ regField rd ++ op
/-- I-type with the immediate split into the selector inst[31:25] and the shift amount inst[24:20] (R83). -/
def encodeShift (f7 : BitVec 7) (shamt : BitVec 5) (rs1 : Reg) (f3 : BitVec 3) (rd : Reg) (op : BitVec 7) : Word :=
  f7 ++ shamt ++ regField rs1 ++ f3 ++ regField rd ++ op
/-- S-type (R74). -/
def encodeS (imm : BitVec 12) (rs2 rs1 : Reg) (f3 : BitVec 3) (op : BitVec 7) : Word :=
  imm.extractLsb' 5 7 ++ regField rs2 ++ regField rs1 ++ f3 ++ imm.extractLsb' 0 5 ++ op
/-- B-type (R75): bit 0 of the offset is not stored. -/
def encodeB (off : BitVec 13) (rs2 rs1 : Reg) (f3 : BitVec 3) (op : BitVec 7) : Word :=
  off.extractLsb' 12 1 ++ off.extractLsb' 5 6 ++ regField rs2 ++ regField rs1 ++ f3
    ++ off.extractLsb' 1 4 ++ off.extractLsb' 11 1 ++ op
/-- U-type (R76). -/
def encodeU (imm20 : BitVec 20) (rd : Reg) (op : BitVec 7) : Word := imm20 ++ regField rd ++ op
/-- J-type (R77): bit 0 of the offset is not stored. -/
def encodeJ (off : BitVec 21) (rd : Reg) (op : BitVec 7) : Word :=
  off.extractLsb' 20 1 ++ off.extractLsb' 1 10 ++ off.extractLsb' 11 1 ++ off.extractLsb' 12 8 ++ regField rd ++ op

/-- The word of an instruction (R72 to R92). It is meant for well-formed instructions: the formats have no place for bit 0 of a branch or
JAL offset. -/
def encode : Instr → Word
  | .add rd rs1 rs2 => encodeR 0b0000000#7 rs2 rs1 0b000#3 rd 0b0110011#7
  | .sub rd rs1 rs2 => encodeR 0b0100000#7 rs2 rs1 0b000#3 rd 0b0110011#7
  | .slt rd rs1 rs2 => encodeR 0b0000000#7 rs2 rs1 0b010#3 rd 0b0110011#7
  | .sltu rd rs1 rs2 => encodeR 0b0000000#7 rs2 rs1 0b011#3 rd 0b0110011#7
  | .and rd rs1 rs2 => encodeR 0b0000000#7 rs2 rs1 0b111#3 rd 0b0110011#7
  | .or rd rs1 rs2 => encodeR 0b0000000#7 rs2 rs1 0b110#3 rd 0b0110011#7
  | .xor rd rs1 rs2 => encodeR 0b0000000#7 rs2 rs1 0b100#3 rd 0b0110011#7
  | .sll rd rs1 rs2 => encodeR 0b0000000#7 rs2 rs1 0b001#3 rd 0b0110011#7
  | .srl rd rs1 rs2 => encodeR 0b0000000#7 rs2 rs1 0b101#3 rd 0b0110011#7
  | .sra rd rs1 rs2 => encodeR 0b0100000#7 rs2 rs1 0b101#3 rd 0b0110011#7
  | .addi rd rs1 imm => encodeI imm rs1 0b000#3 rd 0b0010011#7
  | .slti rd rs1 imm => encodeI imm rs1 0b010#3 rd 0b0010011#7
  | .sltiu rd rs1 imm => encodeI imm rs1 0b011#3 rd 0b0010011#7
  | .andi rd rs1 imm => encodeI imm rs1 0b111#3 rd 0b0010011#7
  | .ori rd rs1 imm => encodeI imm rs1 0b110#3 rd 0b0010011#7
  | .xori rd rs1 imm => encodeI imm rs1 0b100#3 rd 0b0010011#7
  | .slli rd rs1 shamt => encodeShift 0b0000000#7 shamt rs1 0b001#3 rd 0b0010011#7
  | .srli rd rs1 shamt => encodeShift 0b0000000#7 shamt rs1 0b101#3 rd 0b0010011#7
  | .srai rd rs1 shamt => encodeShift 0b0100000#7 shamt rs1 0b101#3 rd 0b0010011#7
  | .lb rd rs1 imm => encodeI imm rs1 0b000#3 rd 0b0000011#7
  | .lh rd rs1 imm => encodeI imm rs1 0b001#3 rd 0b0000011#7
  | .lw rd rs1 imm => encodeI imm rs1 0b010#3 rd 0b0000011#7
  | .lbu rd rs1 imm => encodeI imm rs1 0b100#3 rd 0b0000011#7
  | .lhu rd rs1 imm => encodeI imm rs1 0b101#3 rd 0b0000011#7
  | .sb rs1 rs2 imm => encodeS imm rs2 rs1 0b000#3 0b0100011#7
  | .sh rs1 rs2 imm => encodeS imm rs2 rs1 0b001#3 0b0100011#7
  | .sw rs1 rs2 imm => encodeS imm rs2 rs1 0b010#3 0b0100011#7
  | .beq rs1 rs2 off => encodeB off rs2 rs1 0b000#3 0b1100011#7
  | .bne rs1 rs2 off => encodeB off rs2 rs1 0b001#3 0b1100011#7
  | .blt rs1 rs2 off => encodeB off rs2 rs1 0b100#3 0b1100011#7
  | .bge rs1 rs2 off => encodeB off rs2 rs1 0b101#3 0b1100011#7
  | .bltu rs1 rs2 off => encodeB off rs2 rs1 0b110#3 0b1100011#7
  | .bgeu rs1 rs2 off => encodeB off rs2 rs1 0b111#3 0b1100011#7
  | .jal rd off => encodeJ off rd 0b1101111#7
  | .jalr rd rs1 imm => encodeI imm rs1 0b000#3 rd 0b1100111#7
  | .lui rd imm20 => encodeU imm20 rd 0b0110111#7
  | .auipc rd imm20 => encodeU imm20 rd 0b0010111#7

/-- The four bytes of a word, the first for the lowest address (R43). -/
def bytesOfWord (w : Word) : List Byte :=
  [w.extractLsb' 0 8, w.extractLsb' 8 8, w.extractLsb' 16 8, w.extractLsb' 24 8]

/-- The bytes of an instruction as they lie in memory (R43, R70). -/
def encodeBytes (i : Instr) : List Byte := bytesOfWord (encode i)

/-! ### The opcode table (`spec/opcode_table.json`; R85 to R92 and R95) -/

/-- One row: a word w is an instance of the row when w AND mask = pattern (R95). -/
structure Row where
  mnemonic : String
  mask     : Word
  pattern  : Word
  deriving DecidableEq, Repr

/-- The row's test of R95. -/
def Row.matchesWord (r : Row) (w : Word) : Bool := w &&& r.mask == r.pattern

/-- Rows of OP (R85). -/
def opRows : List Row := [
  ⟨"ADD", 0xFE00707F#32, 0x00000033#32⟩,
  ⟨"SUB", 0xFE00707F#32, 0x40000033#32⟩,
  ⟨"SLT", 0xFE00707F#32, 0x00002033#32⟩,
  ⟨"SLTU", 0xFE00707F#32, 0x00003033#32⟩,
  ⟨"AND", 0xFE00707F#32, 0x00007033#32⟩,
  ⟨"OR", 0xFE00707F#32, 0x00006033#32⟩,
  ⟨"XOR", 0xFE00707F#32, 0x00004033#32⟩,
  ⟨"SLL", 0xFE00707F#32, 0x00001033#32⟩,
  ⟨"SRL", 0xFE00707F#32, 0x00005033#32⟩,
  ⟨"SRA", 0xFE00707F#32, 0x40005033#32⟩]

/-- Rows of OP-IMM (R86). -/
def opImmRows : List Row := [
  ⟨"ADDI", 0x0000707F#32, 0x00000013#32⟩,
  ⟨"SLTI", 0x0000707F#32, 0x00002013#32⟩,
  ⟨"SLTIU", 0x0000707F#32, 0x00003013#32⟩,
  ⟨"ANDI", 0x0000707F#32, 0x00007013#32⟩,
  ⟨"ORI", 0x0000707F#32, 0x00006013#32⟩,
  ⟨"XORI", 0x0000707F#32, 0x00004013#32⟩,
  ⟨"SLLI", 0xFE00707F#32, 0x00001013#32⟩,
  ⟨"SRLI", 0xFE00707F#32, 0x00005013#32⟩,
  ⟨"SRAI", 0xFE00707F#32, 0x40005013#32⟩]

/-- Rows of LOAD and STORE (R87, R88). -/
def memoryRows : List Row := [
  ⟨"LB", 0x0000707F#32, 0x00000003#32⟩,
  ⟨"LH", 0x0000707F#32, 0x00001003#32⟩,
  ⟨"LW", 0x0000707F#32, 0x00002003#32⟩,
  ⟨"LBU", 0x0000707F#32, 0x00004003#32⟩,
  ⟨"LHU", 0x0000707F#32, 0x00005003#32⟩,
  ⟨"SB", 0x0000707F#32, 0x00000023#32⟩,
  ⟨"SH", 0x0000707F#32, 0x00001023#32⟩,
  ⟨"SW", 0x0000707F#32, 0x00002023#32⟩]

/-- Rows of BRANCH, JAL and JALR (R89 to R91). -/
def controlRows : List Row := [
  ⟨"BEQ", 0x0000707F#32, 0x00000063#32⟩,
  ⟨"BNE", 0x0000707F#32, 0x00001063#32⟩,
  ⟨"BLT", 0x0000707F#32, 0x00004063#32⟩,
  ⟨"BGE", 0x0000707F#32, 0x00005063#32⟩,
  ⟨"BLTU", 0x0000707F#32, 0x00006063#32⟩,
  ⟨"BGEU", 0x0000707F#32, 0x00007063#32⟩,
  ⟨"JAL", 0x0000007F#32, 0x0000006F#32⟩,
  ⟨"JALR", 0x0000707F#32, 0x00000067#32⟩]

/-- Rows of LUI and AUIPC (R92). -/
def upperRows : List Row := [
  ⟨"LUI", 0x0000007F#32, 0x00000037#32⟩,
  ⟨"AUIPC", 0x0000007F#32, 0x00000017#32⟩]

/-- The whole table, 37 rows. -/
def opcodeTable : List Row := opRows ++ opImmRows ++ memoryRows ++ controlRows ++ upperRows

/-- The instruction the decoder reads from an instruction whose bits are `w`, numbered as `spec/opcode_table.json` numbers them; every bit
from `nbits` up is 0. The word is laid out as its four bytes in memory (R43) and given to `decodeBytes`. -/
def decodeTableWord (nbits w : Nat) : Option Instr :=
  match decodeBytes (bytesOfWord (BitVec.ofNat 32 (w % 2 ^ nbits))) with
  | .ok (i, _) => some i
  | .error _ => none

end Sys2Proof
end

