-- ==== Sys2Proof/Machine/Fetch.lean ====
section
/-! DEFINITION. Steps 1 to 3 of `00_scope.md` R10: the alignment of pc, `FetchWord` (`20_memory.md` R50), `Decode` (`30_encoding.md` R95). -/

namespace Sys2Proof.Machine

/-- `FetchWord(a)` (R50): every byte must admit fetch; the word is little-endian (R43). -/
def fetchWord (s : State) (a : Word) : Except Fault Word :=
  if s.cfg.allAccessible .fetch a.toNat 4 then .ok (s.mem.read32 a.toNat) else .error (.fetchAccessFault a)

/-- The instruction at pc, or the fault of steps 1 to 3 in the order of `60_exceptions.md` R204: misaligned pc, fetch access, illegal word. -/
def fetchInstr (s : State) : Except Fault Instr :=
  if s.pc.extractLsb' 0 2 ≠ 0#2 then .error (.instrAddrMisaligned s.pc)
  else
    match fetchWord s s.pc with
    | .error f => .error f
    | .ok w =>
      match decode w with
      | .error _ => .error (.illegalInstruction w)
      | .ok i => .ok i

/-- The configuration with the four bytes at `a` made fetchable, if they are not yet. Used by `State.withFetchWord` alone. -/
def admitFetch (c : Config) (a : Nat) : Config :=
  if c.allAccessible .fetch a 4 then c else { c with access := ⟨.fetch, a, a + 3⟩ :: c.access }

end Sys2Proof.Machine
end

