-- ==== Sys2Proof/Machine/Step.lean ====
section
/-! DEFINITION. The step (`00_scope.md` R10) and the placing of one instruction where the next step fetches it. -/

namespace Sys2Proof.Machine

/-- One step (R10): fetch and decode at pc, then execute. `HALT_PC` takes no part in it (`70_reset_and_hazards.md` R246: the chip does not stop
there); `runToHalt` of `Machine/Run.lean` does. -/
def step (s : State) : Host.Outcome State Fault Refusal :=
  match fetchInstr s with
  | .error f => .fault f
  | .ok i => exec i s

/-- `s` with the instruction whose bits are `w` (every bit from `nbits` up 0) in the four bytes at pc, which are made fetchable if they are not.
It stands for the loading of a program from outside the machine (`10_state.md` R33, assumption log 18). -/
def State.withFetchWord (s : State) (nbits w : Nat) : State :=
  { s with
    mem := s.mem.write32 s.pc.toNat (BitVec.ofNat 32 (w % 2 ^ nbits))
    cfg := admitFetch s.cfg s.pc.toNat }

end Sys2Proof.Machine
end

