-- ==== Sys2Proof/Machine/Assembler.lean ====
section
/-! DEFINITION. The assembler syntax of `30_encoding.md` R100, R101, R102, R104 as a total function from lines of text to instructions, and the
memory image of a program (`10_state.md` R33). A line that the syntax or the operand ranges do not admit is refused (none); so is a line the formats
cannot hold, such as the source's `sltiu x9, x10, 0x80000000` (`90_conflicts.md` C3). UNVERIFIED, being the spec's own conventions: `name:` declares a
label, `nop` is `addi x0, x0, 0`, numeric branch operands are byte offsets. DESIGN CHOICE (assumption log 24), the spec being silent: refusing what is
out of range, a label declared twice (its first declaration counts), a label declared nowhere (the line is refused), an ill-formed label declaration (it is kept). -/

namespace Sys2Proof.Machine

/-- The value of a digit of a base, if the character is one. -/
def digitValue (base : Nat) (c : Char) : Option Nat :=
  let v :=
    if '0' ≤ c ∧ c ≤ '9' then c.toNat - '0'.toNat
    else if 'a' ≤ c ∧ c ≤ 'f' then c.toNat - 'a'.toNat + 10
    else if 'A' ≤ c ∧ c ≤ 'F' then c.toNat - 'A'.toNat + 10
    else base
  if v < base then some v else none

/-- The value of a run of digits read after `acc`. -/
def digitsFrom (base : Nat) : List Char → Nat → Option Nat
  | [], acc => some acc
  | c :: cs, acc => (digitValue base c).bind (fun d => digitsFrom base cs (base * acc + d))

/-- A number of at least one digit. -/
def parseNat (base : Nat) (cs : List Char) : Option Nat :=
  if cs.isEmpty then none else digitsFrom base cs 0

/-- An immediate (R100): decimal, with a leading `-` if negative, or hexadecimal with the prefix `0x`. -/
def parseInt : List Char → Option Int
  | '-' :: cs => (parseNat 10 cs).map (fun n => -(n : Int))
  | '0' :: 'x' :: cs => (parseNat 16 cs).map (fun n => (n : Int))
  | cs => (parseNat 10 cs).map (fun n => (n : Int))

/-- A register operand as it is written: `x0` to `x31` (R100). -/
def regName (r : Reg) : List Char := 'x' :: Nat.toDigits 10 r.val

/-- The register an operand names, if it names one (R100). -/
def parseReg (cs : List Char) : Option Reg :=
  (List.finRange 32).find? (fun r => cs == regName r)

/-- White space within a line. -/
def isBlank (c : Char) : Bool := c == ' ' || c == '\t'

/-- A run of characters without the white space at its ends. -/
def trimBlanks (cs : List Char) : List Char :=
  ((cs.dropWhile isBlank).reverse.dropWhile isBlank).reverse

/-- The pieces between commas, trimmed. -/
def splitCommas : List Char → List Char → List (List Char)
  | [], acc => [trimBlanks acc.reverse]
  | c :: cs, acc => if c == ',' then trimBlanks acc.reverse :: splitCommas cs [] else splitCommas cs (c :: acc)

/-- A signed 12-bit immediate, -2048 to 2047 (R101). -/
def imm12 (v : Int) : Option (BitVec 12) := if -2048 ≤ v ∧ v ≤ 2047 then some (BitVec.ofInt 12 v) else none

/-- A shift amount, 0 to 31 (R101). -/
def shamt5 (v : Int) : Option (BitVec 5) := if 0 ≤ v ∧ v ≤ 31 then some (BitVec.ofInt 5 v) else none

/-- The 20-bit operand of LUI and AUIPC, 0 to 0xFFFFF: the field inst[31:12], not the shifted value (R101). -/
def imm20 (v : Int) : Option (BitVec 20) := if 0 ≤ v ∧ v ≤ 0xFFFFF then some (BitVec.ofInt 20 v) else none

/-- The byte offset of a branch: even, -4096 to 4094 (`30_encoding.md` R80). -/
def offset13 (v : Int) : Option (BitVec 13) :=
  if -4096 ≤ v ∧ v ≤ 4094 ∧ v % 2 = 0 then some (BitVec.ofInt 13 v) else none

/-- The byte offset of JAL: even, -1048576 to 1048574 (`30_encoding.md` R82). -/
def offset21 (v : Int) : Option (BitVec 21) :=
  if -1048576 ≤ v ∧ v ≤ 1048574 ∧ v % 2 = 0 then some (BitVec.ofInt 21 v) else none

/-- The addresses of the labels of a program, in the order of their declarations. DESIGN CHOICE (assumption log 24): a name declared twice stands for its first
declaration, which `List.lookup` finds; R102 is silent on it. -/
abbrev Labels := List (List Char × Word)

/-- The last operand of a branch or JAL (R102): a label, which stands for its address minus the address of this instruction; or a number, with a
leading `+` allowed, which is the byte offset itself. DESIGN CHOICE (assumption log 24): a label declared nowhere is refused; of two declarations the first counts. -/
def parseTarget (labels : Labels) (here : Word) (cs : List Char) : Option Int :=
  match cs with
  | '+' :: ds => (parseNat 10 ds).map (fun n => (n : Int))
  | _ =>
    match parseInt cs with
    | some v => some v
    | none => (labels.lookup cs).map (fun a => (a - here).toInt)

/-- A memory operand `imm(rs1)` (R101). -/
def parseMem (cs : List Char) : Option (BitVec 12 × Reg) :=
  match (cs.dropWhile (· != '(')).reverse with
  | ')' :: inner => do
    let imm ← (parseInt (trimBlanks (cs.takeWhile (· != '(')))).bind imm12
    let rs1 ← parseReg (trimBlanks (inner.reverse.drop 1))
    pure (imm, rs1)
  | _ => none

/-- `op rd, rs1, rs2` (R101). -/
def asmR (mk : Reg → Reg → Reg → Instr) : List (List Char) → Option Instr
  | [d, a, b] => do pure (mk (← parseReg d) (← parseReg a) (← parseReg b))
  | _ => none

/-- `op rd, rs1, imm` (R101). -/
def asmI (mk : Reg → Reg → BitVec 12 → Instr) : List (List Char) → Option Instr
  | [d, a, v] => do pure (mk (← parseReg d) (← parseReg a) (← (parseInt v).bind imm12))
  | _ => none

/-- `op rd, rs1, shamt` (R101). -/
def asmShift (mk : Reg → Reg → BitVec 5 → Instr) : List (List Char) → Option Instr
  | [d, a, v] => do pure (mk (← parseReg d) (← parseReg a) (← (parseInt v).bind shamt5))
  | _ => none

/-- `op rd, imm(rs1)`: loads and JALR (R101). -/
def asmLoad (mk : Reg → Reg → BitVec 12 → Instr) : List (List Char) → Option Instr
  | [d, m] => do
    let (imm, rs1) ← parseMem m
    pure (mk (← parseReg d) rs1 imm)
  | _ => none

/-- `op rs2, imm(rs1)`: the data register first (R101). -/
def asmStore (mk : Reg → Reg → BitVec 12 → Instr) : List (List Char) → Option Instr
  | [v, m] => do
    let (imm, rs1) ← parseMem m
    pure (mk rs1 (← parseReg v) imm)
  | _ => none

/-- `op rs1, rs2, label` (R101). -/
def asmBranch (labels : Labels) (here : Word) (mk : Reg → Reg → BitVec 13 → Instr) : List (List Char) → Option Instr
  | [a, b, t] => do pure (mk (← parseReg a) (← parseReg b) (← (parseTarget labels here t).bind offset13))
  | _ => none

/-- `jal rd, label` (R101). -/
def asmJal (labels : Labels) (here : Word) : List (List Char) → Option Instr
  | [d, t] => do pure (.jal (← parseReg d) (← (parseTarget labels here t).bind offset21))
  | _ => none

/-- `op rd, imm20` (R101). -/
def asmU (mk : Reg → BitVec 20 → Instr) : List (List Char) → Option Instr
  | [d, v] => do pure (mk (← parseReg d) (← (parseInt v).bind imm20))
  | _ => none

/-- One instruction from its mnemonic in lower case and its operands (R101, R104). -/
def asmInstr (labels : Labels) (here : Word) (op : String) (args : List (List Char)) : Option Instr :=
  match op with
  | "add" => asmR .add args
  | "sub" => asmR .sub args
  | "slt" => asmR .slt args
  | "sltu" => asmR .sltu args
  | "and" => asmR .and args
  | "or" => asmR .or args
  | "xor" => asmR .xor args
  | "sll" => asmR .sll args
  | "srl" => asmR .srl args
  | "sra" => asmR .sra args
  | "addi" => asmI .addi args
  | "slti" => asmI .slti args
  | "sltiu" => asmI .sltiu args
  | "andi" => asmI .andi args
  | "ori" => asmI .ori args
  | "xori" => asmI .xori args
  | "slli" => asmShift .slli args
  | "srli" => asmShift .srli args
  | "srai" => asmShift .srai args
  | "lb" => asmLoad .lb args
  | "lh" => asmLoad .lh args
  | "lw" => asmLoad .lw args
  | "lbu" => asmLoad .lbu args
  | "lhu" => asmLoad .lhu args
  | "sb" => asmStore .sb args
  | "sh" => asmStore .sh args
  | "sw" => asmStore .sw args
  | "beq" => asmBranch labels here .beq args
  | "bne" => asmBranch labels here .bne args
  | "blt" => asmBranch labels here .blt args
  | "bge" => asmBranch labels here .bge args
  | "bltu" => asmBranch labels here .bltu args
  | "bgeu" => asmBranch labels here .bgeu args
  | "jal" => asmJal labels here args
  | "jalr" => asmLoad .jalr args
  | "lui" => asmU .lui args
  | "auipc" => asmU .auipc args
  | "nop" => if args == [[]] then some (.addi 0 0 0) else none
  | _ => none

/-- The part of a line before its comment (R100), trimmed. -/
def stripComment (line : String) : List Char := trimBlanks (line.toList.takeWhile (· != '#'))

/-- The label a line declares, if it declares one (R102), and the instruction text after it. DESIGN CHOICE (assumption log 24): whatever text stands before the
first `:`, trimmed, is taken as the label and never refused, also where it is no `isLabelName` (empty, with blanks inside, a number, with a leading `+`). -/
def splitLabel (cs : List Char) : Option (List Char) × List Char :=
  if cs.contains ':' then
    (some (trimBlanks (cs.takeWhile (· != ':'))), trimBlanks ((cs.dropWhile (· != ':')).drop 1))
  else (none, cs)

/-- The instruction text of a line: mnemonic, white space, operands separated by commas (R100). The tables write mnemonics in upper case and the
examples in lower case: they are the same instruction. -/
def asmText (labels : Labels) (here : Word) (cs : List Char) : Option Instr :=
  asmInstr labels here (String.ofList ((cs.takeWhile (fun c => !isBlank c)).map Char.toLower))
    (splitCommas (cs.dropWhile (fun c => !isBlank c)) [])

/-- One line that holds an instruction at the address `here` (R100, R101, R102). -/
def assembleLine (labels : Labels) (here : Word) (line : String) : Option Instr :=
  asmText labels here (splitLabel (stripComment line)).2

/-- A line in the form of R100: a mnemonic, white space, operands separated by commas. -/
def asmLine (op : String) (args : List (List Char)) : String :=
  String.ofList (op.toList ++ ' ' :: List.intercalate [',', ' '] args)

/-- A character that no part of the syntax takes for its own: not white space, a comma, the mark of a label or of a comment (R100, R102). -/
def isPlain (c : Char) : Bool := !isBlank c && c != ',' && c != ':' && c != '#'

/-- A name that a label operand is sure to reach (R102; `parseTarget_label`): not empty, of plain characters, and not to be read as a number, which is an offset itself. -/
def isLabelName (name : List Char) : Bool :=
  !name.isEmpty && name.all isPlain && (parseInt name).isNone && name.head? != some '+'

/-- The labels of a program whose first instruction lies at `here`: a label names the next instruction, and every instruction is 4 bytes (R70).
DESIGN CHOICE (assumption log 24): a name declared twice is not refused; both entries are kept and the first is the one looked up;
an ill-formed name is kept as well (`splitLabel`). -/
def collectLabels : Word → List String → Labels
  | _, [] => []
  | here, l :: ls =>
    let p := splitLabel (stripComment l)
    let rest := collectLabels (if p.2.isEmpty then here else here + 4#32) ls
    match p.1 with
    | some n => (n, here) :: rest
    | none => rest

/-- The instructions of the lines of a program, in order; lines without an instruction give none. -/
def assembleLines (labels : Labels) : Word → List String → Option (List Instr)
  | _, [] => some []
  | here, l :: ls =>
    if (splitLabel (stripComment l)).2.isEmpty then assembleLines labels here ls
    else do
      let i ← assembleLine labels here l
      let is ← assembleLines labels (here + 4#32) ls
      pure (i :: is)

/-- A program text at the address `base` as instructions. -/
def assemble (base : Word) (lines : List String) : Option (List Instr) :=
  assembleLines (collectLabels base lines) base lines

/-- The program's words laid into memory from the address `a` up, little-endian (`20_memory.md` R43): what `INIT_MEM` holds of it. DESIGN CHOICE
(assumption log 24): the addresses are not taken modulo 2^32; no load, store or fetch reaches a byte past 0xFFFFFFFF. -/
def loadImage (m : Memory) (a : Nat) : List Instr → Memory
  | [] => m
  | i :: is => loadImage (m.write32 a (encode i)) (a + 4) is

end Sys2Proof.Machine
end

