-- ==== Sys2Proof/Machine/Run.lean ====
section
/-! DEFINITION. Runs (`70_reset_and_hazards.md` R246, `60_exceptions.md` R205): steps taken one after the other until pc reaches `HALT_PC`, or a
fault. -/

namespace Sys2Proof.Machine

/-- `pc` = `HALT_PC` before a step: the run has ended normally (R246). -/
def State.halted (s : State) : Bool := s.cfg.haltPc == some s.pc

/-- How a bounded run stands. -/
inductive RunEnd where
  /-- The run ended normally in this final state (R246). -/
  | ended (s : State)
  /-- A step from this state faulted; the state is as it was before the faulting instruction (R205). -/
  | faulted (f : Fault) (s : State)
  /-- A step from this state met an instruction without a meaning; there is none. -/
  | refused (r : Refusal) (s : State)
  /-- The bound on the number of steps was reached. -/
  | running (s : State)
  deriving DecidableEq, Repr

/-- At most `n` steps. No step is taken from `HALT_PC` (R246) and none after a fault (R205). -/
def runToHalt : Nat → State → RunEnd
  | 0, s => if s.halted then .ended s else .running s
  | n + 1, s =>
    if s.halted then .ended s
    else
      match step s with
      | .next t => runToHalt n t
      | .fault f => .faulted f s
      | .refused r => .refused r s

end Sys2Proof.Machine
end

