-- ==== Sys2Proof/Safety.lean ====
section
/-! DEFINITION. The terms claims are stated in: what an instruction may have done to a state, when an access is allowed, which states a run
reaches, which states are good, what a safe run is. Addresses are natural numbers; a state's memory is read byte by byte (`State.byteAt`). -/

namespace Sys2Proof.Machine

/-- `t` is `s` after an instruction whose only effects are `x[rd] <- v`, dropped when rd is x0 (`10_state.md` R21), and `pc <- p`: every other register,
every byte of memory and the configuration are as before. -/
structure WroteReg (s t : State) (rd : Reg) (v p : Word) : Prop where
  regs : ∀ r, t.readReg r = if r = rd ∧ r ≠ 0 then v else s.readReg r
  pc   : t.pc = p
  mem  : ∀ a, t.byteAt a = s.byteAt a
  cfg  : t.cfg = s.cfg

/-- `t` is `s` after an instruction whose only effect is `pc <- p`. -/
structure OnlyMovedPc (s t : State) (p : Word) : Prop where
  regs : ∀ r, t.readReg r = s.readReg r
  pc   : t.pc = p
  mem  : ∀ a, t.byteAt a = s.byteAt a
  cfg  : t.cfg = s.cfg

/-- `t` is `s` after an instruction whose only effects are that the bytes `bs` lie at the address `a` and up, and `pc <- pc + 4`: every byte of memory
outside them, every register and the configuration are as before. -/
structure StoredBytes (s t : State) (a : Nat) (bs : List Byte) : Prop where
  stored  : ∀ k, ∀ h : k < bs.length, t.byteAt (a + k) = bs[k]
  outside : ∀ b, b < a ∨ a + bs.length ≤ b → t.byteAt b = s.byteAt b
  regs    : ∀ r, t.readReg r = s.readReg r
  pc      : t.pc = s.pc + 4
  cfg     : t.cfg = s.cfg

/-- The instruction completes, writing `v` to rd and going on to pc + 4, with no other effect. -/
def WritesResult (i : Instr) (s : State) (rd : Reg) (v : Word) : Prop :=
  ∃ t, exec i s = .next t ∧ WroteReg s t rd v (s.pc + 4)

/-- The line "Encoding" of an instruction's rule: the instruction's word matches the row, and it is the instruction the word decodes to. -/
def EncodedBy (i : Instr) (mask pattern : Word) : Prop :=
  encode i &&& mask = pattern ∧ decode (encode i) = .ok i

/-- The access of `n` bytes at `a` is misaligned and the configuration refuses misaligned accesses (`20_memory.md` R45). -/
def RefusedMisaligned (s : State) (a : Word) (n : Nat) : Prop :=
  a.toNat % n ≠ 0 ∧ s.cfg.misaligned = .refuse

/-- The access of `n` bytes at `a` runs past 0xFFFFFFFF, or one of its bytes does not admit accesses of kind `k` (`20_memory.md` R46, R47). -/
def Inaccessible (s : State) (k : AccessKind) (a : Word) (n : Nat) : Prop :=
  2 ^ 32 < a.toNat + n ∨ ∃ j, j < n ∧ s.cfg.accessible k (a.toNat + j) = false

/-- A byte of the access of `n` bytes at `a` can be fetched (`20_memory.md` R55). -/
def TouchesCode (s : State) (a : Word) (n : Nat) : Prop :=
  ∃ j, j < n ∧ s.cfg.accessible .fetch (a.toNat + j) = true

/-- `MemRead(a, n)` raises nothing (`20_memory.md` R48). -/
def LoadAllowed (s : State) (a : Word) (n : Nat) : Prop :=
  ¬ RefusedMisaligned s a n ∧ ¬ Inaccessible s .load a n

/-- `MemWrite(a, n, v)` raises nothing (`20_memory.md` R49). -/
def StoreAllowed (s : State) (a : Word) (n : Nat) : Prop :=
  ¬ RefusedMisaligned s a n ∧ ¬ Inaccessible s .store a n ∧ ¬ TouchesCode s a n

/-- The step at `s` fetches the word `w`: pc is a multiple of 4, its four bytes admit fetch and hold `w`, bits 7..0 at the lowest address
(`00_scope.md` R10, `20_memory.md` R43, R50). -/
def Fetches (s : State) (w : Word) : Prop :=
  s.pc.toNat % 4 = 0 ∧ (∀ j, j < 4 → s.cfg.accessible .fetch (s.pc.toNat + j) = true) ∧
  w.toNat = (s.byteAt s.pc.toNat).toNat + 2 ^ 8 * (s.byteAt (s.pc.toNat + 1)).toNat
    + 2 ^ 16 * (s.byteAt (s.pc.toNat + 2)).toNat + 2 ^ 24 * (s.byteAt (s.pc.toNat + 3)).toNat

/-- A good state: what the rules keep in every state of a run (`10_state.md` R21, R25, R30), and the canonical form of memory. -/
structure State.Inv (s : State) : Prop where
  pcAligned : s.pc.toNat % 4 = 0
  x0Zero    : s.x[0] = 0#32
  memWf     : s.mem.wf

/-- `t` is reached from `s` by steps that answer a next state. -/
inductive Steps : State → State → Prop where
  | refl (s : State) : Steps s s
  | tail {s t u : State} (h : Steps s t) (hs : step t = .next u) : Steps s u

/-- `n` steps from `s` meet no fault: a faulted state is not a final state of a correct run (`60_exceptions.md` R205). -/
def SafeRun (n : Nat) (s : State) : Prop :=
  ∀ f t, runToHalt n s ≠ .faulted f t

end Sys2Proof.Machine
end

