-- ==== Sys2Proof/Certificates/Slice0/Obligations.lean ====
section
/-! DEFINITION. The statements for the provers. Each says which rule of `spec/` it formalises; OBLIGATIONS.json lists them. The parameters of
`00_scope.md` R6 stand in `State.cfg`, so a statement about every state holds for every memory map, both settings of `MISALIGNED_DATA`, every
`INIT_MEM`, `RESET_PC` and `HALT_PC`. -/

open Sys2Proof Sys2Proof.Machine

/-! ### Encoding -/

/-- Decode and encode agree: every operand of every instruction survives (R72 to R92). -/
def Obligations.DecodeOfEncodeIsTheInstruction : Prop :=
  ∀ i : Instr, i.wellFormed = true → decode (encode i) = .ok i

/-- No bit of a decoded word is dropped: a word that decodes is the encoding of its instruction, which is well formed (R70 to R92). -/
def Obligations.EncodeOfDecodeIsTheWord : Prop :=
  ∀ (w : Word) (i : Instr), decode w = .ok i → i.wellFormed = true ∧ encode i = w

/-- R95: the word selects the instruction of the one row with inst & mask = match; no two rows match the same word; if no row matches, the step
that fetches the word raises IllegalInstruction. (R95 carries the spec's own mark "derived".) -/
def Obligations.DecodeSelectsTheOneMatchingRow : Prop :=
  ∀ w : Word,
    (∀ r ∈ opcodeTable, w &&& r.mask = r.pattern ↔ ∃ i, decode w = .ok i ∧ i.mnemonic = r.mnemonic) ∧
    (∀ i, decode w = .ok i → ∃ r ∈ opcodeTable, r.mnemonic = i.mnemonic ∧ w &&& r.mask = r.pattern) ∧
    (∀ r ∈ opcodeTable, ∀ r' ∈ opcodeTable, w &&& r.mask = r.pattern → w &&& r'.mask = r'.pattern → r = r') ∧
    ((∀ r ∈ opcodeTable, w &&& r.mask ≠ r.pattern) → ∀ s, Fetches s w → step s = .fault (.illegalInstruction w))

/-- R71: rd is inst[11:7], rs1 is inst[19:15], rs2 is inst[24:20], read as unsigned numbers (R20). -/
def Obligations.RegisterFieldsAreReadFromTheirBits : Prop :=
  ∀ (w : Word) (i : Instr) (r : Reg), decode w = .ok i →
    (i.rdField = some r → r.val = w.toNat / 2 ^ 7 % 32) ∧
    (i.rs1Field = some r → r.val = w.toNat / 2 ^ 15 % 32) ∧
    (i.rs2Field = some r → r.val = w.toNat / 2 ^ 20 % 32)

/-- R78, R79: `imm_I` = sext_12(inst[31:20]) and `imm_S` = sext_12(inst[31:25] ‖ inst[11:7]), bit by bit, with their ranges. -/
def Obligations.TwelveBitImmediatesAreReadFromTheirBits : Prop :=
  ∀ (w : Word) (i : Instr) (imm : BitVec 12), decode w = .ok i →
    (i.immIField = some imm →
      (∀ k, k < 32 → (sext12 imm).getLsbD k = w.getLsbD (if k < 11 then k + 20 else 31)) ∧
      -2048 ≤ (sext12 imm).toInt ∧ (sext12 imm).toInt ≤ 2047) ∧
    (i.immSField = some imm →
      (∀ k, k < 32 → (sext12 imm).getLsbD k = w.getLsbD (if k < 5 then k + 7 else if k < 11 then k + 20 else 31)) ∧
      -2048 ≤ (sext12 imm).toInt ∧ (sext12 imm).toInt ≤ 2047)

/-- R80, R82: `imm_B` = sext_13(inst[31] ‖ inst[7] ‖ inst[30:25] ‖ inst[11:8] ‖ 0) and `imm_J` = sext_21(inst[31] ‖ inst[19:12] ‖ inst[20] ‖ inst[30:21] ‖ 0),
bit by bit, with their ranges; both are even. -/
def Obligations.BranchAndJumpOffsetsAreReadFromTheirBits : Prop :=
  ∀ (w : Word) (i : Instr), decode w = .ok i →
    (∀ off, i.immBField = some off →
      (∀ k, k < 32 → (sext13 off).getLsbD k =
        if k = 0 then false
        else w.getLsbD (if k < 5 then k + 7 else if k < 11 then k + 20 else if k = 11 then 7 else 31)) ∧
      -4096 ≤ (sext13 off).toInt ∧ (sext13 off).toInt ≤ 4094 ∧ (sext13 off).toInt % 2 = 0) ∧
    (∀ off, i.immJField = some off →
      (∀ k, k < 32 → (sext21 off).getLsbD k =
        if k = 0 then false
        else w.getLsbD (if k < 11 then k + 20 else if k = 11 then 20 else if k < 20 then k else 31)) ∧
      -1048576 ≤ (sext21 off).toInt ∧ (sext21 off).toInt ≤ 1048574 ∧ (sext21 off).toInt % 2 = 0)

/-- R81, R83: `imm_U` = inst[31:12] ‖ 0^12; the shift amount of SLLI, SRLI, SRAI is inst[24:20], unsigned, and a word of their opcode and funct3 decodes
only with the selector inst[31:25] = 0000000 (SLLI, SRLI) or 0100000 (SRAI). (Where shamt stands and SLLI's selector are R83's own inferences: its mark
"derived" and D2; assumption log 7.) -/
def Obligations.UpperImmediatesAndShiftAmountsAreReadFromTheirBits : Prop :=
  (∀ (w : Word) (i : Instr) (imm20 : BitVec 20), decode w = .ok i → i.immUField = some imm20 →
    ∀ k, k < 32 → (immU imm20).getLsbD k = if k < 12 then false else w.getLsbD k) ∧
  (∀ (w : Word) (i : Instr) (n : BitVec 5), decode w = .ok i → i.shamtField = some n →
    n.toNat = w.toNat / 2 ^ 20 % 32) ∧
  (∀ w : Word, w.toNat % 2 ^ 7 = 0x13 → w.toNat / 2 ^ 12 % 8 = 1 →
    ((∃ i, decode w = .ok i) ↔ w.toNat / 2 ^ 25 = 0) ∧
    (∀ i, decode w = .ok i → i.mnemonic = "SLLI")) ∧
  (∀ w : Word, w.toNat % 2 ^ 7 = 0x13 → w.toNat / 2 ^ 12 % 8 = 5 →
    ((∃ i, decode w = .ok i ∧ i.mnemonic = "SRLI") ↔ w.toNat / 2 ^ 25 = 0) ∧
    ((∃ i, decode w = .ok i ∧ i.mnemonic = "SRAI") ↔ w.toNat / 2 ^ 25 = 32) ∧
    (∀ i, decode w = .ok i → i.mnemonic = "SRLI" ∨ i.mnemonic = "SRAI"))

/-- Decoding is right on words written out from the spec's encodings, one or two of each format (`95_test_vectors.md` S-1 to S-14, V-F, V-G). -/
def Obligations.WordsOfTheSpecDecode : Prop :=
  decode 0x40628233#32 = .ok (.sub 4 5 6) ∧ decode 0xFCE22193#32 = .ok (.slti 3 4 (-50)) ∧
  decode 0x40235293#32 = .ok (.srai 5 6 2) ∧ decode 0xFFF34283#32 = .ok (.lbu 5 6 (-1)) ∧
  decode 0xFE530FA3#32 = .ok (.sb 6 5 (-1)) ∧ decode 0xFE208CE3#32 = .ok (.beq 1 2 (-8)) ∧
  decode 0x7E000EE3#32 = .ok (.beq 0 0 4092) ∧ decode 0x7FDFF0EF#32 = .ok (.jal 1 1048572) ∧
  decode 0xFFC100E7#32 = .ok (.jalr 1 2 (-4)) ∧ decode 0x123450B7#32 = .ok (.lui 1 0x12345) ∧
  decode 0x01000117#32 = .ok (.auipc 2 0x1000)

/-- R96 (marked "derived" by the spec, from the opcodes of R84): every instruction has inst[1:0] = 11, and a word with other low bits is illegal. -/
def Obligations.EveryInstructionEndsInTwoOnes : Prop :=
  (∀ i : Instr, (encode i).toNat % 4 = 3) ∧
  (∀ w : Word, w.toNat % 4 ≠ 3 → ∀ s, Fetches s w → step s = .fault (.illegalInstruction w))

/-- R218: the RISC-V encodings of ECALL, EBREAK, MRET, WFI, the CSR instructions (opcode 1110011), FENCE and FENCE.I (opcode 0001111) raise
IllegalInstruction; so does every other word of those two opcodes. -/
def Obligations.SystemAndFenceWordsAreIllegal : Prop :=
  (∀ w : Word, w.toNat % 2 ^ 7 = 0b1110011 ∨ w.toNat % 2 ^ 7 = 0b0001111 →
    ∀ s, Fetches s w → step s = .fault (.illegalInstruction w)) ∧
  (∀ w ∈ [0x00000073#32, 0x00100073#32, 0x30200073#32, 0x10500073#32, 0x0000000F#32, 0x0000100F#32],
    w.toNat % 2 ^ 7 = 0b1110011 ∨ w.toNat % 2 ^ 7 = 0b0001111)

/-! ### The step -/

/-- R10: a step at a pc whose bytes decode to an instruction is that instruction's execution; nothing is added around it. -/
def Obligations.StepRunsTheDecodedInstruction : Prop :=
  ∀ (s : State) (w : Word) (i : Instr), Fetches s w → decode w = .ok i → step s = exec i s

/-- R10, R204: the checks before execution, in their order, and the fault each raises with its info. -/
def Obligations.StepChecksPcThenFetchThenDecode : Prop :=
  ∀ s : State,
    (s.pc.toNat % 4 ≠ 0 → step s = .fault (.instrAddrMisaligned s.pc)) ∧
    (s.pc.toNat % 4 = 0 → (∃ j, j < 4 ∧ s.cfg.accessible .fetch (s.pc.toNat + j) = false) →
      step s = .fault (.fetchAccessFault s.pc)) ∧
    (∀ w, Fetches s w → (∀ i, decode w ≠ .ok i) → step s = .fault (.illegalInstruction w))

/-- R9: a step is a next state or a fault; nothing is refused. -/
def Obligations.StepAnswersNextOrFault : Prop :=
  ∀ s : State, (∃ t, step s = .next t) ∨ (∃ f, step s = .fault f)

/-- R201: the faults an instruction can raise in execution are those its kind has, with their info: loads and stores with the effective address,
branches and jumps with their own target, whose bit 1 is set; the others raise nothing. -/
def Obligations.FaultsInExecutionAreThoseOfTheKind : Prop :=
  ∀ (i : Instr) (s : State) (f : Fault), exec i s = .fault f →
    (i.isLoad = true ∧ ∃ rs1 imm, i.rs1Field = some rs1 ∧ i.immIField = some imm ∧
      (f = .loadAddrMisaligned (effAddr (s.readReg rs1) imm) ∨ f = .loadAccessFault (effAddr (s.readReg rs1) imm))) ∨
    (i.isStore = true ∧ ∃ rs1 imm, i.rs1Field = some rs1 ∧ i.immSField = some imm ∧
      (f = .storeAddrMisaligned (effAddr (s.readReg rs1) imm) ∨ f = .storeAccessFault (effAddr (s.readReg rs1) imm) ∨
        f = .storeToCode (effAddr (s.readReg rs1) imm))) ∨
    (i.isBranch = true ∧ ∃ off, i.immBField = some off ∧
      f = .instrAddrMisaligned (s.pc + sext13 off) ∧ (s.pc + sext13 off).getLsbD 1 = true) ∨
    (∃ rd off, i = .jal rd off ∧ f = .instrAddrMisaligned (s.pc + sext21 off) ∧ (s.pc + sext21 off).getLsbD 1 = true) ∨
    (∃ rd rs1 imm, i = .jalr rd rs1 imm ∧
      f = .instrAddrMisaligned (jalrTarget (s.readReg rs1) imm) ∧ (jalrTarget (s.readReg rs1) imm).getLsbD 1 = true)

/-- R110 (c), R120 (c), R180, R200: the 21 instructions that compute from registers and immediates complete for every operand value; overflow raises
nothing. -/
def Obligations.ComputingInstructionsNeverFault : Prop :=
  ∀ (i : Instr) (s : State), i.isLoad = false → i.isStore = false → i.isBranch = false → i.isJump = false →
    ∃ t rd v, exec i s = .next t ∧ i.rdField = some rd ∧ WroteReg s t rd v (s.pc + 4)

/-! ### Arithmetic, comparison, logic, shifts, upper immediates -/

/-- R111, R112, R113: the low 32 bits of the exact sum or difference (R118), the immediate read as signed. -/
def Obligations.AddSubAddiWriteTheLowBitsOfTheExactResult : Prop :=
  ∀ (s : State) (rd rs1 rs2 : Reg) (imm : BitVec 12),
    (EncodedBy (.add rd rs1 rs2) 0xFE00707F 0x00000033 ∧
      WritesResult (.add rd rs1 rs2) s rd (BitVec.ofNat 32 ((s.readReg rs1).toNat + (s.readReg rs2).toNat))) ∧
    (EncodedBy (.sub rd rs1 rs2) 0xFE00707F 0x40000033 ∧
      WritesResult (.sub rd rs1 rs2) s rd (BitVec.ofInt 32 ((s.readReg rs1).toInt - (s.readReg rs2).toInt))) ∧
    (EncodedBy (.addi rd rs1 imm) 0x0000707F 0x00000013 ∧
      WritesResult (.addi rd rs1 imm) s rd (BitVec.ofInt 32 ((s.readReg rs1).toInt + imm.toInt)))

/-- R114, R115, R116: 1 or 0 by the signed or unsigned comparison. -/
def Obligations.SetLessThanWritesOneOrZero : Prop :=
  ∀ (s : State) (rd rs1 rs2 : Reg) (imm : BitVec 12),
    (EncodedBy (.slt rd rs1 rs2) 0xFE00707F 0x00002033 ∧
      WritesResult (.slt rd rs1 rs2) s rd (if (s.readReg rs1).toInt < (s.readReg rs2).toInt then 1 else 0)) ∧
    (EncodedBy (.sltu rd rs1 rs2) 0xFE00707F 0x00003033 ∧
      WritesResult (.sltu rd rs1 rs2) s rd (if (s.readReg rs1).toNat < (s.readReg rs2).toNat then 1 else 0)) ∧
    (EncodedBy (.slti rd rs1 imm) 0x0000707F 0x00002013 ∧
      WritesResult (.slti rd rs1 imm) s rd (if (s.readReg rs1).toInt < imm.toInt then 1 else 0))

/-- SLTIU: the comparand is the sign-extended immediate read as unsigned, so 0 to 0x7FF or 0xFFFFF800 to 0xFFFFFFFF. The two steps are an inference the spec marks
as its own (`40_arithmetic.md`, the paragraph under the SLTIU pseudocode; assumption log 21). -/
def Obligations.SltiuComparesWithTheSignExtendedImmediate : Prop :=
  ∀ (s : State) (rd rs1 : Reg) (imm : BitVec 12),
    EncodedBy (.sltiu rd rs1 imm) 0x0000707F 0x00003013 ∧
      WritesResult (.sltiu rd rs1 imm) s rd
        (if (s.readReg rs1).toNat < (if imm.toNat < 2048 then imm.toNat else imm.toNat + 0xFFFFF000) then 1 else 0)

/-- R121, R122, R123: bit i of the result is the and, or, exclusive or of bit i of the operands. -/
def Obligations.AndOrXorWorkBitByBit : Prop :=
  ∀ (s : State) (rd rs1 rs2 : Reg),
    (EncodedBy (.and rd rs1 rs2) 0xFE00707F 0x00007033 ∧ ∃ v, WritesResult (.and rd rs1 rs2) s rd v ∧
      ∀ k, k < 32 → v.getLsbD k = ((s.readReg rs1).getLsbD k && (s.readReg rs2).getLsbD k)) ∧
    (EncodedBy (.or rd rs1 rs2) 0xFE00707F 0x00006033 ∧ ∃ v, WritesResult (.or rd rs1 rs2) s rd v ∧
      ∀ k, k < 32 → v.getLsbD k = ((s.readReg rs1).getLsbD k || (s.readReg rs2).getLsbD k)) ∧
    (EncodedBy (.xor rd rs1 rs2) 0xFE00707F 0x00004033 ∧ ∃ v, WritesResult (.xor rd rs1 rs2) s rd v ∧
      ∀ k, k < 32 → v.getLsbD k = ((s.readReg rs1).getLsbD k != (s.readReg rs2).getLsbD k))

/-- R124, R125, R126: the same with the immediate, whose bits 31 to 11 are all its bit 11 (sign extension, not zero extension). -/
def Obligations.AndiOriXoriSignExtendTheImmediate : Prop :=
  ∀ (s : State) (rd rs1 : Reg) (imm : BitVec 12),
    (EncodedBy (.andi rd rs1 imm) 0x0000707F 0x00007013 ∧ ∃ v, WritesResult (.andi rd rs1 imm) s rd v ∧
      ∀ k, k < 32 → v.getLsbD k = ((s.readReg rs1).getLsbD k && imm.getLsbD (min k 11))) ∧
    (EncodedBy (.ori rd rs1 imm) 0x0000707F 0x00006013 ∧ ∃ v, WritesResult (.ori rd rs1 imm) s rd v ∧
      ∀ k, k < 32 → v.getLsbD k = ((s.readReg rs1).getLsbD k || imm.getLsbD (min k 11))) ∧
    (EncodedBy (.xori rd rs1 imm) 0x0000707F 0x00004013 ∧ ∃ v, WritesResult (.xori rd rs1 imm) s rd v ∧
      ∀ k, k < 32 → v.getLsbD k = ((s.readReg rs1).getLsbD k != imm.getLsbD (min k 11)))

/-- R127, R130 with the left-shift law of R133: bit i is bit i - n of the operand, 0 below n; n is the low 5 bits of the register, or shamt.
A word with SLLI's opcode and funct3 and another inst[31:25] is illegal. -/
def Obligations.LeftShiftsMoveBitsUp : Prop :=
  ∀ (s : State) (rd rs1 rs2 : Reg) (shamt : BitVec 5),
    (EncodedBy (.sll rd rs1 rs2) 0xFE00707F 0x00001033 ∧ ∃ v, WritesResult (.sll rd rs1 rs2) s rd v ∧
      ∀ k, k < 32 → v.getLsbD k =
        if (s.readReg rs2).toNat % 32 ≤ k then (s.readReg rs1).getLsbD (k - (s.readReg rs2).toNat % 32) else false) ∧
    (EncodedBy (.slli rd rs1 shamt) 0xFE00707F 0x00001013 ∧ ∃ v, WritesResult (.slli rd rs1 shamt) s rd v ∧
      ∀ k, k < 32 → v.getLsbD k = if shamt.toNat ≤ k then (s.readReg rs1).getLsbD (k - shamt.toNat) else false) ∧
    (∀ w : Word, w.toNat % 2 ^ 7 = 0x13 → w.toNat / 2 ^ 12 % 8 = 1 → w.toNat / 2 ^ 25 ≠ 0 → Fetches s w →
      step s = .fault (.illegalInstruction w))

/-- R128, R131 with the logical right-shift law of R133: bit i is bit i + n of the operand, 0 above 31 - n; so the unsigned quotient by 2^n.
A word with SRLI's opcode and funct3 and an inst[31:25] other than SRLI's and SRAI's is illegal. -/
def Obligations.LogicalRightShiftsDivideUnsigned : Prop :=
  ∀ (s : State) (rd rs1 rs2 : Reg) (shamt : BitVec 5),
    (EncodedBy (.srl rd rs1 rs2) 0xFE00707F 0x00005033 ∧ ∃ v, WritesResult (.srl rd rs1 rs2) s rd v ∧
      (∀ k, k < 32 → v.getLsbD k =
        if k + (s.readReg rs2).toNat % 32 ≤ 31 then (s.readReg rs1).getLsbD (k + (s.readReg rs2).toNat % 32) else false) ∧
      v.toNat = (s.readReg rs1).toNat / 2 ^ ((s.readReg rs2).toNat % 32)) ∧
    (EncodedBy (.srli rd rs1 shamt) 0xFE00707F 0x00005013 ∧ ∃ v, WritesResult (.srli rd rs1 shamt) s rd v ∧
      (∀ k, k < 32 → v.getLsbD k =
        if k + shamt.toNat ≤ 31 then (s.readReg rs1).getLsbD (k + shamt.toNat) else false) ∧
      v.toNat = (s.readReg rs1).toNat / 2 ^ shamt.toNat) ∧
    (∀ w : Word, w.toNat % 2 ^ 7 = 0x13 → w.toNat / 2 ^ 12 % 8 = 5 → w.toNat / 2 ^ 25 ≠ 0 → w.toNat / 2 ^ 25 ≠ 0b0100000 → Fetches s w →
      step s = .fault (.illegalInstruction w))

/-- R129, R132 with the arithmetic right-shift law of R133: bit i is bit i + n of the operand, the sign bit above 31 - n; so the signed quotient by 2^n
rounded toward minus infinity (`/` of Int with a positive divisor is the floor). -/
def Obligations.ArithmeticRightShiftsDivideTowardMinusInfinity : Prop :=
  ∀ (s : State) (rd rs1 rs2 : Reg) (shamt : BitVec 5),
    (EncodedBy (.sra rd rs1 rs2) 0xFE00707F 0x40005033 ∧ ∃ v, WritesResult (.sra rd rs1 rs2) s rd v ∧
      (∀ k, k < 32 → v.getLsbD k = (s.readReg rs1).getLsbD (min (k + (s.readReg rs2).toNat % 32) 31)) ∧
      v.toInt = (s.readReg rs1).toInt / 2 ^ ((s.readReg rs2).toNat % 32)) ∧
    (EncodedBy (.srai rd rs1 shamt) 0xFE00707F 0x40005013 ∧ ∃ v, WritesResult (.srai rd rs1 shamt) s rd v ∧
      (∀ k, k < 32 → v.getLsbD k = (s.readReg rs1).getLsbD (min (k + shamt.toNat) 31)) ∧
      v.toInt = (s.readReg rs1).toInt / 2 ^ shamt.toNat)

/-- R181, R182: the 20-bit field times 4096; AUIPC adds it to the address of the AUIPC itself, modulo 2^32. (That pc
is the AUIPC's own address is the spec's inference from R23; assumption log 27.) -/
def Obligations.LuiAndAuipcPlaceTheUpperImmediate : Prop :=
  ∀ (s : State) (rd : Reg) (imm20 : BitVec 20),
    (EncodedBy (.lui rd imm20) 0x0000007F 0x00000037 ∧
      WritesResult (.lui rd imm20) s rd (BitVec.ofNat 32 (imm20.toNat * 4096))) ∧
    (EncodedBy (.auipc rd imm20) 0x0000007F 0x00000017 ∧
      WritesResult (.auipc rd imm20) s rd (BitVec.ofNat 32 (s.pc.toNat + imm20.toNat * 4096)))

/-- R181, corner cases: LUI and then ADDI build every 32-bit constant c, the LUI field being c[31:12] + 1 (modulo 2^20) when c[11] = 1.
(The spec marks this as derived from R181 and R113.) -/
def Obligations.LuiThenAddiBuildsEveryConstant : Prop :=
  ∀ (s : State) (rd : Reg) (c : Word), rd ≠ 0 →
    ∃ t u, exec (.lui rd (c.extractLsb' 12 20 + (if c.getLsbD 11 then 1 else 0))) s = .next t ∧
      exec (.addi rd rd (c.extractLsb' 0 12)) t = .next u ∧ WroteReg s u rd c (s.pc + 8)

/-- R104: any ADDI with rd = x0 is a no-operation: the whole state is unchanged but for pc + 4. -/
def Obligations.AddiToX0IsNop : Prop :=
  ∀ (s : State) (rs1 : Reg) (imm : BitVec 12), exec (.addi 0 rs1 imm) s = .next { s with pc := s.pc + 4 }

/-! ### Loads and stores -/

/-- R142, R145: LB and LBU complete wherever the byte at ea admits loads, with it sign- or zero-extended, and raise LoadAccessFault(ea) elsewhere; never
misaligned; rd may be x0. -/
def Obligations.LoadByteExtendsTheByte : Prop :=
  ∀ (s : State) (rd rs1 : Reg) (imm : BitVec 12) (ea : Word), ea = effAddr (s.readReg rs1) imm →
    EncodedBy (.lb rd rs1 imm) 0x0000707F 0x00000003 ∧ EncodedBy (.lbu rd rs1 imm) 0x0000707F 0x00004003 ∧
    (LoadAllowed s ea 1 →
      WritesResult (.lb rd rs1 imm) s rd (BitVec.ofInt 32 (s.byteAt ea.toNat).toInt) ∧
      WritesResult (.lbu rd rs1 imm) s rd (BitVec.ofNat 32 (s.byteAt ea.toNat).toNat)) ∧
    (s.cfg.accessible .load ea.toNat = false →
      exec (.lb rd rs1 imm) s = .fault (.loadAccessFault ea) ∧ exec (.lbu rd rs1 imm) s = .fault (.loadAccessFault ea)) ∧
    (s.cfg.accessible .load ea.toNat = true → LoadAllowed s ea 1)

/-- R143, R146: LH and LHU complete wherever `MemRead` raises nothing, with the little-endian halfword at ea sign- or zero-extended; they raise
LoadAddrMisaligned(ea) at an odd address under `refuse`, else LoadAccessFault(ea) if a byte is not accessible. -/
def Obligations.LoadHalfExtendsTheHalfword : Prop :=
  ∀ (s : State) (rd rs1 : Reg) (imm : BitVec 12) (ea : Word) (h : Nat), ea = effAddr (s.readReg rs1) imm →
    EncodedBy (.lh rd rs1 imm) 0x0000707F 0x00001003 ∧ EncodedBy (.lhu rd rs1 imm) 0x0000707F 0x00005003 ∧
    (LoadAllowed s ea 2 → h = (s.byteAt ea.toNat).toNat + 256 * (s.byteAt (ea.toNat + 1)).toNat →
      WritesResult (.lh rd rs1 imm) s rd (BitVec.ofInt 32 (if h < 0x8000 then h else (h : Int) - 0x10000)) ∧
      WritesResult (.lhu rd rs1 imm) s rd (BitVec.ofNat 32 h)) ∧
    (RefusedMisaligned s ea 2 →
      exec (.lh rd rs1 imm) s = .fault (.loadAddrMisaligned ea) ∧ exec (.lhu rd rs1 imm) s = .fault (.loadAddrMisaligned ea)) ∧
    (¬ RefusedMisaligned s ea 2 → Inaccessible s .load ea 2 →
      exec (.lh rd rs1 imm) s = .fault (.loadAccessFault ea) ∧ exec (.lhu rd rs1 imm) s = .fault (.loadAccessFault ea))

/-- R144: LW completes wherever `MemRead` raises nothing, with the little-endian word at ea; it raises LoadAddrMisaligned(ea) at an address that is not a multiple
of 4 under `refuse`, else LoadAccessFault(ea) if a byte is not accessible. -/
def Obligations.LoadWordReadsFourBytes : Prop :=
  ∀ (s : State) (rd rs1 : Reg) (imm : BitVec 12) (ea : Word), ea = effAddr (s.readReg rs1) imm →
    EncodedBy (.lw rd rs1 imm) 0x0000707F 0x00002003 ∧
    (LoadAllowed s ea 4 →
      WritesResult (.lw rd rs1 imm) s rd (BitVec.ofNat 32
        ((s.byteAt ea.toNat).toNat + 2 ^ 8 * (s.byteAt (ea.toNat + 1)).toNat + 2 ^ 16 * (s.byteAt (ea.toNat + 2)).toNat
          + 2 ^ 24 * (s.byteAt (ea.toNat + 3)).toNat))) ∧
    (RefusedMisaligned s ea 4 → exec (.lw rd rs1 imm) s = .fault (.loadAddrMisaligned ea)) ∧
    (¬ RefusedMisaligned s ea 4 → Inaccessible s .load ea 4 → exec (.lw rd rs1 imm) s = .fault (.loadAccessFault ea))

/-- R147, R148, R149: a store completes wherever `MemWrite` raises nothing; exactly the bytes of its width at ea take the low bytes of x[rs2], lowest first, and
nothing else changes but pc + 4. Elsewhere it raises, of misaligned, access and StoreToCode, the first whose condition holds. -/
def Obligations.StoresChangeExactlyTheirBytes : Prop :=
  ∀ (s : State) (rs1 rs2 : Reg) (imm : BitVec 12) (ea : Word) (i : Instr) (n : Nat) (pattern : Word) (bs : List Byte),
    ea = effAddr (s.readReg rs1) imm →
    (i, n, pattern, bs) ∈ [
      (Instr.sb rs1 rs2 imm, 1, 0x00000023, [BitVec.ofNat 8 (s.readReg rs2).toNat]),
      (.sh rs1 rs2 imm, 2, 0x00001023,
        [BitVec.ofNat 8 (s.readReg rs2).toNat, BitVec.ofNat 8 ((s.readReg rs2).toNat / 2 ^ 8)]),
      (.sw rs1 rs2 imm, 4, 0x00002023,
        [BitVec.ofNat 8 (s.readReg rs2).toNat, BitVec.ofNat 8 ((s.readReg rs2).toNat / 2 ^ 8),
          BitVec.ofNat 8 ((s.readReg rs2).toNat / 2 ^ 16), BitVec.ofNat 8 ((s.readReg rs2).toNat / 2 ^ 24)])] →
    EncodedBy i 0x0000707F pattern ∧
    (StoreAllowed s ea n → ∃ t, exec i s = .next t ∧ StoredBytes s t ea.toNat bs) ∧
    (RefusedMisaligned s ea n → exec i s = .fault (.storeAddrMisaligned ea)) ∧
    (¬ RefusedMisaligned s ea n → Inaccessible s .store ea n → exec i s = .fault (.storeAccessFault ea)) ∧
    (¬ RefusedMisaligned s ea n → ¬ Inaccessible s .store ea n → TouchesCode s ea n → exec i s = .fault (.storeToCode ea))

/-- R42, R52: a value stored and loaded back with the same width at the same address returns: SW then LW, SH then LHU, SB then LBU.
(The byte order of stores is R42's inference; assumption log 19.) -/
def Obligations.LoadAfterStoreReturnsTheValue : Prop :=
  ∀ (s : State) (rd rs1 rs2 : Reg) (imm : BitVec 12),
    (StoreAllowed s (effAddr (s.readReg rs1) imm) 4 → LoadAllowed s (effAddr (s.readReg rs1) imm) 4 →
      ∃ t, exec (.sw rs1 rs2 imm) s = .next t ∧ WritesResult (.lw rd rs1 imm) t rd (s.readReg rs2)) ∧
    (StoreAllowed s (effAddr (s.readReg rs1) imm) 2 → LoadAllowed s (effAddr (s.readReg rs1) imm) 2 →
      ∃ t, exec (.sh rs1 rs2 imm) s = .next t ∧
        WritesResult (.lhu rd rs1 imm) t rd (BitVec.ofNat 32 ((s.readReg rs2).toNat % 2 ^ 16))) ∧
    (StoreAllowed s (effAddr (s.readReg rs1) imm) 1 → LoadAllowed s (effAddr (s.readReg rs1) imm) 1 →
      ∃ t, exec (.sb rs1 rs2 imm) s = .next t ∧
        WritesResult (.lbu rd rs1 imm) t rd (BitVec.ofNat 32 ((s.readReg rs2).toNat % 2 ^ 8)))

/-- R44: a mixed-width sequence sees the byte array: after SW, an LBU of the second byte and an LHU of the upper half return those bytes of the value.
(R44 and R42 mark this as derived; assumption log 19.) -/
def Obligations.NarrowLoadsSeeTheBytesOfAStoredWord : Prop :=
  ∀ (s : State) (rd rs1 rs2 : Reg) (imm imm1 imm2 : BitVec 12),
    StoreAllowed s (effAddr (s.readReg rs1) imm) 4 →
    effAddr (s.readReg rs1) imm1 = effAddr (s.readReg rs1) imm + 1 →
    effAddr (s.readReg rs1) imm2 = effAddr (s.readReg rs1) imm + 2 →
    LoadAllowed s (effAddr (s.readReg rs1) imm1) 1 → LoadAllowed s (effAddr (s.readReg rs1) imm2) 2 →
    ∃ t, exec (.sw rs1 rs2 imm) s = .next t ∧
      WritesResult (.lbu rd rs1 imm1) t rd (BitVec.ofNat 32 ((s.readReg rs2).toNat / 2 ^ 8 % 2 ^ 8)) ∧
      WritesResult (.lhu rd rs1 imm2) t rd (BitVec.ofNat 32 ((s.readReg rs2).toNat / 2 ^ 16))

/-! ### Control flow -/

/-- R161 to R166: each branch, by its own comparison, goes to pc + imm_B when that has bit 1 clear, raises InstrAddrMisaligned when it has bit 1 set, and goes to
pc + 4 when it is not taken; nothing else changes. -/
def Obligations.BranchesGoToTheTargetOrFallThrough : Prop :=
  ∀ (s : State) (rs1 rs2 : Reg) (off : BitVec 13) (i : Instr) (pattern : Word) (cond : Prop),
    (i, pattern, cond) ∈ [(Instr.beq rs1 rs2 off, 0x00000063, s.readReg rs1 = s.readReg rs2),
      (.bne rs1 rs2 off, 0x00001063, s.readReg rs1 ≠ s.readReg rs2),
      (.blt rs1 rs2 off, 0x00004063, (s.readReg rs1).toInt < (s.readReg rs2).toInt),
      (.bge rs1 rs2 off, 0x00005063, (s.readReg rs1).toInt ≥ (s.readReg rs2).toInt),
      (.bltu rs1 rs2 off, 0x00006063, (s.readReg rs1).toNat < (s.readReg rs2).toNat),
      (.bgeu rs1 rs2 off, 0x00007063, (s.readReg rs1).toNat ≥ (s.readReg rs2).toNat)] →
    (off.toNat % 2 = 0 → EncodedBy i 0x0000707F pattern) ∧
    (¬ cond → ∃ t, exec i s = .next t ∧ OnlyMovedPc s t (s.pc + 4)) ∧
    (cond → (s.pc + sext13 off).getLsbD 1 = false → ∃ t, exec i s = .next t ∧ OnlyMovedPc s t (s.pc + sext13 off)) ∧
    (cond → (s.pc + sext13 off).getLsbD 1 = true → exec i s = .fault (.instrAddrMisaligned (s.pc + sext13 off)))

/-- R169: a taken branch, a JAL or a JALR whose target has bit 1 set raises InstrAddrMisaligned(target); a branch that is not taken never raises, whatever its
offset. (A fault carries no state: rd and pc are unchanged, R205.) -/
def Obligations.MisalignedTargetsFault : Prop :=
  ∀ (s : State) (rd rs1 rs2 : Reg) (off : BitVec 13) (joff : BitVec 21) (imm : BitVec 12) (i : Instr) (taken : Prop) (p : Word),
    (i, taken, p) ∈ [(Instr.beq rs1 rs2 off, s.readReg rs1 = s.readReg rs2, s.pc + sext13 off),
      (.bne rs1 rs2 off, s.readReg rs1 ≠ s.readReg rs2, s.pc + sext13 off),
      (.blt rs1 rs2 off, (s.readReg rs1).toInt < (s.readReg rs2).toInt, s.pc + sext13 off),
      (.bge rs1 rs2 off, (s.readReg rs1).toInt ≥ (s.readReg rs2).toInt, s.pc + sext13 off),
      (.bltu rs1 rs2 off, (s.readReg rs1).toNat < (s.readReg rs2).toNat, s.pc + sext13 off),
      (.bgeu rs1 rs2 off, (s.readReg rs1).toNat ≥ (s.readReg rs2).toNat, s.pc + sext13 off),
      (.jal rd joff, True, s.pc + sext21 joff),
      (.jalr rd rs1 imm, True, jalrTarget (s.readReg rs1) imm)] →
    (taken → p.getLsbD 1 = true → exec i s = .fault (.instrAddrMisaligned p)) ∧
    (¬ (taken ∧ p.getLsbD 1 = true) → ∃ t, exec i s = .next t)

/-- R167: JAL writes pc + 4 to rd and goes to pc + imm_J, when that has bit 1 clear; otherwise it raises InstrAddrMisaligned of it. -/
def Obligations.JalLinksAndJumps : Prop :=
  ∀ (s : State) (rd : Reg) (off : BitVec 21) (p : Word), p = s.pc + BitVec.ofInt 32 off.toInt →
    (off.toNat % 2 = 0 → EncodedBy (.jal rd off) 0x0000007F 0x0000006F) ∧
    (p.getLsbD 1 = false → ∃ t, exec (.jal rd off) s = .next t ∧ WroteReg s t rd (s.pc + 4) p) ∧
    (p.getLsbD 1 = true → exec (.jal rd off) s = .fault (.instrAddrMisaligned p))

/-- R168: JALR goes to x[rs1] + imm_I with bit 0 cleared, from the value x[rs1] has before rd is written (rd may be rs1), and writes pc + 4 to rd, when the
target has bit 1 clear; otherwise it raises InstrAddrMisaligned of it. -/
def Obligations.JalrLinksAndJumpsToTheOldRegisterValue : Prop :=
  ∀ (s : State) (rd rs1 : Reg) (imm : BitVec 12) (sum : Nat),
    sum = (BitVec.ofInt 32 ((s.readReg rs1).toInt + imm.toInt)).toNat →
    EncodedBy (.jalr rd rs1 imm) 0x0000707F 0x00000067 ∧
    (sum / 2 % 2 = 0 →
      ∃ t, exec (.jalr rd rs1 imm) s = .next t ∧ WroteReg s t rd (s.pc + 4) (BitVec.ofNat 32 (sum - sum % 2))) ∧
    (sum / 2 % 2 = 1 → exec (.jalr rd rs1 imm) s = .fault (.instrAddrMisaligned (BitVec.ofNat 32 (sum - sum % 2))))

/-- R167, corner cases, and R246: `jal x0, 0` = 0x0000006F jumps to itself for ever: the step changes nothing, so no run from there faults. -/
def Obligations.SelfJumpStaysForEver : Prop :=
  ∀ s : State, Fetches s 0x0000006F → step s = .next s ∧ ∀ n, SafeRun n s

/-! ### Registers -/

/-- R21: x0 is 0 in every state, a write to it changes nothing, and the instruction otherwise executes in full: with rd = x0 it faults exactly as with any other
rd, goes to the same pc and leaves the same memory, and no register changes. (R21 is recovered by the spec from four passages of its source: its mark "derived".) -/
def Obligations.X0ReadsZeroAndDropsOnlyTheWrite : Prop :=
  (∀ s : State, s.readReg 0 = 0) ∧ (∀ (s : State) (v : Word), s.writeReg 0 v = s) ∧
  (∀ (i : Instr) (rd : Reg) (s : State), i.rdField.isSome = true →
    (∀ f, exec (i.withRd 0) s = .fault f ↔ exec (i.withRd rd) s = .fault f) ∧
    (∀ t, exec (i.withRd rd) s = .next t → ∃ u, exec (i.withRd 0) s = .next u ∧ u.pc = t.pc ∧ u.mem = t.mem ∧
      ∀ r, u.readReg r = s.readReg r))

/-- R22: no register but rd is ever written; stores and branches write none. -/
def Obligations.OnlyRdIsWritten : Prop :=
  ∀ (i : Instr) (s t : State) (r : Reg), exec i s = .next t → i.rdField ≠ some r → t.readReg r = s.readReg r

/-- R22: an instruction reads no register but those its rs1 and rs2 fields name: two states that agree on them, on pc, memory and the parameters, take the same
fault, or the same pc, memory and value of rd. -/
def Obligations.ExecutionReadsOnlyTheNamedSources : Prop :=
  ∀ (i : Instr) (s s' : State),
    (∀ r, i.rs1Field = some r ∨ i.rs2Field = some r → s.readReg r = s'.readReg r) →
    s.pc = s'.pc → s.mem = s'.mem → s.cfg = s'.cfg →
    (∀ f, exec i s = .fault f → exec i s' = .fault f) ∧
    (∀ t, exec i s = .next t → ∃ t', exec i s' = .next t' ∧ t'.pc = t.pc ∧ t'.mem = t.mem ∧
      ∀ rd, i.rdField = some rd → t'.readReg rd = t.readReg rd)

/-! ### Whole-machine rules and invariants -/

/-- R29: memory is written by the three stores only. -/
def Obligations.OnlyStoresChangeMemory : Prop :=
  ∀ (i : Instr) (s t : State), exec i s = .next t → i.isStore = false → ∀ a, t.byteAt a = s.byteAt a

/-- R24 (the part of its table that gives pc + 4): every instruction that completes, but for the branches and jumps, goes on to pc + 4. -/
def Obligations.OnlyTransfersLeaveTheNextAddress : Prop :=
  ∀ (i : Instr) (s t : State), exec i s = .next t → i.isBranch = false → i.isJump = false → t.pc = s.pc + 4

/-- R25: in every state reached by the rules pc is a multiple of 4: every next state's is, and every state's of a run whose `RESET_PC` is; from a state where it is
not, the step raises InstrAddrMisaligned(pc). -/
def Obligations.PcIsAlwaysAMultipleOfFour : Prop :=
  (∀ s t : State, step s = .next t → t.pc.toNat % 4 = 0) ∧
  (∀ (c : Config) (x : Vector Word 32) (t : State), c.resetPc.toNat % 4 = 0 → Steps (State.start c x) t →
    t.pc.toNat % 4 = 0) ∧
  (∀ s : State, s.pc.toNat % 4 ≠ 0 → step s = .fault (.instrAddrMisaligned s.pc))

/-- Every step keeps the good states: pc aligned (R25), the cell of x0 zero (R21), memory in canonical form (the cell and the form are the model's own representation,
assumption logs 4 and 8). -/
def Obligations.StepKeepsTheGoodState : Prop :=
  ∀ s t : State, s.Inv → step s = .next t → t.Inv

/-- The state after reset is good, and so is every state a run can start in (R31 to R34; the reset values and the canonical form
are the model's own, assumption logs 2, 3 and 4). -/
def Obligations.RunsStartInAGoodState : Prop :=
  State.reset.Inv ∧
  ∀ (c : Config) (x : Vector Word 32), c.resetPc.toNat % 4 = 0 → c.initMem.wf → (State.start c x).Inv

/-- R55, consequence: the bytes at fetchable addresses never change during a run, and a fetch always returns the `INIT_MEM` contents.
(Rests on StoreToCode, the spec's decision D11; assumption log 13.) -/
def Obligations.FetchableBytesNeverChange : Prop :=
  (∀ (s t : State) (a : Nat), Steps s t → s.cfg.accessible .fetch a = true → t.byteAt a = s.byteAt a) ∧
  (∀ (c : Config) (x : Vector Word 32) (t : State) (a w : Word), Steps (State.start c x) t →
    fetchWord t a = .ok w → w = c.initMem.read32 a.toNat)

/-- No step changes the five parameters of R6, which the model carries in the state (assumption log 1). -/
def Obligations.StepsKeepTheParameters : Prop :=
  ∀ s t : State, Steps s t → t.cfg = s.cfg

/-- R31, R32, R33, R240: a run starts with pc = `RESET_PC`, x0 = 0, x1 to x31 any values, memory = `INIT_MEM`. -/
def Obligations.RunStartsAtTheParameters : Prop :=
  ∀ (c : Config) (x : Vector Word 32),
    (State.start c x).pc = c.resetPc ∧ (State.start c x).readReg 0 = 0 ∧
    (∀ r : Reg, r ≠ 0 → (State.start c x).readReg r = x[r]) ∧
    (∀ a, (State.start c x).byteAt a = c.initMem.read a) ∧ (State.start c x).cfg = c

/-! ### Runs -/

/-- R246: a run has ended normally when pc = `HALT_PC` before a step, and no step is taken from there; the final state is the state at that point, reached by
steps. -/
def Obligations.RunEndsAtHaltPc : Prop :=
  (∀ (n : Nat) (s : State), s.cfg.haltPc = some s.pc → runToHalt n s = .ended s) ∧
  (∀ (n : Nat) (s t : State), runToHalt n s = .ended t → Steps s t ∧ t.cfg.haltPc = some t.pc)

/-- R205: a fault ends the run with the state exactly as it was before the faulting instruction, and no instruction after it executes, however long the run. -/
def Obligations.FaultEndsTheRunInTheStateBefore : Prop :=
  ∀ (n : Nat) (s t : State) (f : Fault), runToHalt n s = .faulted f t →
    Steps s t ∧ step t = .fault f ∧ ∀ m, runToHalt (n + m) s = .faulted f t

/-! ### Assembler syntax -/

/-- R101, R102: the assembler admits only operands the formats hold: every instruction it answers is well formed, so that its word decodes to it. -/
def Obligations.AssembledInstructionsAreEncodable : Prop :=
  ∀ (labels : Labels) (here : Word) (line : String) (i : Instr), assembleLine labels here line = some i →
    i.wellFormed = true

/-- R102: a label in any of the six branches or in JAL, whatever its name and the registers, stands for its address minus the address of the instruction, so
that the target is the label, when that is an offset imm_B or imm_J holds; otherwise the line is not admitted (the ranges are R80's and R82's; that the assembler
refuses the rest is the model's choice, assumption log 24). -/
def Obligations.LabelsStandForRelativeOffsets : Prop :=
  ∀ (labels : Labels) (here there : Word) (name : List Char) (rd rs1 rs2 : Reg),
    isLabelName name = true → labels.lookup name = some there →
    (∀ op mk, (op, mk) ∈ [("beq", Instr.beq), ("bne", .bne), ("blt", .blt), ("bge", .bge), ("bltu", .bltu), ("bgeu", .bgeu)] →
      (-4096 ≤ (there - here).toInt ∧ (there - here).toInt ≤ 4094 ∧ (there - here).toInt % 2 = 0 →
        ∃ off, assembleLine labels here (asmLine op [regName rs1, regName rs2, name]) = some (mk rs1 rs2 off) ∧
          here + sext13 off = there) ∧
      (¬ (-4096 ≤ (there - here).toInt ∧ (there - here).toInt ≤ 4094 ∧ (there - here).toInt % 2 = 0) →
        assembleLine labels here (asmLine op [regName rs1, regName rs2, name]) = none)) ∧
    (-1048576 ≤ (there - here).toInt ∧ (there - here).toInt ≤ 1048574 ∧ (there - here).toInt % 2 = 0 →
      ∃ off, assembleLine labels here (asmLine "jal" [regName rd, name]) = some (.jal rd off) ∧ here + sext21 off = there) ∧
    (¬ (-1048576 ≤ (there - here).toInt ∧ (there - here).toInt ≤ 1048574 ∧ (there - here).toInt % 2 = 0) →
      assembleLine labels here (asmLine "jal" [regName rd, name]) = none)
end

