-- ==== Sys2Proof/Laws/Assembler.lean ====
section
/-! SUPPORT. What the assembler reads from a line in the form of R100: the mnemonic and the operands it was written from. Cite `assembleLine_asmLine`
instead of unfolding the scanners. -/

namespace Sys2Proof.Machine

variable {cs ds : List Char} {c : Char}

theorem isBlank_of_isPlain (h : isPlain c = true) : isBlank c = false := by
  simp_all [isPlain]

/-- Plain characters keep clear of every separator. -/
theorem isPlain_ne (h : isPlain c = true) : c ≠ ',' ∧ c ≠ ':' ∧ c ≠ '#' := by
  simp_all [isPlain]

@[simp] theorem parseReg_regName (r : Reg) : parseReg (regName r) = some r := by
  revert r; decide

@[simp] theorem isPlain_regName (r : Reg) : (regName r).all isPlain = true := by
  revert r; decide

@[simp] theorem regName_ne_nil (r : Reg) : regName r ≠ [] := by simp [regName]

/-- Trimming takes one leading space off and leaves plain characters as they are. -/
theorem trimBlanks_plain (h : cs.all isPlain = true) : trimBlanks cs = cs := by
  have drop_plain : ∀ xs : List Char, xs.all isPlain = true → xs.dropWhile isBlank = xs := by
    intro xs hx
    cases xs with
    | nil => rfl
    | cons x xs => simp only [List.all_cons, Bool.and_eq_true] at hx; simp [isBlank_of_isPlain hx.1]
  unfold trimBlanks
  rw [drop_plain cs h, drop_plain cs.reverse (by simpa using h), List.reverse_reverse]

theorem trimBlanks_space : trimBlanks (' ' :: cs) = trimBlanks cs := by
  simp [trimBlanks, isBlank]

/-- Up to the next comma, plain characters and spaces are gathered. -/
theorem splitCommas_append (h : ∀ c ∈ cs, c ≠ ',') (acc : List Char) :
    splitCommas (cs ++ ds) acc = splitCommas ds (cs.reverse ++ acc) := by
  induction cs generalizing acc with
  | nil => rfl
  | cons c cs ih =>
    have hc : c ≠ ',' := h c (by simp)
    simp [splitCommas, hc, ih (fun x hx => h x (by simp [hx]))]

theorem intercalate_cons_cons (a b : List Char) (rest : List (List Char)) :
    List.intercalate [',', ' '] (a :: b :: rest) = a ++ ',' :: ' ' :: List.intercalate [',', ' '] (b :: rest) := by
  simp [List.intercalate, List.intersperse]

/-- A written list of operands holds no mark of a label or of a comment, and ends in a plain character. -/
theorem intercalate_plain (args : List (List Char)) (hne : args ≠ []) (h : ∀ a ∈ args, a ≠ [] ∧ a.all isPlain = true) :
    (∀ c ∈ List.intercalate [',', ' '] args, c ≠ ':' ∧ c ≠ '#') ∧
      ∃ xs c, List.intercalate [',', ' '] args = xs ++ [c] ∧ isPlain c = true := by
  induction args with
  | nil => exact absurd rfl hne
  | cons a rest ih =>
    obtain ⟨ha, hp⟩ := h a (by simp)
    have plain : ∀ c ∈ a, c ≠ ':' ∧ c ≠ '#' := fun c hc => (isPlain_ne (List.all_eq_true.1 hp c hc)).2
    cases rest with
    | nil =>
      have e : List.intercalate [',', ' '] [a] = a := by simp [List.intercalate]
      rw [e]
      exact ⟨plain, a.dropLast, a.getLast ha, (List.dropLast_append_getLast ha).symm,
        List.all_eq_true.1 hp _ (List.getLast_mem ha)⟩
    | cons b rest =>
      obtain ⟨clear, xs, c, hx, hc⟩ := ih (by simp) (fun x hm => h x (by simp [hm]))
      rw [intercalate_cons_cons]
      refine ⟨fun d hd => ?_, a ++ ',' :: ' ' :: xs, c, by simp [hx], hc⟩
      rcases List.mem_append.1 hd with hd | hd
      · exact plain d hd
      · rcases List.mem_cons.1 hd with rfl | hd
        · decide
        · rcases List.mem_cons.1 hd with rfl | hd
          · decide
          · exact clear d hd

/-- Operands written with commas between them are read back. -/
theorem splitCommas_intercalate (args : List (List Char)) (hne : args ≠ []) (h : ∀ a ∈ args, a.all isPlain = true) :
    splitCommas (' ' :: List.intercalate [',', ' '] args) [] = args := by
  have none_comma : ∀ a ∈ args, ∀ c ∈ ' ' :: a, c ≠ ',' := by
    intro a ha c hc
    rcases List.mem_cons.1 hc with rfl | hc
    · decide
    · exact (isPlain_ne (List.all_eq_true.1 (h a ha) c hc)).1
  induction args with
  | nil => exact absurd rfl hne
  | cons a rest ih =>
    have ha := none_comma a (by simp)
    have hp : trimBlanks (' ' :: a) = a := trimBlanks_space.trans (trimBlanks_plain (h a (by simp)))
    cases rest with
    | nil =>
      have := splitCommas_append (ds := []) ha []
      simpa [List.intercalate, splitCommas, hp] using this
    | cons b rest =>
      have := splitCommas_append (ds := ',' :: ' ' :: List.intercalate [',', ' '] (b :: rest)) ha []
      have ih' := ih (by simp) (fun x hx => h x (by simp [hx])) (fun x hx => none_comma x (by simp [hx]))
      rw [intercalate_cons_cons]
      simp only [List.cons_append, List.append_nil] at this
      rw [this]
      rw [splitCommas, if_pos (beq_self_eq_true ','), List.reverse_reverse, hp, ih']

/-- The line a mnemonic and operands are written as is read as that mnemonic and those operands (R100, R102). -/
theorem assembleLine_asmLine (labels : Labels) (here : Word) (op : String) (args : List (List Char)) (hne : args ≠ [])
    (hop0 : op.toList ≠ []) (hop : op.toList.all isPlain = true) (hlow : op.toList.map Char.toLower = op.toList)
    (h : ∀ a ∈ args, a ≠ [] ∧ a.all isPlain = true) :
    assembleLine labels here (asmLine op args) = asmInstr labels here op args := by
  obtain ⟨clear, xs, z, hx, hz⟩ := intercalate_plain args hne h
  have hargs := splitCommas_intercalate args hne (fun a ha => (h a ha).2)
  have hop' := List.all_eq_true.1 hop
  obtain ⟨o, os, ho⟩ := List.exists_cons_of_ne_nil hop0
  have clear' : ∀ c ∈ op.toList ++ ' ' :: List.intercalate [',', ' '] args, c ≠ ':' ∧ c ≠ '#' := by
    intro c hc
    rcases List.mem_append.1 hc with hc | hc
    · exact (isPlain_ne (hop' c hc)).2
    · rcases List.mem_cons.1 hc with rfl | hc
      · decide
      · exact clear c hc
  have trim : trimBlanks (op.toList ++ ' ' :: List.intercalate [',', ' '] args) =
      op.toList ++ ' ' :: List.intercalate [',', ' '] args := by
    have first : isBlank o = false := isBlank_of_isPlain (hop' o (by simp [ho]))
    simp [trimBlanks, ho, hx, first, isBlank_of_isPlain hz]
  have comment : (op.toList ++ ' ' :: List.intercalate [',', ' '] args).takeWhile (· != '#') =
      op.toList ++ ' ' :: List.intercalate [',', ' '] args :=
    List.takeWhile_eq_self_iff.2 fun c hc => by simpa using (clear' c hc).2
  have label : (op.toList ++ ' ' :: List.intercalate [',', ' '] args).contains ':' = false := by
    simpa using fun hc => (clear' _ hc).1 rfl
  have mnemonic : ∀ c ∈ op.toList, (!isBlank c) = true := fun c hc => by simp [isBlank_of_isPlain (hop' c hc)]
  have space : isBlank ' ' = true := rfl
  have op_part : (op.toList ++ ' ' :: List.intercalate [',', ' '] args).takeWhile (fun c => !isBlank c) = op.toList := by
    rw [List.takeWhile_append_of_pos mnemonic]
    simp [space]
  have args_part : (op.toList ++ ' ' :: List.intercalate [',', ' '] args).dropWhile (fun c => !isBlank c) =
      ' ' :: List.intercalate [',', ' '] args := by
    rw [List.dropWhile_append_of_pos mnemonic]
    simp [space]
  simp only [assembleLine, stripComment, asmLine, String.toList_ofList, comment, trim, splitLabel, label, asmText]
  simp only [Bool.false_eq_true, if_false]
  rw [op_part, args_part, hargs, hlow, String.ofList_toList]

/-- A label name that reads as no number stands for its address less that of the instruction (R102). -/
theorem parseTarget_label {labels : Labels} {here there : Word} {name : List Char} (hn : isLabelName name = true)
    (hl : labels.lookup name = some there) : parseTarget labels here name = some (there - here).toInt := by
  simp only [isLabelName, Bool.and_eq_true, Option.isNone_iff_eq_none, bne_iff_ne] at hn
  unfold parseTarget
  split
  · simp at hn
  · simp [hn.1.2, hl]

end Sys2Proof.Machine
end

