-- ==== Sys2Proof/Laws/Encoding.lean ====
section
/-! SUPPORT. The fields of each format's word (`30_encoding.md` R71 to R83): what a field of an encoded word is, and that a word is put together
again from its fields; the mask tests of R85 to R92 as tests of fields. -/

namespace Sys2Proof

/-! ### R-type -/

@[simp] theorem funct7_encodeR (f7 : BitVec 7) (rs2 rs1 : Reg) (f3 : BitVec 3) (rd : Reg) (op : BitVec 7) :
    funct7Of (encodeR f7 rs2 rs1 f3 rd op) = f7 := by
  apply BitVec.eq_of_getLsbD_eq
  intro i hi
  simp only [funct7Of, encodeR, BitVec.getLsbD_extractLsb', BitVec.getLsbD_append]
  grind

@[simp] theorem rs2_encodeR (f7 : BitVec 7) (rs2 rs1 : Reg) (f3 : BitVec 3) (rd : Reg) (op : BitVec 7) :
    rs2Of (encodeR f7 rs2 rs1 f3 rd op) = rs2 := by
  have hf : (encodeR f7 rs2 rs1 f3 rd op).extractLsb' 20 5 = regField rs2 := by
    apply BitVec.eq_of_getLsbD_eq
    intro i hi
    simp only [encodeR, BitVec.getLsbD_extractLsb', BitVec.getLsbD_append]
    grind
  unfold rs2Of regOf
  rw [hf]
  rfl

@[simp] theorem rs1_encodeR (f7 : BitVec 7) (rs2 rs1 : Reg) (f3 : BitVec 3) (rd : Reg) (op : BitVec 7) :
    rs1Of (encodeR f7 rs2 rs1 f3 rd op) = rs1 := by
  have hf : (encodeR f7 rs2 rs1 f3 rd op).extractLsb' 15 5 = regField rs1 := by
    apply BitVec.eq_of_getLsbD_eq
    intro i hi
    simp only [encodeR, BitVec.getLsbD_extractLsb', BitVec.getLsbD_append]
    grind
  unfold rs1Of regOf
  rw [hf]
  rfl

@[simp] theorem funct3_encodeR (f7 : BitVec 7) (rs2 rs1 : Reg) (f3 : BitVec 3) (rd : Reg) (op : BitVec 7) :
    funct3Of (encodeR f7 rs2 rs1 f3 rd op) = f3 := by
  apply BitVec.eq_of_getLsbD_eq
  intro i hi
  simp only [funct3Of, encodeR, BitVec.getLsbD_extractLsb', BitVec.getLsbD_append]
  grind

@[simp] theorem rd_encodeR (f7 : BitVec 7) (rs2 rs1 : Reg) (f3 : BitVec 3) (rd : Reg) (op : BitVec 7) :
    rdOf (encodeR f7 rs2 rs1 f3 rd op) = rd := by
  have hf : (encodeR f7 rs2 rs1 f3 rd op).extractLsb' 7 5 = regField rd := by
    apply BitVec.eq_of_getLsbD_eq
    intro i hi
    simp only [encodeR, BitVec.getLsbD_extractLsb', BitVec.getLsbD_append]
    grind
  unfold rdOf regOf
  rw [hf]
  rfl

@[simp] theorem opcode_encodeR (f7 : BitVec 7) (rs2 rs1 : Reg) (f3 : BitVec 3) (rd : Reg) (op : BitVec 7) :
    opcodeOf (encodeR f7 rs2 rs1 f3 rd op) = op := by
  apply BitVec.eq_of_getLsbD_eq
  intro i hi
  simp only [opcodeOf, encodeR, BitVec.getLsbD_extractLsb', BitVec.getLsbD_append]
  grind

/-- A word is its R fields put together. -/
theorem encodeR_fields (w : Word) :
    encodeR (funct7Of w) (rs2Of w) (rs1Of w) (funct3Of w) (rdOf w) (opcodeOf w) = w := by
  apply BitVec.eq_of_getLsbD_eq
  intro i hi
  simp only [encodeR, regField, BitVec.ofFin_toFin, funct7Of, rs2Of, rs1Of, funct3Of, rdOf, opcodeOf, regOf, BitVec.getLsbD_extractLsb', BitVec.getLsbD_append]
  grind

/-! ### I-type -/

@[simp] theorem immI_encodeI (imm : BitVec 12) (rs1 : Reg) (f3 : BitVec 3) (rd : Reg) (op : BitVec 7) :
    immIOf (encodeI imm rs1 f3 rd op) = imm := by
  apply BitVec.eq_of_getLsbD_eq
  intro i hi
  simp only [immIOf, encodeI, BitVec.getLsbD_extractLsb', BitVec.getLsbD_append]
  grind

@[simp] theorem rs1_encodeI (imm : BitVec 12) (rs1 : Reg) (f3 : BitVec 3) (rd : Reg) (op : BitVec 7) :
    rs1Of (encodeI imm rs1 f3 rd op) = rs1 := by
  have hf : (encodeI imm rs1 f3 rd op).extractLsb' 15 5 = regField rs1 := by
    apply BitVec.eq_of_getLsbD_eq
    intro i hi
    simp only [encodeI, BitVec.getLsbD_extractLsb', BitVec.getLsbD_append]
    grind
  unfold rs1Of regOf
  rw [hf]
  rfl

@[simp] theorem funct3_encodeI (imm : BitVec 12) (rs1 : Reg) (f3 : BitVec 3) (rd : Reg) (op : BitVec 7) :
    funct3Of (encodeI imm rs1 f3 rd op) = f3 := by
  apply BitVec.eq_of_getLsbD_eq
  intro i hi
  simp only [funct3Of, encodeI, BitVec.getLsbD_extractLsb', BitVec.getLsbD_append]
  grind

@[simp] theorem rd_encodeI (imm : BitVec 12) (rs1 : Reg) (f3 : BitVec 3) (rd : Reg) (op : BitVec 7) :
    rdOf (encodeI imm rs1 f3 rd op) = rd := by
  have hf : (encodeI imm rs1 f3 rd op).extractLsb' 7 5 = regField rd := by
    apply BitVec.eq_of_getLsbD_eq
    intro i hi
    simp only [encodeI, BitVec.getLsbD_extractLsb', BitVec.getLsbD_append]
    grind
  unfold rdOf regOf
  rw [hf]
  rfl

@[simp] theorem opcode_encodeI (imm : BitVec 12) (rs1 : Reg) (f3 : BitVec 3) (rd : Reg) (op : BitVec 7) :
    opcodeOf (encodeI imm rs1 f3 rd op) = op := by
  apply BitVec.eq_of_getLsbD_eq
  intro i hi
  simp only [opcodeOf, encodeI, BitVec.getLsbD_extractLsb', BitVec.getLsbD_append]
  grind

/-- A word is its I fields put together. -/
theorem encodeI_fields (w : Word) :
    encodeI (immIOf w) (rs1Of w) (funct3Of w) (rdOf w) (opcodeOf w) = w := by
  apply BitVec.eq_of_getLsbD_eq
  intro i hi
  simp only [encodeI, regField, BitVec.ofFin_toFin, immIOf, rs1Of, funct3Of, rdOf, opcodeOf, regOf, BitVec.getLsbD_extractLsb', BitVec.getLsbD_append]
  grind

/-! ### Immediate shifts -/

@[simp] theorem funct7_encodeShift (f7 : BitVec 7) (shamt : BitVec 5) (rs1 : Reg) (f3 : BitVec 3) (rd : Reg) (op : BitVec 7) :
    funct7Of (encodeShift f7 shamt rs1 f3 rd op) = f7 := by
  apply BitVec.eq_of_getLsbD_eq
  intro i hi
  simp only [funct7Of, encodeShift, BitVec.getLsbD_extractLsb', BitVec.getLsbD_append]
  grind

@[simp] theorem shamt_encodeShift (f7 : BitVec 7) (shamt : BitVec 5) (rs1 : Reg) (f3 : BitVec 3) (rd : Reg) (op : BitVec 7) :
    shamtOf (encodeShift f7 shamt rs1 f3 rd op) = shamt := by
  apply BitVec.eq_of_getLsbD_eq
  intro i hi
  simp only [shamtOf, encodeShift, BitVec.getLsbD_extractLsb', BitVec.getLsbD_append]
  grind

@[simp] theorem rs1_encodeShift (f7 : BitVec 7) (shamt : BitVec 5) (rs1 : Reg) (f3 : BitVec 3) (rd : Reg) (op : BitVec 7) :
    rs1Of (encodeShift f7 shamt rs1 f3 rd op) = rs1 := by
  have hf : (encodeShift f7 shamt rs1 f3 rd op).extractLsb' 15 5 = regField rs1 := by
    apply BitVec.eq_of_getLsbD_eq
    intro i hi
    simp only [encodeShift, BitVec.getLsbD_extractLsb', BitVec.getLsbD_append]
    grind
  unfold rs1Of regOf
  rw [hf]
  rfl

@[simp] theorem funct3_encodeShift (f7 : BitVec 7) (shamt : BitVec 5) (rs1 : Reg) (f3 : BitVec 3) (rd : Reg) (op : BitVec 7) :
    funct3Of (encodeShift f7 shamt rs1 f3 rd op) = f3 := by
  apply BitVec.eq_of_getLsbD_eq
  intro i hi
  simp only [funct3Of, encodeShift, BitVec.getLsbD_extractLsb', BitVec.getLsbD_append]
  grind

@[simp] theorem rd_encodeShift (f7 : BitVec 7) (shamt : BitVec 5) (rs1 : Reg) (f3 : BitVec 3) (rd : Reg) (op : BitVec 7) :
    rdOf (encodeShift f7 shamt rs1 f3 rd op) = rd := by
  have hf : (encodeShift f7 shamt rs1 f3 rd op).extractLsb' 7 5 = regField rd := by
    apply BitVec.eq_of_getLsbD_eq
    intro i hi
    simp only [encodeShift, BitVec.getLsbD_extractLsb', BitVec.getLsbD_append]
    grind
  unfold rdOf regOf
  rw [hf]
  rfl

@[simp] theorem opcode_encodeShift (f7 : BitVec 7) (shamt : BitVec 5) (rs1 : Reg) (f3 : BitVec 3) (rd : Reg) (op : BitVec 7) :
    opcodeOf (encodeShift f7 shamt rs1 f3 rd op) = op := by
  apply BitVec.eq_of_getLsbD_eq
  intro i hi
  simp only [opcodeOf, encodeShift, BitVec.getLsbD_extractLsb', BitVec.getLsbD_append]
  grind

/-- A word is its immediate-shift fields put together. -/
theorem encodeShift_fields (w : Word) :
    encodeShift (funct7Of w) (shamtOf w) (rs1Of w) (funct3Of w) (rdOf w) (opcodeOf w) = w := by
  apply BitVec.eq_of_getLsbD_eq
  intro i hi
  simp only [encodeShift, regField, BitVec.ofFin_toFin, funct7Of, shamtOf, rs1Of, funct3Of, rdOf, opcodeOf, regOf, BitVec.getLsbD_extractLsb', BitVec.getLsbD_append]
  grind

/-! ### S-type -/

@[simp] theorem immS_encodeS (imm : BitVec 12) (rs2 rs1 : Reg) (f3 : BitVec 3) (op : BitVec 7) :
    immSOf (encodeS imm rs2 rs1 f3 op) = imm := by
  apply BitVec.eq_of_getLsbD_eq
  intro i hi
  simp only [immSOf, encodeS, BitVec.getLsbD_extractLsb', BitVec.getLsbD_append]
  grind

@[simp] theorem rs2_encodeS (imm : BitVec 12) (rs2 rs1 : Reg) (f3 : BitVec 3) (op : BitVec 7) :
    rs2Of (encodeS imm rs2 rs1 f3 op) = rs2 := by
  have hf : (encodeS imm rs2 rs1 f3 op).extractLsb' 20 5 = regField rs2 := by
    apply BitVec.eq_of_getLsbD_eq
    intro i hi
    simp only [encodeS, BitVec.getLsbD_extractLsb', BitVec.getLsbD_append]
    grind
  unfold rs2Of regOf
  rw [hf]
  rfl

@[simp] theorem rs1_encodeS (imm : BitVec 12) (rs2 rs1 : Reg) (f3 : BitVec 3) (op : BitVec 7) :
    rs1Of (encodeS imm rs2 rs1 f3 op) = rs1 := by
  have hf : (encodeS imm rs2 rs1 f3 op).extractLsb' 15 5 = regField rs1 := by
    apply BitVec.eq_of_getLsbD_eq
    intro i hi
    simp only [encodeS, BitVec.getLsbD_extractLsb', BitVec.getLsbD_append]
    grind
  unfold rs1Of regOf
  rw [hf]
  rfl

@[simp] theorem funct3_encodeS (imm : BitVec 12) (rs2 rs1 : Reg) (f3 : BitVec 3) (op : BitVec 7) :
    funct3Of (encodeS imm rs2 rs1 f3 op) = f3 := by
  apply BitVec.eq_of_getLsbD_eq
  intro i hi
  simp only [funct3Of, encodeS, BitVec.getLsbD_extractLsb', BitVec.getLsbD_append]
  grind

@[simp] theorem opcode_encodeS (imm : BitVec 12) (rs2 rs1 : Reg) (f3 : BitVec 3) (op : BitVec 7) :
    opcodeOf (encodeS imm rs2 rs1 f3 op) = op := by
  apply BitVec.eq_of_getLsbD_eq
  intro i hi
  simp only [opcodeOf, encodeS, BitVec.getLsbD_extractLsb', BitVec.getLsbD_append]
  grind

/-- A word is its S fields put together. -/
theorem encodeS_fields (w : Word) :
    encodeS (immSOf w) (rs2Of w) (rs1Of w) (funct3Of w) (opcodeOf w) = w := by
  apply BitVec.eq_of_getLsbD_eq
  intro i hi
  simp only [encodeS, regField, BitVec.ofFin_toFin, immSOf, rs2Of, rs1Of, funct3Of, opcodeOf, regOf, BitVec.getLsbD_extractLsb', BitVec.getLsbD_append]
  grind

/-! ### B-type -/

@[simp] theorem immB_encodeB (off : BitVec 13) (rs2 rs1 : Reg) (f3 : BitVec 3) (op : BitVec 7) (h : off.getLsbD 0 = false) :
    immBOf (encodeB off rs2 rs1 f3 op) = off := by
  apply BitVec.eq_of_getLsbD_eq
  intro i hi
  simp only [immBOf, encodeB, BitVec.getLsbD_extractLsb', BitVec.getLsbD_append]
  grind

@[simp] theorem rs2_encodeB (off : BitVec 13) (rs2 rs1 : Reg) (f3 : BitVec 3) (op : BitVec 7) :
    rs2Of (encodeB off rs2 rs1 f3 op) = rs2 := by
  have hf : (encodeB off rs2 rs1 f3 op).extractLsb' 20 5 = regField rs2 := by
    apply BitVec.eq_of_getLsbD_eq
    intro i hi
    simp only [encodeB, BitVec.getLsbD_extractLsb', BitVec.getLsbD_append]
    grind
  unfold rs2Of regOf
  rw [hf]
  rfl

@[simp] theorem rs1_encodeB (off : BitVec 13) (rs2 rs1 : Reg) (f3 : BitVec 3) (op : BitVec 7) :
    rs1Of (encodeB off rs2 rs1 f3 op) = rs1 := by
  have hf : (encodeB off rs2 rs1 f3 op).extractLsb' 15 5 = regField rs1 := by
    apply BitVec.eq_of_getLsbD_eq
    intro i hi
    simp only [encodeB, BitVec.getLsbD_extractLsb', BitVec.getLsbD_append]
    grind
  unfold rs1Of regOf
  rw [hf]
  rfl

@[simp] theorem funct3_encodeB (off : BitVec 13) (rs2 rs1 : Reg) (f3 : BitVec 3) (op : BitVec 7) :
    funct3Of (encodeB off rs2 rs1 f3 op) = f3 := by
  apply BitVec.eq_of_getLsbD_eq
  intro i hi
  simp only [funct3Of, encodeB, BitVec.getLsbD_extractLsb', BitVec.getLsbD_append]
  grind

@[simp] theorem opcode_encodeB (off : BitVec 13) (rs2 rs1 : Reg) (f3 : BitVec 3) (op : BitVec 7) :
    opcodeOf (encodeB off rs2 rs1 f3 op) = op := by
  apply BitVec.eq_of_getLsbD_eq
  intro i hi
  simp only [opcodeOf, encodeB, BitVec.getLsbD_extractLsb', BitVec.getLsbD_append]
  grind

/-- A word is its B fields put together. -/
theorem encodeB_fields (w : Word) :
    encodeB (immBOf w) (rs2Of w) (rs1Of w) (funct3Of w) (opcodeOf w) = w := by
  apply BitVec.eq_of_getLsbD_eq
  intro i hi
  simp only [encodeB, regField, BitVec.ofFin_toFin, immBOf, rs2Of, rs1Of, funct3Of, opcodeOf, regOf, BitVec.getLsbD_extractLsb', BitVec.getLsbD_append]
  grind

/-! ### U-type -/

@[simp] theorem immU_encodeU (imm20 : BitVec 20) (rd : Reg) (op : BitVec 7) :
    immUOf (encodeU imm20 rd op) = imm20 := by
  apply BitVec.eq_of_getLsbD_eq
  intro i hi
  simp only [immUOf, encodeU, BitVec.getLsbD_extractLsb', BitVec.getLsbD_append]
  grind

@[simp] theorem rd_encodeU (imm20 : BitVec 20) (rd : Reg) (op : BitVec 7) :
    rdOf (encodeU imm20 rd op) = rd := by
  have hf : (encodeU imm20 rd op).extractLsb' 7 5 = regField rd := by
    apply BitVec.eq_of_getLsbD_eq
    intro i hi
    simp only [encodeU, BitVec.getLsbD_extractLsb', BitVec.getLsbD_append]
    grind
  unfold rdOf regOf
  rw [hf]
  rfl

@[simp] theorem opcode_encodeU (imm20 : BitVec 20) (rd : Reg) (op : BitVec 7) :
    opcodeOf (encodeU imm20 rd op) = op := by
  apply BitVec.eq_of_getLsbD_eq
  intro i hi
  simp only [opcodeOf, encodeU, BitVec.getLsbD_extractLsb', BitVec.getLsbD_append]
  grind

/-- A word is its U fields put together. -/
theorem encodeU_fields (w : Word) :
    encodeU (immUOf w) (rdOf w) (opcodeOf w) = w := by
  apply BitVec.eq_of_getLsbD_eq
  intro i hi
  simp only [encodeU, regField, BitVec.ofFin_toFin, immUOf, rdOf, opcodeOf, regOf, BitVec.getLsbD_extractLsb', BitVec.getLsbD_append]
  grind

/-! ### J-type -/

@[simp] theorem immJ_encodeJ (off : BitVec 21) (rd : Reg) (op : BitVec 7) (h : off.getLsbD 0 = false) :
    immJOf (encodeJ off rd op) = off := by
  apply BitVec.eq_of_getLsbD_eq
  intro i hi
  simp only [immJOf, encodeJ, BitVec.getLsbD_extractLsb', BitVec.getLsbD_append]
  grind

@[simp] theorem rd_encodeJ (off : BitVec 21) (rd : Reg) (op : BitVec 7) :
    rdOf (encodeJ off rd op) = rd := by
  have hf : (encodeJ off rd op).extractLsb' 7 5 = regField rd := by
    apply BitVec.eq_of_getLsbD_eq
    intro i hi
    simp only [encodeJ, BitVec.getLsbD_extractLsb', BitVec.getLsbD_append]
    grind
  unfold rdOf regOf
  rw [hf]
  rfl

@[simp] theorem opcode_encodeJ (off : BitVec 21) (rd : Reg) (op : BitVec 7) :
    opcodeOf (encodeJ off rd op) = op := by
  apply BitVec.eq_of_getLsbD_eq
  intro i hi
  simp only [opcodeOf, encodeJ, BitVec.getLsbD_extractLsb', BitVec.getLsbD_append]
  grind

/-- A word is its J fields put together. -/
theorem encodeJ_fields (w : Word) :
    encodeJ (immJOf w) (rdOf w) (opcodeOf w) = w := by
  apply BitVec.eq_of_getLsbD_eq
  intro i hi
  simp only [encodeJ, regField, BitVec.ofFin_toFin, immJOf, rdOf, opcodeOf, regOf, BitVec.getLsbD_extractLsb', BitVec.getLsbD_append]
  grind

/-- The offset a B-type word holds is even (R80). -/
@[simp] theorem immBOf_even (w : Word) : (immBOf w)[0] = false := by
  have h : (immBOf w).getLsbD 0 = false := by
    simp only [immBOf, BitVec.getLsbD_append]
    simp
  simpa using h

/-- The offset a J-type word holds is even (R82). -/
@[simp] theorem immJOf_even (w : Word) : (immJOf w)[0] = false := by
  have h : (immJOf w).getLsbD 0 = false := by
    simp only [immJOf, BitVec.getLsbD_append]
    simp
  simpa using h

/-! ### The mask tests -/

/-- The mask 0xFE00707F keeps the opcode, funct3 and inst[31:25] (R85, R86). -/
theorem and_maskR (w : Word) : w &&& 0xFE00707F#32 = encodeR (funct7Of w) 0 0 (funct3Of w) 0 (opcodeOf w) := by
  apply BitVec.eq_of_getLsbD_eq
  intro i hi
  simp only [BitVec.getLsbD_and, encodeR, regField, BitVec.getLsbD_append, funct7Of, funct3Of, opcodeOf,
    BitVec.getLsbD_extractLsb']
  interval_cases i <;> simp

/-- The mask 0x0000707F keeps the opcode and funct3 (R86 to R90). -/
theorem and_maskI (w : Word) : w &&& 0x0000707F#32 = encodeI 0 0 (funct3Of w) 0 (opcodeOf w) := by
  apply BitVec.eq_of_getLsbD_eq
  intro i hi
  simp only [BitVec.getLsbD_and, encodeI, regField, BitVec.getLsbD_append, funct3Of, opcodeOf, BitVec.getLsbD_extractLsb']
  interval_cases i <;> simp

/-- The mask 0x0000007F keeps the opcode (R91, R92). -/
theorem and_maskU (w : Word) : w &&& 0x0000007F#32 = encodeU 0 0 (opcodeOf w) := by
  apply BitVec.eq_of_getLsbD_eq
  intro i hi
  simp only [BitVec.getLsbD_and, encodeU, regField, BitVec.getLsbD_append, opcodeOf, BitVec.getLsbD_extractLsb']
  interval_cases i <;> simp

/-- A row with the mask 0xFE00707F matches by opcode, funct3 and inst[31:25] (R85, R86). -/
theorem and_maskR_eq_iff (w : Word) (f7 : BitVec 7) (f3 : BitVec 3) (op : BitVec 7) :
    w &&& 0xFE00707F#32 = encodeR f7 0 0 f3 0 op ↔ funct7Of w = f7 ∧ funct3Of w = f3 ∧ opcodeOf w = op := by
  rw [and_maskR]
  constructor
  · intro he
    exact ⟨by simpa using congrArg funct7Of he, by simpa using congrArg funct3Of he, by simpa using congrArg opcodeOf he⟩
  · rintro ⟨rfl, rfl, rfl⟩
    rfl

/-- A row with the mask 0x0000707F matches by opcode and funct3 (R86 to R90). -/
theorem and_maskI_eq_iff (w : Word) (f3 : BitVec 3) (op : BitVec 7) :
    w &&& 0x0000707F#32 = encodeI 0 0 f3 0 op ↔ funct3Of w = f3 ∧ opcodeOf w = op := by
  rw [and_maskI]
  constructor
  · intro he
    exact ⟨by simpa using congrArg funct3Of he, by simpa using congrArg opcodeOf he⟩
  · rintro ⟨rfl, rfl⟩
    rfl

/-- A row with the mask 0x0000007F matches by opcode (R91, R92). -/
theorem and_maskU_eq_iff (w : Word) (op : BitVec 7) : w &&& 0x0000007F#32 = encodeU 0 0 op ↔ opcodeOf w = op := by
  rw [and_maskU]
  constructor
  · intro he
    simpa using congrArg opcodeOf he
  · rintro rfl
    rfl

end Sys2Proof
end

