-- ==== Sys2Proof/Laws/Memory.lean ====
section
/-! SUPPORT. The laws of memory: a read after a write, the canonical form is kept, equal contents are equal data; the memory map can be any
predicate (`20_memory.md` R47). -/

namespace Sys2Proof

/-- A listed byte is read back, and every other address reads as before. -/
theorem Memory.read_insert (m : Memory) (a a' : Nat) (b : Byte) :
    (m.insert a b).read a' = if a' = a then b else m.read a' := by
  induction m with
  | nil => grind [Memory.insert, Memory.read]
  | cons c m ih => grind [Memory.insert, Memory.read]

/-- Taking an address out makes it read as unlisted and leaves every other address. -/
theorem Memory.read_filter (m : Memory) (a a' : Nat) :
    Memory.read (m.filter (fun c => c.1 != a)) a' = if a' = a then Memory.unlisted else m.read a' := by
  induction m with
  | nil => simp [Memory.read]
  | cons c m ih => grind [Memory.read]

/-- A read after a write (R52): the byte written, and everywhere else what was there. No premise: it holds of every list. -/
theorem Memory.read_write (m : Memory) (a a' : Nat) (b : Byte) :
    (m.write a b).read a' = if a' = a then b else m.read a' := by
  unfold Memory.write
  split
  · next h => simp [Memory.read_filter, h]
  · exact Memory.read_insert m a a' b

@[simp] theorem Memory.read_write_self (m : Memory) (a : Nat) (b : Byte) : (m.write a b).read a = b := by
  simp [Memory.read_write]

theorem Memory.read_write_other {a a' : Nat} (m : Memory) (b : Byte) (h : a' ≠ a) :
    (m.write a b).read a' = m.read a' := by
  simp [Memory.read_write, h]

/-- A halfword store changes its two bytes and no other (R42, R44). -/
theorem Memory.read_write16 (m : Memory) (a a' : Nat) (v : Half) :
    (m.write16 a v).read a' =
      if a' = a + 1 then v.extractLsb' 8 8 else if a' = a then v.extractLsb' 0 8 else m.read a' := by
  simp [Memory.write16, Memory.read_write]

/-- A word store changes its four bytes and no other (R42, R44). -/
theorem Memory.read_write32 (m : Memory) (a a' : Nat) (v : Word) :
    (m.write32 a v).read a' =
      if a' = a + 3 then v.extractLsb' 24 8 else if a' = a + 2 then v.extractLsb' 16 8
      else if a' = a + 1 then v.extractLsb' 8 8 else if a' = a then v.extractLsb' 0 8 else m.read a' := by
  simp [Memory.write32, Memory.read_write]

theorem Memory.mem_insert {m : Memory} {a : Nat} {b : Byte} {c : Host.Cell} (h : c ∈ m.insert a b) :
    c = (a, b) ∨ c ∈ m := by
  induction m with
  | nil => simpa [Memory.insert] using h
  | cons d m ih =>
    unfold Memory.insert at h
    split at h
    · simpa using h
    · split at h
      · rcases List.mem_cons.1 h with h | h <;> simp [h]
      · rcases List.mem_cons.1 h with h | h
        · simp [h]
        · rcases ih h with h | h <;> simp [h]

/-- Putting a listed byte in keeps the canonical form. -/
theorem Memory.wf_insert {m : Memory} {a : Nat} {b : Byte} (hm : m.wf) (ha : a < 2 ^ 32) (hb : b ≠ Memory.unlisted) :
    (m.insert a b).wf := by
  refine ⟨?_, fun c hc => ?_⟩
  · induction m with
    | nil => simp [Memory.insert]
    | cons d m ih =>
      obtain ⟨hd, hp⟩ := List.pairwise_cons.1 hm.1
      have hm' : Memory.wf m := ⟨hp, fun c hc => hm.2 c (List.mem_cons_of_mem _ hc)⟩
      unfold Memory.insert
      split
      · next h =>
        refine List.pairwise_cons.2 ⟨fun c hc => ?_, hm.1⟩
        rcases List.mem_cons.1 hc with rfl | hc
        · exact h
        · exact lt_trans h (hd c hc)
      · split
        · next h1 h2 => exact List.pairwise_cons.2 ⟨fun c hc => h2 ▸ hd c hc, hp⟩
        · next h1 h2 =>
          refine List.pairwise_cons.2 ⟨fun c hc => ?_, ih hm'⟩
          rcases Memory.mem_insert hc with rfl | hc
          · exact lt_of_le_of_ne (not_lt.1 h1) (Ne.symm h2)
          · exact hd c hc
  · rcases Memory.mem_insert hc with rfl | hc
    · exact ⟨ha, hb⟩
    · exact hm.2 c hc

/-- A byte written keeps the canonical form. -/
theorem Memory.wf_write {m : Memory} {a : Nat} {b : Byte} (hm : m.wf) (ha : a < 2 ^ 32) : (m.write a b).wf := by
  unfold Memory.write
  split
  · exact ⟨hm.1.filter _, fun c hc => hm.2 c (List.mem_filter.1 hc).1⟩
  · next h => exact Memory.wf_insert hm ha h

theorem Memory.wf_write16 {m : Memory} {a : Nat} {v : Half} (hm : m.wf) (ha : a + 2 ≤ 2 ^ 32) : (m.write16 a v).wf :=
  Memory.wf_write (Memory.wf_write hm (by omega)) (by omega)

theorem Memory.wf_write32 {m : Memory} {a : Nat} {v : Word} (hm : m.wf) (ha : a + 4 ≤ 2 ^ 32) : (m.write32 a v).wf :=
  Memory.wf_write (Memory.wf_write (Memory.wf_write (Memory.wf_write hm (by omega)) (by omega)) (by omega)) (by omega)

theorem Memory.wf_nil : Memory.wf [] := ⟨.nil, by simp⟩

theorem Memory.read_eq_unlisted {m : Memory} {a : Nat} (h : ∀ c ∈ m, c.1 ≠ a) : m.read a = Memory.unlisted := by
  induction m with
  | nil => rfl
  | cons c m ih => simp [Memory.read, h c (by simp), ih (fun d hd => h d (by simp [hd]))]

/-- Equal contents are equal data: a canonical memory is determined by what its addresses read as. -/
theorem Memory.eq_of_read_eq {m m' : Memory} (hm : m.wf) (hm' : m'.wf) (h : ∀ a, m.read a = m'.read a) : m = m' := by
  induction m generalizing m' with
  | nil =>
    cases m' with
    | nil => rfl
    | cons d m' =>
      have := h d.1
      simp only [Memory.read, if_true] at this
      exact absurd this.symm (hm'.2 d (by simp)).2
  | cons c m ih =>
    cases m' with
    | nil =>
      have := h c.1
      simp only [Memory.read, if_true] at this
      exact absurd this (hm.2 c (by simp)).2
    | cons d m' =>
      obtain ⟨hc, hp⟩ := List.pairwise_cons.1 hm.1
      obtain ⟨hd, hp'⟩ := List.pairwise_cons.1 hm'.1
      have hcd : c.1 = d.1 := by
        rcases Nat.lt_trichotomy c.1 d.1 with hlt | heq | hlt
        · have h1 := h c.1
          rw [Memory.read_eq_unlisted (m := d :: m')] at h1
          · simp only [Memory.read, if_true] at h1
            exact absurd h1 (hm.2 c (by simp)).2
          · intro e he
            rcases List.mem_cons.1 he with rfl | he
            · omega
            · have := hd e he; omega
        · exact heq
        · have h1 := h d.1
          rw [Memory.read_eq_unlisted (m := c :: m)] at h1
          · simp only [Memory.read, if_true] at h1
            exact absurd h1.symm (hm'.2 d (by simp)).2
          · intro e he
            rcases List.mem_cons.1 he with rfl | he
            · omega
            · have := hc e he; omega
      have hb : c.2 = d.2 := by
        have := h c.1
        simpa [Memory.read, hcd] using this
      have hcons : c = d := Prod.ext hcd hb
      subst hcons
      congr 1
      refine ih ⟨hp, fun e he => hm.2 e (by simp [he])⟩ ⟨hp', fun e he => hm'.2 e (by simp [he])⟩ (fun a => ?_)
      by_cases ha : c.1 = a
      · subst ha
        rw [Memory.read_eq_unlisted (fun e he => by have := hc e he; omega),
          Memory.read_eq_unlisted (fun e he => by have := hd e he; omega)]
      · simpa [Memory.read, ha] using h a

/-- Every byte of an access is accessible. -/
theorem Config.allAccessible_iff (c : Config) (k : AccessKind) (a n : Nat) :
    c.allAccessible k a n = true ↔ ∀ j, j < n → c.accessible k (a + j) = true := by
  simp [Config.allAccessible]

/-- Some byte of an access is accessible. -/
theorem Config.someAccessible_iff (c : Config) (k : AccessKind) (a n : Nat) :
    c.someAccessible k a n = true ↔ ∃ j, j < n ∧ c.accessible k (a + j) = true := by
  simp [Config.someAccessible]

/-- The list of windows is no restriction: every predicate on the kinds of access and the 2^32 addresses is some memory map (R47). -/
theorem Config.exists_access (c : Config) (p : AccessKind → Nat → Bool) :
    ∃ ws, ∀ k a, a < 2 ^ 32 → { c with access := ws }.accessible k a = p k a := by
  refine ⟨[AccessKind.fetch, .load, .store].flatMap
    (fun k => ((List.range (2 ^ 32)).filter (p k)).map (fun a => ⟨k, a, a⟩)), fun k a ha => ?_⟩
  rw [Bool.eq_iff_iff]
  simp only [Config.accessible, List.any_eq_true, List.mem_flatMap, List.mem_map, List.mem_filter, List.mem_range,
    Bool.and_eq_true, beq_iff_eq, decide_eq_true_eq]
  constructor
  · rintro ⟨w, ⟨k', -, b, ⟨-, hp⟩, rfl⟩, ⟨hk, h1⟩, h2⟩
    have : b = a := Nat.le_antisymm h1 h2
    rw [← this, ← hk]
    exact hp
  · intro hp
    refine ⟨⟨k, a, a⟩, ⟨k, by cases k <;> simp, a, ⟨ha, hp⟩, rfl⟩, ⟨rfl, le_refl _⟩, le_refl _⟩

end Sys2Proof
end

