-- ==== Sys2Proof/Laws/State.lean ====
section
/-! SUPPORT. One lemma per field per update of State, the register file's read-over-write laws (`10_state.md` R21, R22), and the fields of the
state a run starts in (R31 to R34). -/

namespace Sys2Proof.Machine

variable (s : State) (r r' : Reg) (v t : Word) (m : Memory)

@[simp] theorem State.setPc_pc : (s.setPc t).pc = t := rfl
@[simp] theorem State.setPc_x : (s.setPc t).x = s.x := rfl
@[simp] theorem State.setPc_mem : (s.setPc t).mem = s.mem := rfl
@[simp] theorem State.setPc_cfg : (s.setPc t).cfg = s.cfg := rfl
@[simp] theorem State.setPc_readReg : (s.setPc t).readReg r = s.readReg r := rfl
@[simp] theorem State.setPc_byteAt (a : Nat) : (s.setPc t).byteAt a = s.byteAt a := rfl

@[simp] theorem State.setMem_pc : (s.setMem m).pc = s.pc := rfl
@[simp] theorem State.setMem_x : (s.setMem m).x = s.x := rfl
@[simp] theorem State.setMem_mem : (s.setMem m).mem = m := rfl
@[simp] theorem State.setMem_cfg : (s.setMem m).cfg = s.cfg := rfl
@[simp] theorem State.setMem_readReg : (s.setMem m).readReg r = s.readReg r := rfl
@[simp] theorem State.setMem_byteAt (a : Nat) : (s.setMem m).byteAt a = m.read a := rfl

@[simp] theorem State.writeReg_pc : (s.writeReg r v).pc = s.pc := by unfold State.writeReg; split <;> rfl
@[simp] theorem State.writeReg_mem : (s.writeReg r v).mem = s.mem := by unfold State.writeReg; split <;> rfl
@[simp] theorem State.writeReg_cfg : (s.writeReg r v).cfg = s.cfg := by unfold State.writeReg; split <;> rfl
@[simp] theorem State.writeReg_byteAt (a : Nat) : (s.writeReg r v).byteAt a = s.byteAt a := by
  simp [State.byteAt]

/-- The cell of x0 is never written (R21). -/
@[simp] theorem State.writeReg_x0 : (s.writeReg r v).x[0] = s.x[0] := by
  unfold State.writeReg
  split
  · rfl
  · next h =>
    have : (r : Nat) ≠ 0 := fun h0 => h (Fin.ext h0)
    simp [this]

/-- Reading a register after a write: the write is seen at its own register, unless that is x0 (R21, R22). -/
theorem State.readReg_writeReg :
    (s.writeReg r v).readReg r' = if r' = r ∧ r' ≠ 0 then v else s.readReg r' := by
  unfold State.writeReg State.readReg
  by_cases h0 : r = 0
  · subst h0
    by_cases h1 : r' = 0 <;> simp [h1]
  · by_cases h1 : r' = r
    · subst h1
      simp [h0]
    · have : (r : Nat) ≠ r' := fun h => h1 (Fin.ext h.symm)
      by_cases h2 : r' = 0 <;> simp [h0, h1, h2, this]

@[simp] theorem State.start_pc (c : Config) (x : Vector Word 32) : (State.start c x).pc = c.resetPc := rfl
@[simp] theorem State.start_mem (c : Config) (x : Vector Word 32) : (State.start c x).mem = c.initMem := rfl
@[simp] theorem State.start_cfg (c : Config) (x : Vector Word 32) : (State.start c x).cfg = c := rfl
@[simp] theorem State.start_x0 (c : Config) (x : Vector Word 32) : (State.start c x).x[0] = 0#32 := by
  simp [State.start]

end Sys2Proof.Machine
end

