-- ==== Sys2Proof/Laws/Ops.lean ====
section
/-! SUPPORT. One lemma per shared operation that says all it can do; cite these instead of unfolding the operation. -/

namespace Sys2Proof.Machine

variable {s t : State}

/-! ### Writing back -/

theorem wroteReg_setPc (s : State) (rd : Reg) (v p : Word) : WroteReg s ((s.writeReg rd v).setPc p) rd v p :=
  ⟨fun r => by simp [State.readReg_writeReg], rfl, fun _ => by simp, by simp⟩

/-- `writeBack` always completes, and does nothing but write rd and go on to pc + 4 (R110, R120, R180). -/
theorem writeBack_spec (rd : Reg) (v : Word) (s : State) :
    ∃ t, writeBack rd v s = .next t ∧ WroteReg s t rd v (s.pc + 4) :=
  ⟨_, rfl, wroteReg_setPc s rd v _⟩

theorem onlyMovedPc_setPc (s : State) (p : Word) : OnlyMovedPc s (s.setPc p) p :=
  ⟨fun _ => rfl, rfl, fun _ => rfl, rfl⟩

/-! ### The checks of loads and stores -/

theorem not_allAccessible_iff (s : State) (k : AccessKind) (a n : Nat) :
    s.cfg.allAccessible k a n = false ↔ ∃ j, j < n ∧ s.cfg.accessible k (a + j) = false := by
  rw [← Bool.not_eq_true, Config.allAccessible_iff]
  simp

theorem refusedMisaligned_iff (s : State) (a : Word) (n : Nat) :
    RefusedMisaligned s a n ↔ a.toNat % n ≠ 0 ∧ s.cfg.misaligned = .refuse := Iff.rfl

/-- The checks of `MemRead` raise exactly the first of their two conditions that holds (R48, R204). -/
theorem loadFault_eq_some_iff (s : State) (a : Word) (n : Nat) (f : Fault) :
    loadFault s a n = some f ↔
      (RefusedMisaligned s a n ∧ f = .loadAddrMisaligned a) ∨
      (¬ RefusedMisaligned s a n ∧ Inaccessible s .load a n ∧ f = .loadAccessFault a) := by
  unfold loadFault
  rw [refusedMisaligned_iff, Inaccessible, ← not_allAccessible_iff]
  split_ifs <;> grind

/-- The checks of `MemRead` raise nothing exactly when the load is allowed (R48). -/
theorem loadFault_eq_none_iff (s : State) (a : Word) (n : Nat) : loadFault s a n = none ↔ LoadAllowed s a n := by
  unfold loadFault
  rw [LoadAllowed, refusedMisaligned_iff, Inaccessible, ← not_allAccessible_iff]
  split_ifs <;> simp_all

/-- The checks of `MemWrite` raise exactly the first of their three conditions that holds (R49, R204). -/
theorem storeFault_eq_some_iff (s : State) (a : Word) (n : Nat) (f : Fault) :
    storeFault s a n = some f ↔
      (RefusedMisaligned s a n ∧ f = .storeAddrMisaligned a) ∨
      (¬ RefusedMisaligned s a n ∧ Inaccessible s .store a n ∧ f = .storeAccessFault a) ∨
      (¬ RefusedMisaligned s a n ∧ ¬ Inaccessible s .store a n ∧ TouchesCode s a n ∧ f = .storeToCode a) := by
  unfold storeFault
  rw [refusedMisaligned_iff, Inaccessible, ← not_allAccessible_iff, TouchesCode, ← Config.someAccessible_iff]
  split_ifs <;> grind

/-- The checks of `MemWrite` raise nothing exactly when the store is allowed (R49). -/
theorem storeFault_eq_none_iff (s : State) (a : Word) (n : Nat) : storeFault s a n = none ↔ StoreAllowed s a n := by
  unfold storeFault
  rw [StoreAllowed, refusedMisaligned_iff, Inaccessible, ← not_allAccessible_iff, TouchesCode, ← Config.someAccessible_iff]
  split_ifs <;> simp_all

/-- An allowed access ends inside the address space (R46). -/
theorem end_le_of_not_inaccessible {k : AccessKind} {a : Word} {n : Nat} (h : ¬ Inaccessible s k a n) :
    a.toNat + n ≤ 2 ^ 32 := by
  by_contra hc
  exact h (.inl (by omega))

/-- A load raises the fault of its checks, or writes its value back (R48, R140). -/
theorem loadTo_cases (rd : Reg) (a : Word) (n : Nat) (v : Word) (s : State) :
    (∃ f, loadFault s a n = some f ∧ loadTo rd a n v s = .fault f) ∨
    (LoadAllowed s a n ∧ loadTo rd a n v s = .next ((s.writeReg rd v).setPc s.nextPc)) := by
  unfold loadTo
  cases h : loadFault s a n with
  | none => exact .inr ⟨(loadFault_eq_none_iff s a n).1 h, rfl⟩
  | some f => exact .inl ⟨f, rfl, rfl⟩

/-- An allowed load completes, writing its value (R48, R140). -/
theorem loadTo_of_allowed {a : Word} {n : Nat} (h : LoadAllowed s a n) (rd : Reg) (v : Word) :
    ∃ t, loadTo rd a n v s = .next t ∧ WroteReg s t rd v (s.pc + 4) := by
  unfold loadTo
  rw [(loadFault_eq_none_iff s a n).2 h]
  exact writeBack_spec rd v s

/-- A store raises the fault of its checks, or replaces memory (R49, R140). -/
theorem storeAt_cases (a : Word) (n : Nat) (m : Memory) (s : State) :
    (∃ f, storeFault s a n = some f ∧ storeAt a n m s = .fault f) ∨
    (StoreAllowed s a n ∧ storeAt a n m s = .next ((s.setMem m).setPc s.nextPc)) := by
  unfold storeAt
  cases h : storeFault s a n with
  | none => exact .inr ⟨(storeFault_eq_none_iff s a n).1 h, rfl⟩
  | some f => exact .inl ⟨f, rfl, rfl⟩

/-- An allowed store completes with the new memory (R49, R140). -/
theorem storeAt_of_allowed {a : Word} {n : Nat} (h : StoreAllowed s a n) (m : Memory) :
    storeAt a n m s = .next ((s.setMem m).setPc s.nextPc) := by
  unfold storeAt
  rw [(storeFault_eq_none_iff s a n).2 h]

/-! ### Control transfer -/

/-- What a conditional branch can do (`43_control_flow.md` section 2, R169). -/
theorem branchIf_cases (c : Bool) (off : Word) (s : State) :
    (c = false ∧ branchIf c off s = .next (s.setPc s.nextPc)) ∨
    (c = true ∧ (s.pc + off).getLsbD 1 = false ∧ branchIf c off s = .next (s.setPc (s.pc + off))) ∨
    (c = true ∧ (s.pc + off).getLsbD 1 = true ∧ branchIf c off s = .fault (.instrAddrMisaligned (s.pc + off))) := by
  unfold branchIf raise
  cases c
  · simp
  · cases h : (s.pc + off).getLsbD 1 <;> simp

/-- What a jump can do (R167 to R169). -/
theorem jumpAndLink_cases (rd : Reg) (p : Word) (s : State) :
    (p.getLsbD 1 = false ∧ jumpAndLink rd p s = .next ((s.writeReg rd s.nextPc).setPc p)) ∨
    (p.getLsbD 1 = true ∧ jumpAndLink rd p s = .fault (.instrAddrMisaligned p)) := by
  unfold jumpAndLink raise
  cases h : p.getLsbD 1 <;> simp

/-! ### Words and bytes -/

theorem extract_low2_eq_zero_iff (w : Word) : w.extractLsb' 0 2 = 0#2 ↔ w.toNat % 4 = 0 := by
  rw [← BitVec.toNat_inj]
  simp

theorem toNat_mod4_eq_zero_iff (w : Word) : w.toNat % 4 = 0 ↔ w.getLsbD 0 = false ∧ w.getLsbD 1 = false := by
  simp only [BitVec.getLsbD, Nat.testBit, Nat.shiftRight_zero, Nat.one_and_eq_mod_two, Nat.shiftRight_one]
  simp
  omega

/-- The value of a little-endian halfword (R41). -/
theorem toNat_read16 (m : Memory) (a : Nat) : (m.read16 a).toNat = (m.read a).toNat + 2 ^ 8 * (m.read (a + 1)).toNat := by
  have h0 := (m.read a).isLt
  simp only [Memory.read16, BitVec.toNat_append]
  rw [← Nat.shiftLeft_add_eq_or_of_lt h0, Nat.shiftLeft_eq]
  omega

/-- The value of a little-endian word (R41, R43). -/
theorem toNat_read32 (m : Memory) (a : Nat) :
    (m.read32 a).toNat = (m.read a).toNat + 2 ^ 8 * (m.read (a + 1)).toNat + 2 ^ 16 * (m.read (a + 2)).toNat
      + 2 ^ 24 * (m.read (a + 3)).toNat := by
  have h0 := (m.read a).isLt
  have h1 := (m.read (a + 1)).isLt
  have h2 := (m.read (a + 2)).isLt
  simp only [Memory.read32, BitVec.toNat_append]
  rw [← Nat.shiftLeft_add_eq_or_of_lt h2, ← Nat.shiftLeft_add_eq_or_of_lt h1, ← Nat.shiftLeft_add_eq_or_of_lt h0]
  simp only [Nat.shiftLeft_eq]
  omega

/-- A word stored and read back (R42). -/
theorem read32_write32 (m : Memory) (a : Nat) (v : Word) : (m.write32 a v).read32 a = v := by
  apply BitVec.eq_of_toNat_eq
  rw [toNat_read32]
  simp [Memory.read_write32]
  omega

/-- A halfword stored and read back (R42). -/
theorem read16_write16 (m : Memory) (a : Nat) (v : Half) : (m.write16 a v).read16 a = v := by
  apply BitVec.eq_of_toNat_eq
  rw [toNat_read16]
  simp [Memory.read_write16]
  omega

/-! ### Fetch -/

/-- When the fetch gives a word, the checks of steps 1 and 2 have passed and only decoding is left (R10). -/
theorem fetchInstr_of_fetches {w : Word} (h : Fetches s w) :
    fetchInstr s =
      match decode w with
      | .error _ => .error (.illegalInstruction w)
      | .ok i => .ok i := by
  obtain ⟨hpc, hacc, hw⟩ := h
  have hw' : s.mem.read32 s.pc.toNat = w := BitVec.eq_of_toNat_eq ((toNat_read32 _ _).trans hw.symm)
  have hf : fetchWord s s.pc = .ok w := by
    unfold fetchWord
    rw [if_pos ((Config.allAccessible_iff _ _ _ _).2 hacc), hw']
  unfold fetchInstr
  rw [if_neg (not_not.2 ((extract_low2_eq_zero_iff _).2 hpc))]
  cases hd : decode w <;> simp [hf, hd]

/-- What the fetch can answer: one fault for each of steps 1 to 3, in order, or the decoded instruction (R10, R204). -/
theorem fetchInstr_cases (s : State) :
    (s.pc.toNat % 4 ≠ 0 ∧ fetchInstr s = .error (.instrAddrMisaligned s.pc)) ∨
    (s.pc.toNat % 4 = 0 ∧ (∃ j, j < 4 ∧ s.cfg.accessible .fetch (s.pc.toNat + j) = false) ∧
      fetchInstr s = .error (.fetchAccessFault s.pc)) ∨
    (∃ w e, Fetches s w ∧ decode w = .error e ∧ fetchInstr s = .error (.illegalInstruction w)) ∨
    (∃ w i, Fetches s w ∧ decode w = .ok i ∧ fetchInstr s = .ok i) := by
  by_cases hpc : s.pc.toNat % 4 = 0
  · cases hacc : s.cfg.allAccessible .fetch s.pc.toNat 4 with
    | false =>
      refine .inr (.inl ⟨hpc, (not_allAccessible_iff _ _ _ _).1 hacc, ?_⟩)
      unfold fetchInstr fetchWord
      rw [if_neg (not_not.2 ((extract_low2_eq_zero_iff _).2 hpc)), hacc]
      simp
    | true =>
      have hf : Fetches s (s.mem.read32 s.pc.toNat) :=
        ⟨hpc, (Config.allAccessible_iff _ _ _ _).1 hacc, toNat_read32 _ _⟩
      have := fetchInstr_of_fetches hf
      cases hd : decode (s.mem.read32 s.pc.toNat) with
      | error e => exact .inr (.inr (.inl ⟨_, e, hf, hd, by rw [this, hd]⟩))
      | ok i => exact .inr (.inr (.inr ⟨_, i, hf, hd, by rw [this, hd]⟩))
  · refine .inl ⟨hpc, ?_⟩
    unfold fetchInstr
    rw [if_pos (fun h => hpc ((extract_low2_eq_zero_iff _).1 h))]

/-- A step that goes on has fetched and decoded an instruction and executed it (R10). -/
theorem step_next (h : step s = .next t) : ∃ w i, Fetches s w ∧ decode w = .ok i ∧ exec i s = .next t := by
  rcases fetchInstr_cases s with ⟨-, hf⟩ | ⟨-, -, hf⟩ | ⟨w, e, -, -, hf⟩ | ⟨w, i, hw, hd, hf⟩ <;>
    simp only [step, hf] at h
  · cases h
  · cases h
  · cases h
  · exact ⟨w, i, hw, hd, h⟩

end Sys2Proof.Machine
end

