-- ==== Sys2Proof/Laws/Exec.lean ====
section
/-! SUPPORT. What `exec` can do when it goes on, said once for all 37 instructions. -/

namespace Sys2Proof.Machine

variable {i : Instr} {s t : State}

/-- A value was computed: rd is written and pc goes on (R110, R120, R140, R180). -/
def DidWrite (i : Instr) (s t : State) : Prop :=
  i.isStore = false ∧ i.isBranch = false ∧ i.isJump = false ∧
    ∃ rd v, i.rdField = some rd ∧ t = (s.writeReg rd v).setPc s.nextPc

/-- Bytes were stored: memory changed inside an allowed access only, in canonical form, and pc goes on (R44, R49). -/
def DidStore (i : Instr) (s t : State) : Prop :=
  i.isStore = true ∧ i.rdField = none ∧ i.isBranch = false ∧ i.isJump = false ∧
    ∃ a n m, StoreAllowed s a n ∧ t = (s.setMem m).setPc s.nextPc ∧
      (∀ b, b < a.toNat ∨ a.toNat + n ≤ b → m.read b = s.mem.read b) ∧ (s.mem.wf → m.wf)

/-- A branch was passed or taken (R161 to R166, R169). -/
def DidBranch (i : Instr) (s t : State) : Prop :=
  i.isStore = false ∧ i.rdField = none ∧ i.isBranch = true ∧ i.isJump = false ∧
    ∃ off, i.immBField = some off ∧
      (t = s.setPc s.nextPc ∨ (s.pc + sext13 off).getLsbD 1 = false ∧ t = s.setPc (s.pc + sext13 off))

/-- A jump was made, with its link (R167 to R169). -/
def DidJump (i : Instr) (s t : State) : Prop :=
  i.isStore = false ∧ i.isBranch = false ∧ i.isJump = true ∧
    ∃ rd p, i.rdField = some rd ∧ p.getLsbD 1 = false ∧ t = (s.writeReg rd s.nextPc).setPc p ∧
      ((∃ off, i.immJField = some off ∧ p = s.pc + sext21 off) ∨ p.getLsbD 0 = false)

theorem didStore_of (hs : i.isStore = true) (hrd : i.rdField = none) (hb : i.isBranch = false) (hj : i.isJump = false)
    {a : Word} {n : Nat} {m : Memory} (h : storeAt a n m s = .next t)
    (hout : ∀ b, b < a.toNat ∨ a.toNat + n ≤ b → m.read b = s.mem.read b)
    (hwf : a.toNat + n ≤ 2 ^ 32 → s.mem.wf → m.wf) : DidStore i s t := by
  rcases storeAt_cases a n m s with ⟨f, -, he⟩ | ⟨ha, he⟩
  · rw [he] at h
    cases h
  · rw [he] at h
    cases h
    exact ⟨hs, hrd, hb, hj, a, n, m, ha, rfl, hout, hwf (end_le_of_not_inaccessible ha.2.1)⟩

theorem didWrite_of_load (hs : i.isStore = false) (hb : i.isBranch = false) (hj : i.isJump = false) {rd : Reg}
    (hrd : i.rdField = some rd) {a : Word} {n : Nat} {v : Word} (h : loadTo rd a n v s = .next t) : DidWrite i s t := by
  rcases loadTo_cases rd a n v s with ⟨f, -, he⟩ | ⟨-, he⟩
  · rw [he] at h
    cases h
  · rw [he] at h
    cases h
    exact ⟨hs, hb, hj, rd, v, hrd, rfl⟩

theorem didBranch_of (hs : i.isStore = false) (hrd : i.rdField = none) (hb : i.isBranch = true) (hj : i.isJump = false)
    {c : Bool} {off : BitVec 13} (ho : i.immBField = some off) (h : branchIf c (sext13 off) s = .next t) :
    DidBranch i s t := by
  rcases branchIf_cases c (sext13 off) s with ⟨-, he⟩ | ⟨-, h1, he⟩ | ⟨-, -, he⟩ <;> rw [he] at h <;> cases h
  · exact ⟨hs, hrd, hb, hj, off, ho, .inl rfl⟩
  · exact ⟨hs, hrd, hb, hj, off, ho, .inr ⟨h1, rfl⟩⟩

/-- What `exec` can do when it answers a next state: exactly one of four shapes, by the kind of the instruction. -/
theorem exec_next_cases (h : exec i s = .next t) : DidWrite i s t ∨ DidStore i s t ∨ DidBranch i s t ∨ DidJump i s t := by
  cases i with
  | lb rd rs1 imm | lh rd rs1 imm | lw rd rs1 imm | lbu rd rs1 imm | lhu rd rs1 imm =>
    exact .inl (didWrite_of_load rfl rfl rfl rfl h)
  | sb rs1 rs2 imm =>
    exact .inr (.inl (didStore_of rfl rfl rfl rfl h
      (fun b hb => by rw [Memory.read_write_other _ _ (by omega)])
      (fun hle hm => Memory.wf_write hm (by omega))))
  | sh rs1 rs2 imm =>
    refine .inr (.inl (didStore_of rfl rfl rfl rfl h (fun b hb => ?_) (fun hle hm => Memory.wf_write16 hm hle)))
    rw [Memory.read_write16, if_neg (by omega), if_neg (by omega)]
  | sw rs1 rs2 imm =>
    refine .inr (.inl (didStore_of rfl rfl rfl rfl h (fun b hb => ?_) (fun hle hm => Memory.wf_write32 hm hle)))
    rw [Memory.read_write32, if_neg (by omega), if_neg (by omega), if_neg (by omega), if_neg (by omega)]
  | beq rs1 rs2 off | bne rs1 rs2 off | blt rs1 rs2 off | bge rs1 rs2 off | bltu rs1 rs2 off | bgeu rs1 rs2 off =>
    exact .inr (.inr (.inl (didBranch_of rfl rfl rfl rfl rfl h)))
  | jal rd off =>
    rcases jumpAndLink_cases rd (s.pc + sext21 off) s with ⟨h1, he⟩ | ⟨-, he⟩
    · cases he.symm.trans h
      exact .inr (.inr (.inr ⟨rfl, rfl, rfl, rd, _, rfl, h1, rfl, .inl ⟨off, rfl, rfl⟩⟩))
    · cases he.symm.trans h
  | jalr rd rs1 imm =>
    rcases jumpAndLink_cases rd (jalrTarget (s.readReg rs1) imm) s with ⟨h1, he⟩ | ⟨-, he⟩
    · cases he.symm.trans h
      refine .inr (.inr (.inr ⟨rfl, rfl, rfl, rd, _, rfl, h1, rfl, .inr ?_⟩))
      simp [jalrTarget]
    · cases he.symm.trans h
  | add rd rs1 rs2 | sub rd rs1 rs2 | slt rd rs1 rs2 | sltu rd rs1 rs2 | and rd rs1 rs2 | or rd rs1 rs2 | xor rd rs1 rs2
  | sll rd rs1 rs2 | srl rd rs1 rs2 | sra rd rs1 rs2 | addi rd rs1 imm | slti rd rs1 imm | sltiu rd rs1 imm
  | andi rd rs1 imm | ori rd rs1 imm | xori rd rs1 imm | slli rd rs1 sh | srli rd rs1 sh | srai rd rs1 sh | lui rd imm
  | auipc rd imm =>
    cases h
    exact .inl ⟨rfl, rfl, rfl, rd, _, rfl, rfl⟩

/-- `exec` never refuses: every instruction has its meaning. -/
theorem exec_ne_refused (i : Instr) (s : State) (r : Refusal) : exec i s ≠ .refused r := by
  have hl : ∀ rd a n v, loadTo rd a n v s ≠ .refused r := fun rd a n v h => by
    rcases loadTo_cases rd a n v s with ⟨f, -, he⟩ | ⟨-, he⟩ <;> rw [he] at h <;> cases h
  have hs : ∀ a n m, storeAt a n m s ≠ .refused r := fun a n m h => by
    rcases storeAt_cases a n m s with ⟨f, -, he⟩ | ⟨-, he⟩ <;> rw [he] at h <;> cases h
  have hb : ∀ c off, branchIf c off s ≠ .refused r := fun c off h => by
    rcases branchIf_cases c off s with ⟨-, he⟩ | ⟨-, -, he⟩ | ⟨-, -, he⟩ <;> rw [he] at h <;> cases h
  have hj : ∀ rd p, jumpAndLink rd p s ≠ .refused r := fun rd p h => by
    rcases jumpAndLink_cases rd p s with ⟨-, he⟩ | ⟨-, he⟩ <;> rw [he] at h <;> cases h
  cases i with
  | lb | lh | lw | lbu | lhu => exact hl _ _ _ _
  | sb | sh | sw => exact hs _ _ _
  | beq | bne | blt | bge | bltu | bgeu => exact hb _ _
  | jal | jalr => exact hj _ _
  | _ => exact fun h => by cases h

end Sys2Proof.Machine
end

