-- ==== Sys2Proof/Laws/PerInstr.lean ====
section
/-! SUPPORT. Per-instruction families. `FixedBits`: the word of an instruction carries the fixed bits of its row of the opcode table
(`30_encoding.md` R85 to R92, R95), whatever its operands. -/

namespace Sys2Proof.Laws

/-- The word of the instruction matches a row of the table that bears its mnemonic (R95). -/
def FixedBits.Statement (i : Instr) : Prop :=
  ∃ r ∈ opcodeTable, r.mnemonic = i.mnemonic ∧ r.matchesWord (encode i) = true

theorem FixedBits.of_row {i : Instr} (r : Row) (hr : r ∈ opcodeTable) (hm : r.mnemonic = i.mnemonic)
    (hw : encode i &&& r.mask = r.pattern) : FixedBits.Statement i :=
  ⟨r, hr, hm, by simpa [Row.matchesWord] using hw⟩

theorem FixedBits.add (rd rs1 rs2 : Reg) : FixedBits.Statement (.add rd rs1 rs2) :=
  FixedBits.of_row ⟨"ADD", 0xFE00707F#32, 0x00000033#32⟩ (by decide) rfl
    ((and_maskR_eq_iff _ 0 0 0x33).2 (by simp [encode]))

theorem FixedBits.sub (rd rs1 rs2 : Reg) : FixedBits.Statement (.sub rd rs1 rs2) :=
  FixedBits.of_row ⟨"SUB", 0xFE00707F#32, 0x40000033#32⟩ (by decide) rfl
    ((and_maskR_eq_iff _ 32 0 0x33).2 (by simp [encode]))

theorem FixedBits.slt (rd rs1 rs2 : Reg) : FixedBits.Statement (.slt rd rs1 rs2) :=
  FixedBits.of_row ⟨"SLT", 0xFE00707F#32, 0x00002033#32⟩ (by decide) rfl
    ((and_maskR_eq_iff _ 0 2 0x33).2 (by simp [encode]))

theorem FixedBits.sltu (rd rs1 rs2 : Reg) : FixedBits.Statement (.sltu rd rs1 rs2) :=
  FixedBits.of_row ⟨"SLTU", 0xFE00707F#32, 0x00003033#32⟩ (by decide) rfl
    ((and_maskR_eq_iff _ 0 3 0x33).2 (by simp [encode]))

theorem FixedBits.and (rd rs1 rs2 : Reg) : FixedBits.Statement (.and rd rs1 rs2) :=
  FixedBits.of_row ⟨"AND", 0xFE00707F#32, 0x00007033#32⟩ (by decide) rfl
    ((and_maskR_eq_iff _ 0 7 0x33).2 (by simp [encode]))

theorem FixedBits.or (rd rs1 rs2 : Reg) : FixedBits.Statement (.or rd rs1 rs2) :=
  FixedBits.of_row ⟨"OR", 0xFE00707F#32, 0x00006033#32⟩ (by decide) rfl
    ((and_maskR_eq_iff _ 0 6 0x33).2 (by simp [encode]))

theorem FixedBits.xor (rd rs1 rs2 : Reg) : FixedBits.Statement (.xor rd rs1 rs2) :=
  FixedBits.of_row ⟨"XOR", 0xFE00707F#32, 0x00004033#32⟩ (by decide) rfl
    ((and_maskR_eq_iff _ 0 4 0x33).2 (by simp [encode]))

theorem FixedBits.sll (rd rs1 rs2 : Reg) : FixedBits.Statement (.sll rd rs1 rs2) :=
  FixedBits.of_row ⟨"SLL", 0xFE00707F#32, 0x00001033#32⟩ (by decide) rfl
    ((and_maskR_eq_iff _ 0 1 0x33).2 (by simp [encode]))

theorem FixedBits.srl (rd rs1 rs2 : Reg) : FixedBits.Statement (.srl rd rs1 rs2) :=
  FixedBits.of_row ⟨"SRL", 0xFE00707F#32, 0x00005033#32⟩ (by decide) rfl
    ((and_maskR_eq_iff _ 0 5 0x33).2 (by simp [encode]))

theorem FixedBits.sra (rd rs1 rs2 : Reg) : FixedBits.Statement (.sra rd rs1 rs2) :=
  FixedBits.of_row ⟨"SRA", 0xFE00707F#32, 0x40005033#32⟩ (by decide) rfl
    ((and_maskR_eq_iff _ 32 5 0x33).2 (by simp [encode]))

theorem FixedBits.addi (rd rs1 : Reg) (imm : BitVec 12) : FixedBits.Statement (.addi rd rs1 imm) :=
  FixedBits.of_row ⟨"ADDI", 0x0000707F#32, 0x00000013#32⟩ (by decide) rfl
    ((and_maskI_eq_iff _ 0 0x13).2 (by simp [encode]))

theorem FixedBits.slti (rd rs1 : Reg) (imm : BitVec 12) : FixedBits.Statement (.slti rd rs1 imm) :=
  FixedBits.of_row ⟨"SLTI", 0x0000707F#32, 0x00002013#32⟩ (by decide) rfl
    ((and_maskI_eq_iff _ 2 0x13).2 (by simp [encode]))

theorem FixedBits.sltiu (rd rs1 : Reg) (imm : BitVec 12) : FixedBits.Statement (.sltiu rd rs1 imm) :=
  FixedBits.of_row ⟨"SLTIU", 0x0000707F#32, 0x00003013#32⟩ (by decide) rfl
    ((and_maskI_eq_iff _ 3 0x13).2 (by simp [encode]))

theorem FixedBits.andi (rd rs1 : Reg) (imm : BitVec 12) : FixedBits.Statement (.andi rd rs1 imm) :=
  FixedBits.of_row ⟨"ANDI", 0x0000707F#32, 0x00007013#32⟩ (by decide) rfl
    ((and_maskI_eq_iff _ 7 0x13).2 (by simp [encode]))

theorem FixedBits.ori (rd rs1 : Reg) (imm : BitVec 12) : FixedBits.Statement (.ori rd rs1 imm) :=
  FixedBits.of_row ⟨"ORI", 0x0000707F#32, 0x00006013#32⟩ (by decide) rfl
    ((and_maskI_eq_iff _ 6 0x13).2 (by simp [encode]))

theorem FixedBits.xori (rd rs1 : Reg) (imm : BitVec 12) : FixedBits.Statement (.xori rd rs1 imm) :=
  FixedBits.of_row ⟨"XORI", 0x0000707F#32, 0x00004013#32⟩ (by decide) rfl
    ((and_maskI_eq_iff _ 4 0x13).2 (by simp [encode]))

theorem FixedBits.slli (rd rs1 : Reg) (shamt : BitVec 5) : FixedBits.Statement (.slli rd rs1 shamt) :=
  FixedBits.of_row ⟨"SLLI", 0xFE00707F#32, 0x00001013#32⟩ (by decide) rfl
    ((and_maskR_eq_iff _ 0 1 0x13).2 (by simp [encode]))

theorem FixedBits.srli (rd rs1 : Reg) (shamt : BitVec 5) : FixedBits.Statement (.srli rd rs1 shamt) :=
  FixedBits.of_row ⟨"SRLI", 0xFE00707F#32, 0x00005013#32⟩ (by decide) rfl
    ((and_maskR_eq_iff _ 0 5 0x13).2 (by simp [encode]))

theorem FixedBits.srai (rd rs1 : Reg) (shamt : BitVec 5) : FixedBits.Statement (.srai rd rs1 shamt) :=
  FixedBits.of_row ⟨"SRAI", 0xFE00707F#32, 0x40005013#32⟩ (by decide) rfl
    ((and_maskR_eq_iff _ 32 5 0x13).2 (by simp [encode]))

theorem FixedBits.lb (rd rs1 : Reg) (imm : BitVec 12) : FixedBits.Statement (.lb rd rs1 imm) :=
  FixedBits.of_row ⟨"LB", 0x0000707F#32, 0x00000003#32⟩ (by decide) rfl
    ((and_maskI_eq_iff _ 0 0x03).2 (by simp [encode]))

theorem FixedBits.lh (rd rs1 : Reg) (imm : BitVec 12) : FixedBits.Statement (.lh rd rs1 imm) :=
  FixedBits.of_row ⟨"LH", 0x0000707F#32, 0x00001003#32⟩ (by decide) rfl
    ((and_maskI_eq_iff _ 1 0x03).2 (by simp [encode]))

theorem FixedBits.lw (rd rs1 : Reg) (imm : BitVec 12) : FixedBits.Statement (.lw rd rs1 imm) :=
  FixedBits.of_row ⟨"LW", 0x0000707F#32, 0x00002003#32⟩ (by decide) rfl
    ((and_maskI_eq_iff _ 2 0x03).2 (by simp [encode]))

theorem FixedBits.lbu (rd rs1 : Reg) (imm : BitVec 12) : FixedBits.Statement (.lbu rd rs1 imm) :=
  FixedBits.of_row ⟨"LBU", 0x0000707F#32, 0x00004003#32⟩ (by decide) rfl
    ((and_maskI_eq_iff _ 4 0x03).2 (by simp [encode]))

theorem FixedBits.lhu (rd rs1 : Reg) (imm : BitVec 12) : FixedBits.Statement (.lhu rd rs1 imm) :=
  FixedBits.of_row ⟨"LHU", 0x0000707F#32, 0x00005003#32⟩ (by decide) rfl
    ((and_maskI_eq_iff _ 5 0x03).2 (by simp [encode]))

theorem FixedBits.sb (rs1 rs2 : Reg) (imm : BitVec 12) : FixedBits.Statement (.sb rs1 rs2 imm) :=
  FixedBits.of_row ⟨"SB", 0x0000707F#32, 0x00000023#32⟩ (by decide) rfl
    ((and_maskI_eq_iff _ 0 0x23).2 (by simp [encode]))

theorem FixedBits.sh (rs1 rs2 : Reg) (imm : BitVec 12) : FixedBits.Statement (.sh rs1 rs2 imm) :=
  FixedBits.of_row ⟨"SH", 0x0000707F#32, 0x00001023#32⟩ (by decide) rfl
    ((and_maskI_eq_iff _ 1 0x23).2 (by simp [encode]))

theorem FixedBits.sw (rs1 rs2 : Reg) (imm : BitVec 12) : FixedBits.Statement (.sw rs1 rs2 imm) :=
  FixedBits.of_row ⟨"SW", 0x0000707F#32, 0x00002023#32⟩ (by decide) rfl
    ((and_maskI_eq_iff _ 2 0x23).2 (by simp [encode]))

theorem FixedBits.beq (rs1 rs2 : Reg) (off : BitVec 13) : FixedBits.Statement (.beq rs1 rs2 off) :=
  FixedBits.of_row ⟨"BEQ", 0x0000707F#32, 0x00000063#32⟩ (by decide) rfl
    ((and_maskI_eq_iff _ 0 0x63).2 (by simp [encode]))

theorem FixedBits.bne (rs1 rs2 : Reg) (off : BitVec 13) : FixedBits.Statement (.bne rs1 rs2 off) :=
  FixedBits.of_row ⟨"BNE", 0x0000707F#32, 0x00001063#32⟩ (by decide) rfl
    ((and_maskI_eq_iff _ 1 0x63).2 (by simp [encode]))

theorem FixedBits.blt (rs1 rs2 : Reg) (off : BitVec 13) : FixedBits.Statement (.blt rs1 rs2 off) :=
  FixedBits.of_row ⟨"BLT", 0x0000707F#32, 0x00004063#32⟩ (by decide) rfl
    ((and_maskI_eq_iff _ 4 0x63).2 (by simp [encode]))

theorem FixedBits.bge (rs1 rs2 : Reg) (off : BitVec 13) : FixedBits.Statement (.bge rs1 rs2 off) :=
  FixedBits.of_row ⟨"BGE", 0x0000707F#32, 0x00005063#32⟩ (by decide) rfl
    ((and_maskI_eq_iff _ 5 0x63).2 (by simp [encode]))

theorem FixedBits.bltu (rs1 rs2 : Reg) (off : BitVec 13) : FixedBits.Statement (.bltu rs1 rs2 off) :=
  FixedBits.of_row ⟨"BLTU", 0x0000707F#32, 0x00006063#32⟩ (by decide) rfl
    ((and_maskI_eq_iff _ 6 0x63).2 (by simp [encode]))

theorem FixedBits.bgeu (rs1 rs2 : Reg) (off : BitVec 13) : FixedBits.Statement (.bgeu rs1 rs2 off) :=
  FixedBits.of_row ⟨"BGEU", 0x0000707F#32, 0x00007063#32⟩ (by decide) rfl
    ((and_maskI_eq_iff _ 7 0x63).2 (by simp [encode]))

theorem FixedBits.jal (rd : Reg) (off : BitVec 21) : FixedBits.Statement (.jal rd off) :=
  FixedBits.of_row ⟨"JAL", 0x0000007F#32, 0x0000006F#32⟩ (by decide) rfl
    ((and_maskU_eq_iff _ 0x6F).2 (by simp [encode]))

theorem FixedBits.jalr (rd rs1 : Reg) (imm : BitVec 12) : FixedBits.Statement (.jalr rd rs1 imm) :=
  FixedBits.of_row ⟨"JALR", 0x0000707F#32, 0x00000067#32⟩ (by decide) rfl
    ((and_maskI_eq_iff _ 0 0x67).2 (by simp [encode]))

theorem FixedBits.lui (rd : Reg) (imm20 : BitVec 20) : FixedBits.Statement (.lui rd imm20) :=
  FixedBits.of_row ⟨"LUI", 0x0000007F#32, 0x00000037#32⟩ (by decide) rfl
    ((and_maskU_eq_iff _ 0x37).2 (by simp [encode]))

theorem FixedBits.auipc (rd : Reg) (imm20 : BitVec 20) : FixedBits.Statement (.auipc rd imm20) :=
  FixedBits.of_row ⟨"AUIPC", 0x0000007F#32, 0x00000017#32⟩ (by decide) rfl
    ((and_maskU_eq_iff _ 0x17).2 (by simp [encode]))

end Sys2Proof.Laws
end

