-- ==== Sys2Proof/Tests/Slice0.lean ====
section
/-! SUPPORT. Tests: every expected value is from `95_test_vectors.md` or worked out by hand from the rule named; then, for each statement that has hypotheses,
a witness theorem `test_witness_…` that concrete states and operands meet them together, each clause at a boundary of its range. -/

namespace Sys2Proof.Tests

open Sys2Proof Sys2Proof.Machine

/-! ### Small states -/

/-- Code below 0x1000 and from 0x2000 up, data from 0x1000 to 0x1FFF (as in V-A to V-H). -/
def codeAndData : List Window :=
  [⟨.fetch, 0x0000, 0x0FFF⟩, ⟨.fetch, 0x2000, 0xFFFFFFFF⟩, ⟨.load, 0x1000, 0x1FFF⟩, ⟨.store, 0x1000, 0x1FFF⟩]

/-- The word `w` at pc, the word `data` at 0x1000, the registers listed; everything else as after reset. -/
def stateWith (c : Config) (pc w : Word) (regs : List (Reg × Word)) (data : Word) : State :=
  { regs.foldl (fun s p => s.writeReg p.1 p.2) State.reset with
    pc := pc, mem := Memory.write32 (Memory.write32 [] 0x1000 data) pc.toNat w, cfg := c }

/-- The memory map above, `MISALIGNED_DATA` = `refuse`. -/
def refuseCfg : Config := { Config.specDefault with access := codeAndData }

/-- The memory map above, `MISALIGNED_DATA` = `bytewise`. -/
def bytewiseCfg : Config := { refuseCfg with misaligned := .bytewise }

/-- Every address admits loads and stores and none of them fetch but 0x100 to 0x103; `bytewise`. -/
def everywhereCfg : Config :=
  { Config.specDefault with
    access := [⟨.fetch, 0x100, 0x103⟩, ⟨.load, 0, 0xFFFFFFFF⟩, ⟨.store, 0, 0xFFFFFFFF⟩], misaligned := .bytewise }

/-- The state of the vectors V-A to V-H. -/
def atPc (pc w : Word) (regs : List (Reg × Word)) (data : Word) : State := stateWith refuseCfg pc w regs data

/-- A program of one instruction, `lui x0, 0x12345`, in `INIT_MEM` at `RESET_PC`. -/
def loadedCfg : Config := { refuseCfg with initMem := loadImage [] 0 [.lui 0 0x12345] }

/-- A register and pc after a step that goes on. -/
def regAfter (r : Reg) (s : State) : Option (Word × Word) :=
  match step s with
  | .next t => some (t.readReg r, t.pc)
  | .fault _ => none
  | .refused _ => none

/-- The fault of an instruction or a step, if it raises one. -/
def faultOf (o : Result) : Option Fault :=
  match o with
  | .next _ => none
  | .fault f => some f
  | .refused _ => none

/-- The word at 0x1000 and pc after a step that goes on. -/
def dataAfter (s : State) : Option (Word × Word) :=
  match step s with
  | .next t => some (t.mem.read32 0x1000, t.pc)
  | .fault _ => none
  | .refused _ => none


/-! ### Well-formedness: bit 0 of a branch or JAL offset must be 0 (R80, R82) -/

theorem test_wellFormed_beq_odd_offset : (Instr.beq 1 2 0x0005).wellFormed = false := by decide
theorem test_wellFormed_bne_odd_offset : (Instr.bne 1 2 0x0005).wellFormed = false := by decide
theorem test_wellFormed_blt_odd_offset : (Instr.blt 1 2 0x0005).wellFormed = false := by decide
theorem test_wellFormed_bge_odd_offset : (Instr.bge 1 2 0x0005).wellFormed = false := by decide
theorem test_wellFormed_bltu_odd_offset : (Instr.bltu 1 2 0x0005).wellFormed = false := by decide
theorem test_wellFormed_bgeu_odd_offset : (Instr.bgeu 1 2 0x0005).wellFormed = false := by decide
theorem test_wellFormed_jal_odd_offset : (Instr.jal 1 0x00FFFF).wellFormed = false := by decide
theorem test_wellFormed_even_offsets : (Instr.beq 1 2 0x1FFE).wellFormed = true ∧ (Instr.jal 1 0x1FFFFE).wellFormed = true := by decide

/-! ### Decoding: one word of each instruction, in the fields of its format (S-1 to S-14, V-A to V-F, P2) -/

theorem test_decode_add : decode 0b0000000_00010_00001_000_00011_0110011#32 = .ok (.add 3 1 2) := by decide
theorem test_decode_sub : decode 0b0100000_00110_00101_000_00100_0110011#32 = .ok (.sub 4 5 6) := by decide
theorem test_decode_slt : decode 0b0000000_00011_00010_010_00001_0110011#32 = .ok (.slt 1 2 3) := by decide
theorem test_decode_sltu : decode 0b0000000_00110_00101_011_00100_0110011#32 = .ok (.sltu 4 5 6) := by decide
theorem test_decode_and : decode 0b0000000_01001_01000_111_00111_0110011#32 = .ok (.and 7 8 9) := by decide
theorem test_decode_or : decode 0b0000000_01100_01011_110_01010_0110011#32 = .ok (.or 10 11 12) := by decide
theorem test_decode_xor : decode 0b0000000_00010_00001_100_00011_0110011#32 = .ok (.xor 3 1 2) := by decide
theorem test_decode_sll : decode 0b0000000_01001_01000_001_00111_0110011#32 = .ok (.sll 7 8 9) := by decide
theorem test_decode_srl : decode 0b0000000_00010_00001_101_00011_0110011#32 = .ok (.srl 3 1 2) := by decide
theorem test_decode_sra : decode 0b0100000_00010_00001_101_00011_0110011#32 = .ok (.sra 3 1 2) := by decide
theorem test_decode_addi : decode 0b000001100100_00010_000_00001_0010011#32 = .ok (.addi 1 2 100) := by decide
theorem test_decode_slti : decode 0b111111001110_00100_010_00011_0010011#32 = .ok (.slti 3 4 (-50)) := by decide
theorem test_decode_sltiu : decode 0b100000000000_01010_011_01001_0010011#32 = .ok (.sltiu 9 10 (-2048)) := by decide
theorem test_decode_andi : decode 0b000011111111_00110_111_00101_0010011#32 = .ok (.andi 5 6 0xFF) := by decide
theorem test_decode_ori : decode 0b000010000000_00100_110_00011_0010011#32 = .ok (.ori 3 4 0x80) := by decide
theorem test_decode_xori : decode 0b000011111111_00110_100_00101_0010011#32 = .ok (.xori 5 6 0xFF) := by decide
theorem test_decode_slli : decode 0b0000000_00100_00010_001_00001_0010011#32 = .ok (.slli 1 2 4) := by decide
theorem test_decode_srli : decode 0b0000000_01000_00100_101_00011_0010011#32 = .ok (.srli 3 4 8) := by decide
theorem test_decode_srai : decode 0b0100000_00010_00110_101_00101_0010011#32 = .ok (.srai 5 6 2) := by decide
theorem test_decode_lb : decode 0b000001100100_01000_000_00111_0000011#32 = .ok (.lb 7 8 100) := by decide
theorem test_decode_lh : decode 0b000000000100_00100_001_00011_0000011#32 = .ok (.lh 3 4 4) := by decide
theorem test_decode_lw : decode 0b000000001000_01000_010_00111_0000011#32 = .ok (.lw 7 8 8) := by decide
theorem test_decode_lbu : decode 0b111111111111_00110_100_00101_0000011#32 = .ok (.lbu 5 6 (-1)) := by decide
theorem test_decode_lhu : decode 0b000000000010_00001_101_00110_0000011#32 = .ok (.lhu 6 1 2) := by decide
theorem test_decode_sb : decode 0b1111111_00101_00110_000_11100_0100011#32 = .ok (.sb 6 5 (-4)) := by decide
theorem test_decode_sh : decode 0b0000000_00011_00100_001_01000_0100011#32 = .ok (.sh 4 3 8) := by decide
theorem test_decode_sw : decode 0b0000000_00001_00010_010_00000_0100011#32 = .ok (.sw 2 1 0) := by decide
theorem test_decode_beq : decode 0b1_111111_00010_00001_000_1100_1_1100011#32 = .ok (.beq 1 2 (-8)) := by decide
theorem test_decode_bne : decode 0b1_111111_00011_00010_001_1010_1_1100011#32 = .ok (.bne 2 3 (-12)) := by decide
theorem test_decode_blt : decode 0b0_000010_00101_00100_100_0000_0_1100011#32 = .ok (.blt 4 5 64) := by decide
theorem test_decode_bge : decode 0b0_000000_00010_00001_101_0100_0_1100011#32 = .ok (.bge 1 2 8) := by decide
theorem test_decode_bltu : decode 0b0_000000_00010_00001_110_0100_0_1100011#32 = .ok (.bltu 1 2 8) := by decide
theorem test_decode_bgeu : decode 0b1_111110_00111_00110_111_0000_1_1100011#32 = .ok (.bgeu 6 7 (-64)) := by decide
theorem test_decode_jal : decode 0b1_1111111000_1_11111111_00000_1101111#32 = .ok (.jal 0 (-16)) := by decide
theorem test_decode_jalr : decode 0b111111111100_00010_000_00001_1100111#32 = .ok (.jalr 1 2 (-4)) := by decide
theorem test_decode_lui : decode 0b00010010001101000101_00001_0110111#32 = .ok (.lui 1 0x12345) := by decide
theorem test_decode_auipc : decode 0b00000001000000000000_00010_0010111#32 = .ok (.auipc 2 0x1000) := by decide

/-- The offsets whose bits 11 (B) and 20, 11 (J) stand apart (V-F, V-G). -/
theorem test_decode_far_offsets :
    decode 0x7E000EE3#32 = .ok (.beq 0 0 4092) ∧ decode 0x80000063#32 = .ok (.beq 0 0 (-4096)) ∧
      decode 0x7FDFF0EF#32 = .ok (.jal 1 1048572) ∧ decode 0x800000EF#32 = .ok (.jal 1 (-1048576)) := by decide

/-- The words of V-I match nothing. -/
def illegalWords : List Word :=
  [0x00000000, 0xFFFFFFFF, 0x00000001, 0x00000012, 0x00000073, 0x00100073, 0x30200073, 0xC0001073, 0x0000000F, 0x0000100F,
    0x40001033, 0x40002033, 0x02000033, 0x40001013, 0x02001013, 0x20005013, 0x00003003, 0x00006003, 0x00007003, 0x00003023,
    0x00002063, 0x00003063, 0x00001067]

theorem test_illegal_words : illegalWords.all (fun w => faultOf (step (atPc 0x100 w [] 0)) == some (.illegalInstruction w)) = true := by decide

theorem test_decode_errors :
    decode 0x00000073#32 = .error (.unknownOpcode 0x73) ∧ decode 0x00003003#32 = .error (.unknownFunct3 0x03 3) ∧
      decode 0x02000033#32 = .error (.unknownFunct7 0x33 0 1) ∧ decodeBytes [0x13, 0x00, 0x00] = .error .truncated := by decide

theorem test_decodeBytes : decodeBytes [0xB7, 0x50, 0x34, 0x12, 0x55] = .ok (.lui 1 0x12345, [0x55]) := by decide

theorem test_encodeBytes : encodeBytes (.lui 1 0x12345) = [0xB7, 0x50, 0x34, 0x12] := by decide

theorem test_decodeTableWord : decodeTableWord 32 0x40235293 = some (.srai 5 6 2) ∧ decodeTableWord 32 0x00000073 = none := by decide

/-- No two rows of the table can match one word (R95): the fixed bits of any two differ somewhere. -/
theorem test_opcodeTable_disjoint :
    opcodeTable.Pairwise (fun a b => a.mask &&& b.mask &&& a.pattern ≠ a.mask &&& b.mask &&& b.pattern) := by decide

/-! ### One step of each instruction -/

/-! V-A, V-B, V-C. -/

theorem test_add_wraps : regAfter 3 (atPc 0x100 0x002081B3 [(1, 0x7FFFFFFF), (2, 1)] 0) = some (0x80000000, 0x104) := by decide
theorem test_add_rd_is_both_sources : regAfter 1 (atPc 0x100 0x001080B3 [(1, 0x40000001)] 0) = some (0x80000002, 0x104) := by decide
theorem test_sub_borrows : regAfter 3 (atPc 0x100 0x402081B3 [(1, 0), (2, 1)] 0) = some (0xFFFFFFFF, 0x104) := by decide
theorem test_sub_wraps : regAfter 3 (atPc 0x100 0x402081B3 [(1, 0x80000000), (2, 1)] 0) = some (0x7FFFFFFF, 0x104) := by decide
theorem test_addi_negative : regAfter 3 (atPc 0x100 0xFFF08193 [(1, 0)] 0) = some (0xFFFFFFFF, 0x104) := by decide
theorem test_addi_wraps : regAfter 3 (atPc 0x100 0x7FF08193 [(1, 0x7FFFFFFF)] 0) = some (0x800007FE, 0x104) := by decide
theorem test_slt_signed : regAfter 3 (atPc 0x100 0x0020A1B3 [(1, 0x80000000), (2, 0x7FFFFFFF)] 0) = some (1, 0x104) := by decide
theorem test_slt_equal : regAfter 3 (atPc 0x100 0x0020A1B3 [(1, 5), (2, 5), (3, 9)] 0) = some (0, 0x104) := by decide
theorem test_sltu_unsigned : regAfter 3 (atPc 0x100 0x0020B1B3 [(1, 0x80000000), (2, 0x7FFFFFFF), (3, 9)] 0) = some (0, 0x104) := by decide
theorem test_sltu_x0 : regAfter 3 (atPc 0x100 0x002031B3 [(2, 9)] 0) = some (1, 0x104) := by decide
theorem test_slti_negative : regAfter 3 (atPc 0x100 0xFFF0A193 [(1, 0xFFFFFFFE)] 0) = some (1, 0x104) := by decide
theorem test_slti_equal : regAfter 3 (atPc 0x100 0x7FF0A193 [(1, 0x7FF), (3, 9)] 0) = some (0, 0x104) := by decide
theorem test_sltiu_minus_one : regAfter 3 (atPc 0x100 0xFFF0B193 [(1, 0xFFFFFFFE)] 0) = some (1, 0x104) := by decide
theorem test_sltiu_minus_2048 : regAfter 3 (atPc 0x100 0x8000B193 [(1, 0xFFFFF7FF)] 0) = some (1, 0x104) := by decide
theorem test_and : regAfter 3 (atPc 0x100 0x0020F1B3 [(1, 0xF0F0F0F0), (2, 0xFF00FF00)] 0) = some (0xF000F000, 0x104) := by decide
theorem test_or : regAfter 3 (atPc 0x100 0x0020E1B3 [(1, 0xF0F0F0F0), (2, 0xFF00FF00)] 0) = some (0xFFF0FFF0, 0x104) := by decide
theorem test_xor : regAfter 3 (atPc 0x100 0x0020C1B3 [(1, 0xF0F0F0F0), (2, 0xFF00FF00)] 0) = some (0x0FF00FF0, 0x104) := by decide
theorem test_andi_sign_extends : regAfter 3 (atPc 0x100 0xFF00F193 [(1, 0x12345678)] 0) = some (0x12345670, 0x104) := by decide
theorem test_ori_sign_extends : regAfter 3 (atPc 0x100 0x8000E193 [(1, 1)] 0) = some (0xFFFFF801, 0x104) := by decide
theorem test_xori_complements : regAfter 3 (atPc 0x100 0xFFF0C193 [(1, 0x12345678)] 0) = some (0xEDCBA987, 0x104) := by decide
theorem test_sll_31 : regAfter 3 (atPc 0x100 0x002091B3 [(1, 1), (2, 31)] 0) = some (0x80000000, 0x104) := by decide
theorem test_sll_32_is_0 : regAfter 3 (atPc 0x100 0x002091B3 [(1, 1), (2, 32)] 0) = some (1, 0x104) := by decide
theorem test_srl_33_is_1 : regAfter 3 (atPc 0x100 0x0020D1B3 [(1, 0x80000000), (2, 33)] 0) = some (0x40000000, 0x104) := by decide
theorem test_sra_fills_with_sign : regAfter 3 (atPc 0x100 0x4020D1B3 [(1, 0x80000000), (2, 31)] 0) = some (0xFFFFFFFF, 0x104) := by decide
theorem test_sra_rounds_down : regAfter 3 (atPc 0x100 0x4020D1B3 [(1, 0xFFFFFFF9), (2, 2)] 0) = some (0xFFFFFFFE, 0x104) := by decide
theorem test_slli_31 : regAfter 3 (atPc 0x100 0x01F09193 [(1, 0x80000001)] 0) = some (0x80000000, 0x104) := by decide
theorem test_srli_31 : regAfter 3 (atPc 0x100 0x01F0D193 [(1, 0x80000001)] 0) = some (1, 0x104) := by decide
theorem test_srai_1 : regAfter 3 (atPc 0x100 0x4010D193 [(1, 0x80000001)] 0) = some (0xC0000000, 0x104) := by decide

/-! V-D: the bytes 80 FF 7F 01 from 0x1000 up. -/

theorem test_lb_sign_extends : regAfter 3 (atPc 0x100 0x00008183 [(1, 0x1000)] 0x017FFF80) = some (0xFFFFFF80, 0x104) := by decide
theorem test_lbu_zero_extends : regAfter 3 (atPc 0x100 0x0000C183 [(1, 0x1000)] 0x017FFF80) = some (0x80, 0x104) := by decide
theorem test_lbu_odd_address : regAfter 3 (atPc 0x100 0x0030C183 [(1, 0x1000)] 0x017FFF80) = some (1, 0x104) := by decide
theorem test_lh_sign_extends : regAfter 3 (atPc 0x100 0x00009183 [(1, 0x1000)] 0x017FFF80) = some (0xFFFFFF80, 0x104) := by decide
theorem test_lh_positive : regAfter 3 (atPc 0x100 0x00209183 [(1, 0x1000)] 0x017FFF80) = some (0x17F, 0x104) := by decide
theorem test_lhu_zero_extends : regAfter 3 (atPc 0x100 0x0000D183 [(1, 0x1000)] 0x017FFF80) = some (0xFF80, 0x104) := by decide
theorem test_lw_rd_is_rs1 : regAfter 1 (atPc 0x100 0x0000A083 [(1, 0x1000)] 0x017FFF80) = some (0x017FFF80, 0x104) := by decide
theorem test_lw_misaligned : faultOf (step (atPc 0x100 0x0010A183 [(1, 0x1000)] 0)) = some (.loadAddrMisaligned 0x1001) := by decide

/-! V-E: the bytes 11 22 33 44 from 0x1000 up. -/

theorem test_sb_one_byte : dataAfter (atPc 0x100 0x002081A3 [(1, 0x1000), (2, 0xAABBCCDD)] 0x44332211) = some (0xDD332211, 0x104) := by decide
theorem test_sh_little_endian : dataAfter (atPc 0x100 0x00209123 [(1, 0x1000), (2, 0xAABBCCDD)] 0x44332211) = some (0xCCDD2211, 0x104) := by decide
theorem test_sw_little_endian : dataAfter (atPc 0x100 0x0020A023 [(1, 0x1000), (2, 0xAABBCCDD)] 0x44332211) = some (0xAABBCCDD, 0x104) := by decide
theorem test_sw_negative_displacement : dataAfter (atPc 0x100 0xFE20AE23 [(1, 0x1004), (2, 0xAABBCCDD)] 0x44332211) = some (0xAABBCCDD, 0x104) := by decide
theorem test_sh_misaligned :
    faultOf (step (atPc 0x100 0x002090A3 [(1, 0x1000), (2, 0xAABBCCDD)] 0)) = some (.storeAddrMisaligned 0x1001) := by decide

/-! V-F: x0 reads as zero and pc is shown. -/

theorem test_beq_taken : regAfter 0 (atPc 0x2000 0x00208863 [(1, 5), (2, 5)] 0) = some (0, 0x2010) := by decide
theorem test_beq_not_taken : regAfter 0 (atPc 0x2000 0x00208863 [(1, 5), (2, 6)] 0) = some (0, 0x2004) := by decide
theorem test_bne_backward : regAfter 0 (atPc 0x2000 0xFE2098E3 [(1, 5), (2, 6)] 0) = some (0, 0x1FF0) := by decide
theorem test_bne_not_taken : regAfter 0 (atPc 0x2000 0xFE2098E3 [(1, 5), (2, 5)] 0) = some (0, 0x2004) := by decide
theorem test_blt_signed : regAfter 0 (atPc 0x2000 0x0020C463 [(1, 0xFFFFFFFF), (2, 0)] 0) = some (0, 0x2008) := by decide
theorem test_blt_not_taken : regAfter 0 (atPc 0x2000 0x0020C463 [(1, 0), (2, 0xFFFFFFFF)] 0) = some (0, 0x2004) := by decide
theorem test_bge_equal : regAfter 0 (atPc 0x2000 0x0020D463 [(1, 7), (2, 7)] 0) = some (0, 0x2008) := by decide
theorem test_bge_not_taken : regAfter 0 (atPc 0x2000 0x0020D463 [(1, 0x80000000), (2, 0)] 0) = some (0, 0x2004) := by decide
theorem test_bltu_not_taken : regAfter 0 (atPc 0x2000 0x0020E463 [(1, 0xFFFFFFFF), (2, 0)] 0) = some (0, 0x2004) := by decide
theorem test_bltu_taken : regAfter 0 (atPc 0x2000 0x0020E463 [(1, 0), (2, 0xFFFFFFFF)] 0) = some (0, 0x2008) := by decide
theorem test_bgeu_taken : regAfter 0 (atPc 0x2000 0x0020F463 [(1, 0xFFFFFFFF), (2, 0)] 0) = some (0, 0x2008) := by decide
theorem test_bgeu_not_taken : regAfter 0 (atPc 0x2000 0x0020F463 [(1, 0), (2, 0xFFFFFFFF)] 0) = some (0, 0x2004) := by decide

/-! V-G, V-H. -/

theorem test_jal_farthest : regAfter 1 (atPc 0x2000 0x7FDFF0EF [] 0) = some (0x2004, 0x101FFC) := by decide
theorem test_jal_misaligned_target :
    faultOf (step (atPc 0x2000 0x006000EF [(1, 0x55)] 0)) = some (.instrAddrMisaligned 0x2006) := by decide
theorem test_jalr_rd_is_rs1 : regAfter 1 (atPc 0x2000 0x004080E7 [(1, 0x3000)] 0) = some (0x2004, 0x3004) := by decide
theorem test_jalr_clears_bit_0 : regAfter 1 (atPc 0x2000 0x000100E7 [(2, 0x3001)] 0) = some (0x2004, 0x3000) := by decide
theorem test_lui : regAfter 3 (atPc 0x2000 0xFFFFF1B7 [] 0) = some (0xFFFFF000, 0x2004) := by decide
theorem test_auipc_own_address : regAfter 3 (atPc 0x100 0x01000197 [] 0) = some (0x01000100, 0x104) := by decide
theorem test_auipc_wraps : regAfter 3 (atPc 0xFFFFF000 0x00001197 [(3, 9)] 0) = some (0, 0xFFFFF004) := by decide

/-! ### V-J, reset, the placing of an instruction, the assembler -/

theorem test_fetch_access_fault : faultOf (step { State.reset with pc := 0x1000 }) = some (.fetchAccessFault 0x1000) := by decide

theorem test_store_to_code :
    faultOf (step (stateWith Config.specDefault 0x100 0x0020A023 [(1, 0x200)] 0)) = some (.storeToCode 0x200) := by decide

theorem test_load_past_the_top :
    faultOf (step (stateWith everywhereCfg 0x100 0x0020A183 [(1, 0xFFFFFFFC)] 0)) = some (.loadAccessFault 0xFFFFFFFE) := by decide

theorem test_bytewise_load : regAfter 3 (stateWith bytewiseCfg 0x100 0x0010A183 [(1, 0x1000)] 0x017FFF80) = some (0x00017FFF, 0x104) := by
  decide

/-- Memory lists nothing after reset, so the word at `RESET_PC` is 0x00000000, which is illegal (R96): a program is loaded from outside. -/
theorem test_reset_runs_no_program : faultOf (step State.reset) = some (.illegalInstruction 0) := by decide

theorem test_reset_memory_wf : State.reset.mem.wf := Memory.wf_nil

theorem test_withFetchWord : regAfter 1 (State.reset.withFetchWord 32 0x123450B7) = some (0x12345000, 4) := by decide

theorem test_withFetchWord_atPcan_unfetchable_pc :
    regAfter 1 ({ State.reset with pc := 0x8000 }.withFetchWord 32 0x123450B7) = some (0x12345000, 0x8004) := by decide

theorem test_core : Sys2Proof.core.step Sys2Proof.core.reset = .fault (.illegalInstruction 0) := rfl

/-- S-1 to S-14, spelled as the source spells them. -/
theorem test_assemble_lines :
    assembleLine [] 0 "add  x1, x2, x3" = some (.add 1 2 3) ∧ assembleLine [] 0 "slti x3, x4, -50" = some (.slti 3 4 (-50)) ∧
      assembleLine [] 0 "sb x5, -1(x6)" = some (.sb 6 5 (-1)) ∧ assembleLine [] 0 "jalr x1, -4(x2)" = some (.jalr 1 2 (-4)) ∧
      assembleLine [] 0 "auipc x2, 0x1000" = some (.auipc 2 0x1000) ∧ assembleLine [] 0 "nop" = some (.addi 0 0 0) := by decide

/-- C3: the source's line with an immediate that no 12-bit field holds. -/
theorem test_assemble_out_of_range :
    assembleLine [] 0 "sltiu x9, x10, 0x80000000" = none ∧ assembleLine [] 0 "slli x1, x2, 32" = none ∧
      assembleLine [] 0 "beq x1, x2, +3" = none ∧ assembleLine [] 0 "add x1, x2, x32" = none := by decide

theorem test_assemble_labels :
    assemble 0 ["loop: addi x2, x2, -1  # count", "bne x2, x0, loop", "jal x0, end", "end:", "nop"] =
      some [.addi 2 2 (-1), .bne 2 0 (-4), .jal 0 4, .addi 0 0 0] := by decide

/-- P6: the branch raises, not the fetch at its target. -/
theorem test_branch_raises_not_the_fetch_at_its_target :
    faultOf (step (atPc 0x4 0x00000363 [(1, 1)] 0)) = some (.instrAddrMisaligned 0xA) := by decide

/-! ### Witnesses: the hypotheses of each statement are met together -/

theorem test_witness_DecodeOfEncodeIsTheInstruction :
    (Instr.add 31 0 31).wellFormed = true ∧ (Instr.bgeu 31 31 (-4096)).wellFormed = true ∧ (Instr.jal 31 1048574).wellFormed = true := by
  decide

theorem test_witness_EncodeOfDecodeIsTheWord : decode 0xFFFFFFEF#32 = .ok (.jal 31 (-2)) := by decide

/-- A word of a row, and one of none, fetched. -/
theorem test_witness_DecodeSelectsTheOneMatchingRow :
    (⟨"SRAI", 0xFE00707F#32, 0x40005013#32⟩ ∈ opcodeTable ∧ 0x41F0D193#32 &&& 0xFE00707F#32 = 0x40005013#32) ∧
      decode 0x41F0D193#32 = .ok (.srai 3 1 31) ∧
      (∀ r ∈ opcodeTable, 0x20005013#32 &&& r.mask ≠ r.pattern) ∧ Fetches (atPc 0x100 0x20005013 [] 0) 0x20005013 := by
  refine ⟨by decide, by decide, by decide, ?_⟩
  unfold Fetches
  decide

theorem test_witness_RegisterFieldsAreReadFromTheirBits :
    decode 0x01FF8FB3#32 = .ok (.add 31 31 31) ∧ (Instr.add 31 31 31).rdField = some 31 ∧ (Instr.add 31 31 31).rs1Field = some 31 ∧
      (Instr.add 31 31 31).rs2Field = some 31 ∧ decode 0x00000033#32 = .ok (.add 0 0 0) ∧ (Instr.add 0 0 0).rdField = some 0 ∧
      (Instr.add 0 0 0).rs1Field = some 0 ∧ (Instr.add 0 0 0).rs2Field = some 0 := by decide

theorem test_witness_TwelveBitImmediatesAreReadFromTheirBits :
    decode 0x80000193#32 = .ok (.addi 3 0 (-2048)) ∧ (Instr.addi 3 0 (-2048)).immIField = some 0x800 ∧
      decode 0x7FF08193#32 = .ok (.addi 3 1 2047) ∧ (Instr.addi 3 1 2047).immIField = some 0x7FF ∧
      decode 0x80208023#32 = .ok (.sb 1 2 (-2048)) ∧ (Instr.sb 1 2 (-2048)).immSField = some 0x800 ∧
      decode 0x7E208FA3#32 = .ok (.sb 1 2 2047) ∧ (Instr.sb 1 2 2047).immSField = some 0x7FF := by decide

theorem test_witness_BranchAndJumpOffsetsAreReadFromTheirBits :
    decode 0x80000063#32 = .ok (.beq 0 0 (-4096)) ∧ (Instr.beq 0 0 (-4096)).immBField = some 0x1000 ∧
      decode 0x7E000FE3#32 = .ok (.beq 0 0 4094) ∧ (Instr.beq 0 0 4094).immBField = some 0x0FFE ∧
      decode 0x800000EF#32 = .ok (.jal 1 (-1048576)) ∧ (Instr.jal 1 (-1048576)).immJField = some 0x100000 ∧
      decode 0x7FFFF0EF#32 = .ok (.jal 1 1048574) ∧ (Instr.jal 1 1048574).immJField = some 0x0FFFFE := by decide

theorem test_witness_UpperImmediatesAndShiftAmountsAreReadFromTheirBits :
    (decode 0xFFFFF1B7#32 = .ok (.lui 3 0xFFFFF) ∧ (Instr.lui 3 0xFFFFF).immUField = some 0xFFFFF) ∧
      (decode 0x41F0D193#32 = .ok (.srai 3 1 31) ∧ (Instr.srai 3 1 31).shamtField = some 31) ∧
      ((0x01F09193#32).toNat % 2 ^ 7 = 0x13 ∧ (0x01F09193#32).toNat / 2 ^ 12 % 8 = 1 ∧
        decode 0x01F09193#32 = .ok (.slli 3 1 31)) ∧
      ((0x40001013#32).toNat % 2 ^ 7 = 0x13 ∧ (0x40001013#32).toNat / 2 ^ 12 % 8 = 1) ∧
      ((0x01F0D193#32).toNat % 2 ^ 7 = 0x13 ∧ (0x01F0D193#32).toNat / 2 ^ 12 % 8 = 5 ∧
        decode 0x01F0D193#32 = .ok (.srli 3 1 31)) ∧
      ((0x20005013#32).toNat % 2 ^ 7 = 0x13 ∧ (0x20005013#32).toNat / 2 ^ 12 % 8 = 5) := by decide

theorem test_witness_EveryInstructionEndsInTwoOnes :
    ((0x00000012#32).toNat % 4 ≠ 3 ∧ Fetches (atPc 0x100 0x00000012 [] 0) 0x00000012) ∧
      (0#32).toNat % 4 ≠ 3 ∧ Fetches State.reset 0 := by
  unfold Fetches
  decide

theorem test_witness_SystemAndFenceWordsAreIllegal :
    ((0x30200073#32).toNat % 2 ^ 7 = 0b1110011 ∧ Fetches (atPc 0x100 0x30200073 [] 0) 0x30200073) ∧
      (0x0000100F#32).toNat % 2 ^ 7 = 0b0001111 ∧ Fetches (atPc 0x100 0x0000100F [] 0) 0x0000100F := by
  unfold Fetches
  decide

/-- At the last word that can be fetched. -/
theorem test_witness_StepRunsTheDecodedInstruction :
    Fetches (atPc 0xFFC 0x002081B3 [] 0) 0x002081B3 ∧ decode 0x002081B3 = .ok (.add 3 1 2) := by
  unfold Fetches
  decide

/-- pc = 1, 2 and 3; the first address that admits no fetch, whole and in part; an illegal word. -/
theorem test_witness_StepChecksPcThenFetchThenDecode :
    ((atPc 1 0x13 [] 0).pc.toNat % 4 ≠ 0 ∧ (atPc 2 0x13 [] 0).pc.toNat % 4 ≠ 0 ∧ (atPc 3 0x13 [] 0).pc.toNat % 4 ≠ 0) ∧
      ((atPc 0x1000 0x13 [] 0).pc.toNat % 4 = 0 ∧
        ∃ j, j < 4 ∧ (atPc 0x1000 0x13 [] 0).cfg.accessible .fetch ((atPc 0x1000 0x13 [] 0).pc.toNat + j) = false) ∧
      ((stateWith { refuseCfg with access := [⟨.fetch, 0, 0x102⟩] } 0x100 0x13 [] 0).pc.toNat % 4 = 0 ∧
        (stateWith { refuseCfg with access := [⟨.fetch, 0, 0x102⟩] } 0x100 0x13 [] 0).cfg.accessible .fetch (0x100 + 3) = false) ∧
      Fetches (atPc 0xFFC 0x00001067 [] 0) 0x00001067 ∧ decode 0x00001067 = .error (.unknownFunct3 0x67 1) := by
  refine ⟨by decide, ⟨by decide, 0, by decide, by decide⟩, by decide, ?_, by decide⟩
  unfold Fetches
  decide

/-- Each kind of fault of each kind of instruction occurs. -/
theorem test_witness_FaultsInExecutionAreThoseOfTheKind :
    exec (.lw 3 1 1) (atPc 0x100 0x13 [(1, 0x1000)] 0) = .fault (.loadAddrMisaligned 0x1001) ∧
      exec (.lb 3 1 (-1)) (atPc 0x100 0x13 [(1, 0x1000)] 0) = .fault (.loadAccessFault 0xFFF) ∧
      exec (.sh 1 2 1) (atPc 0x100 0x13 [(1, 0x1000)] 0) = .fault (.storeAddrMisaligned 0x1001) ∧
      exec (.sb 1 2 0) (atPc 0x100 0x13 [(1, 0xFFF)] 0) = .fault (.storeAccessFault 0xFFF) ∧
      exec (.sb 1 2 0) (stateWith Config.specDefault 0x100 0x13 [(1, 0xFFF)] 0) = .fault (.storeToCode 0xFFF) ∧
      exec (.beq 0 0 2) (atPc 0x100 0x13 [] 0) = .fault (.instrAddrMisaligned 0x102) ∧
      exec (.jal 1 (-2)) (atPc 0x100 0x13 [] 0) = .fault (.instrAddrMisaligned 0xFE) ∧
      exec (.jalr 1 0 (-1)) (atPc 0x100 0x13 [] 0) = .fault (.instrAddrMisaligned 0xFFFFFFFE) :=
  ⟨rfl, rfl, rfl, rfl, rfl, rfl, rfl, rfl⟩

theorem test_witness_ComputingInstructionsNeverFault :
    (Instr.auipc 0 0xFFFFF).isLoad = false ∧ (Instr.auipc 0 0xFFFFF).isStore = false ∧ (Instr.auipc 0 0xFFFFF).isBranch = false ∧
      (Instr.auipc 0 0xFFFFF).isJump = false := by decide

theorem test_witness_LeftShiftsMoveBitsUp :
    (0x02001013#32).toNat % 2 ^ 7 = 0x13 ∧ (0x02001013#32).toNat / 2 ^ 12 % 8 = 1 ∧ (0x02001013#32).toNat / 2 ^ 25 ≠ 0 ∧
      Fetches (atPc 0x100 0x02001013 [] 0) 0x02001013 := by
  unfold Fetches
  decide

theorem test_witness_LogicalRightShiftsDivideUnsigned :
    (0x20005013#32).toNat % 2 ^ 7 = 0x13 ∧ (0x20005013#32).toNat / 2 ^ 12 % 8 = 5 ∧ (0x20005013#32).toNat / 2 ^ 25 ≠ 0 ∧
      (0x20005013#32).toNat / 2 ^ 25 ≠ 0b0100000 ∧ Fetches (atPc 0x100 0x20005013 [] 0) 0x20005013 := by
  unfold Fetches
  decide

theorem test_witness_LuiThenAddiBuildsEveryConstant : (31 : Reg) ≠ 0 := by decide

/-- A load is allowed at the first and the last place of its window, and at the last place of the address space; not one before, nor one after. -/
theorem test_witness_LoadByteExtendsTheByte :
    0x1000 = effAddr ((atPc 0x100 0x13 [(1, 0x1000)] 0x80).readReg 1) 0 ∧
      LoadAllowed (atPc 0x100 0x13 [] 0x80) 0x1000 1 ∧ LoadAllowed (atPc 0x100 0x13 [] 0x80) 0x1FFF 1 ∧
      LoadAllowed (stateWith everywhereCfg 0x100 0x13 [] 0) 0xFFFFFFFF 1 ∧
      (atPc 0x100 0x13 [] 0x80).cfg.accessible .load 0x0FFF = false ∧ (atPc 0x100 0x13 [] 0x80).cfg.accessible .load 0x2000 = false ∧
      (atPc 0x100 0x13 [] 0x80).cfg.accessible .load 0x1FFF = true := by
  unfold LoadAllowed RefusedMisaligned Inaccessible
  decide

/-- The halfword at 0x1000 is 0xFF80; the last halfword of the window, and a misaligned one under `bytewise`; one misaligned under `refuse`; one past the window,
one whose second byte is, and one that runs past 0xFFFFFFFF. -/
theorem test_witness_LoadHalfExtendsTheHalfword :
    0x1000 = effAddr ((atPc 0x100 0x13 [(1, 0x1000)] 0x017FFF80).readReg 1) 0 ∧
      (LoadAllowed (atPc 0x100 0x13 [(1, 0x1000)] 0x017FFF80) 0x1000 2 ∧
        0xFF80 = ((atPc 0x100 0x13 [(1, 0x1000)] 0x017FFF80).byteAt 0x1000).toNat
          + 256 * ((atPc 0x100 0x13 [(1, 0x1000)] 0x017FFF80).byteAt 0x1001).toNat) ∧
      LoadAllowed (atPc 0x100 0x13 [] 0) 0x1FFE 2 ∧ LoadAllowed (stateWith bytewiseCfg 0x100 0x13 [] 0) 0x1FFD 2 ∧
      RefusedMisaligned (atPc 0x100 0x13 [] 0) 0x1FFF 2 ∧
      (¬ RefusedMisaligned (atPc 0x100 0x13 [] 0) 0x2000 2 ∧ Inaccessible (atPc 0x100 0x13 [] 0) .load 0x2000 2) ∧
      (¬ RefusedMisaligned (stateWith bytewiseCfg 0x100 0x13 [] 0) 0x1FFF 2 ∧ Inaccessible (stateWith bytewiseCfg 0x100 0x13 [] 0) .load 0x1FFF 2) ∧
      (¬ RefusedMisaligned (stateWith everywhereCfg 0x100 0x13 [] 0) 0xFFFFFFFF 2 ∧
        Inaccessible (stateWith everywhereCfg 0x100 0x13 [] 0) .load 0xFFFFFFFF 2) := by
  unfold LoadAllowed RefusedMisaligned Inaccessible
  decide

/-- The last words of the window, aligned and not, and of the address space; misaligned by one and by three under `refuse`; one past the window, one whose last byte
is, and one that runs past 0xFFFFFFFF. -/
theorem test_witness_LoadWordReadsFourBytes :
    0x1FFC = effAddr ((atPc 0x100 0x13 [(1, 0x2000)] 0).readReg 1) (-4) ∧ LoadAllowed (atPc 0x100 0x13 [(1, 0x2000)] 0) 0x1FFC 4 ∧
      LoadAllowed (stateWith bytewiseCfg 0x100 0x13 [] 0) 0x1FFB 4 ∧ LoadAllowed (stateWith everywhereCfg 0x100 0x13 [] 0) 0xFFFFFFFC 4 ∧
      RefusedMisaligned (atPc 0x100 0x13 [] 0) 0x1001 4 ∧ RefusedMisaligned (atPc 0x100 0x13 [] 0) 0x1003 4 ∧
      (¬ RefusedMisaligned (atPc 0x100 0x13 [] 0) 0x2000 4 ∧ Inaccessible (atPc 0x100 0x13 [] 0) .load 0x2000 4) ∧
      (¬ RefusedMisaligned (stateWith bytewiseCfg 0x100 0x13 [] 0) 0x1FFD 4 ∧ Inaccessible (stateWith bytewiseCfg 0x100 0x13 [] 0) .load 0x1FFD 4) ∧
      (¬ RefusedMisaligned (stateWith everywhereCfg 0x100 0x13 [] 0) 0xFFFFFFFD 4 ∧
        Inaccessible (stateWith everywhereCfg 0x100 0x13 [] 0) .load 0xFFFFFFFD 4) := by
  unfold LoadAllowed RefusedMisaligned Inaccessible
  decide

/-- The three forms at the address 0x1000. -/
theorem test_witness_StoresChangeExactlyTheirBytes_forms :
    0x1000 = effAddr ((atPc 0x100 0x13 [(1, 0x1000), (2, 0xAABBCCDD)] 0).readReg 1) 0 ∧
      BitVec.ofNat 8 ((atPc 0x100 0x13 [(1, 0x1000), (2, 0xAABBCCDD)] 0).readReg 2).toNat = 0xDD ∧
      (Instr.sb 1 2 0, 1, (0x00000023 : Word), [(0xDD : Byte)]) ∈
        [(Instr.sb 1 2 0, 1, (0x00000023 : Word), [(0xDD : Byte)]), (.sh 1 2 0, 2, 0x00001023, [0xDD, 0xCC]),
          (.sw 1 2 0, 4, 0x00002023, [0xDD, 0xCC, 0xBB, 0xAA])] := by decide

/-- A store is allowed at the first and the last place of its window, misaligned under `bytewise`, and on both sides of the one word of code. -/
theorem test_witness_StoresChangeExactlyTheirBytes :
    (StoreAllowed (atPc 0x100 0x13 [] 0) 0x1000 1 ∧ StoreAllowed (atPc 0x100 0x13 [] 0) 0x1FFF 1 ∧ StoreAllowed (atPc 0x100 0x13 [] 0) 0x1FFE 2 ∧
        StoreAllowed (stateWith bytewiseCfg 0x100 0x13 [] 0) 0x1FFD 2 ∧ StoreAllowed (atPc 0x100 0x13 [] 0) 0x1FFC 4 ∧
        StoreAllowed (stateWith everywhereCfg 0x100 0x13 [] 0) 0xFC 4 ∧ StoreAllowed (stateWith everywhereCfg 0x100 0x13 [] 0) 0x104 4) := by
  unfold StoreAllowed RefusedMisaligned Inaccessible TouchesCode
  decide

/-- A store is misaligned under `refuse`; past the window; it touches code with its first byte only and with its last byte only. -/
theorem test_witness_StoresChangeExactlyTheirBytes_faults :
    (RefusedMisaligned (atPc 0x100 0x13 [] 0) 0x1001 2 ∧ RefusedMisaligned (atPc 0x100 0x13 [] 0) 0x1003 4) ∧
    (¬ RefusedMisaligned (atPc 0x100 0x13 [] 0) 0x0FFF 1 ∧ Inaccessible (atPc 0x100 0x13 [] 0) .store 0x0FFF 1) ∧
    (¬ RefusedMisaligned (atPc 0x100 0x13 [] 0) 0x2000 2 ∧ Inaccessible (atPc 0x100 0x13 [] 0) .store 0x2000 2) ∧
    (¬ RefusedMisaligned (stateWith everywhereCfg 0x100 0x13 [] 0) 0x103 4 ∧ ¬ Inaccessible (stateWith everywhereCfg 0x100 0x13 [] 0) .store 0x103 4 ∧
      TouchesCode (stateWith everywhereCfg 0x100 0x13 [] 0) 0x103 4) ∧
    (¬ RefusedMisaligned (stateWith everywhereCfg 0x100 0x13 [] 0) 0xFD 4 ∧ ¬ Inaccessible (stateWith everywhereCfg 0x100 0x13 [] 0) .store 0xFD 4 ∧
      TouchesCode (stateWith everywhereCfg 0x100 0x13 [] 0) 0xFD 4) := by
  unfold RefusedMisaligned Inaccessible TouchesCode
  decide

theorem test_witness_LoadAfterStoreReturnsTheValue :
    (StoreAllowed (atPc 0x100 0x13 [] 0) (effAddr 0x1FFC 0) 4 ∧ LoadAllowed (atPc 0x100 0x13 [] 0) (effAddr 0x1FFC 0) 4) ∧
      (StoreAllowed (atPc 0x100 0x13 [] 0) (effAddr 0x1FFE 0) 2 ∧ LoadAllowed (atPc 0x100 0x13 [] 0) (effAddr 0x1FFE 0) 2) ∧
      (StoreAllowed (atPc 0x100 0x13 [] 0) (effAddr 0x1FFF 0) 1 ∧ LoadAllowed (atPc 0x100 0x13 [] 0) (effAddr 0x1FFF 0) 1) := by
  unfold StoreAllowed LoadAllowed RefusedMisaligned Inaccessible TouchesCode
  decide

theorem test_witness_NarrowLoadsSeeTheBytesOfAStoredWord :
    StoreAllowed (atPc 0x100 0x13 [] 0) (effAddr 0x1FFC 0) 4 ∧ effAddr 0x1FFC 1 = effAddr 0x1FFC 0 + 1 ∧ effAddr 0x1FFC 2 = effAddr 0x1FFC 0 + 2 ∧
      LoadAllowed (atPc 0x100 0x13 [] 0) (effAddr 0x1FFC 1) 1 ∧ LoadAllowed (atPc 0x100 0x13 [] 0) (effAddr 0x1FFC 2) 2 := by
  unfold StoreAllowed LoadAllowed RefusedMisaligned Inaccessible TouchesCode
  decide

/-- Each of the six comparisons holds on one pair of register values and fails on another; the offset is even; the target has bit 1 clear at the offsets 4092 and
-4096, and set at 4094 and -4094. -/
theorem test_witness_BranchesGoToTheTargetOrFallThrough :
    ((5 : Word) = 5 ∧ (5 : Word) ≠ 6 ∧ (0xFFFFFFFF : Word).toInt < (0 : Word).toInt ∧ (7 : Word).toInt ≥ (7 : Word).toInt ∧
        (0 : Word).toNat < (0xFFFFFFFF : Word).toNat ∧ (0xFFFFFFFF : Word).toNat ≥ (0 : Word).toNat) ∧
      (¬ (5 : Word) = 6 ∧ ¬ (5 : Word) ≠ 5 ∧ ¬ (0 : Word).toInt < (0xFFFFFFFF : Word).toInt ∧ ¬ (0x80000000 : Word).toInt ≥ (0 : Word).toInt ∧
        ¬ (0xFFFFFFFF : Word).toNat < (0 : Word).toNat ∧ ¬ (0 : Word).toNat ≥ (0xFFFFFFFF : Word).toNat) ∧
      ((atPc 0x2000 0x13 [(1, 5), (2, 6)] 0).readReg 1 = 5 ∧ (atPc 0x2000 0x13 [(1, 5), (2, 6)] 0).readReg 2 = 6) ∧
      ((0x0FFC : BitVec 13).toNat % 2 = 0 ∧ ((atPc 0x2000 0x13 [] 0).pc + sext13 0x0FFC).getLsbD 1 = false) ∧
      ((0x1000 : BitVec 13).toNat % 2 = 0 ∧ ((atPc 0x2000 0x13 [] 0).pc + sext13 0x1000).getLsbD 1 = false) ∧
      ((0x0FFE : BitVec 13).toNat % 2 = 0 ∧ ((atPc 0x2000 0x13 [] 0).pc + sext13 0x0FFE).getLsbD 1 = true) ∧
      ((0x1002 : BitVec 13).toNat % 2 = 0 ∧ ((atPc 0x2000 0x13 [] 0).pc + sext13 0x1002).getLsbD 1 = true) := by decide

/-- Taken branches, a JAL and a JALR to targets with bit 1 set; a branch that is not taken; a taken one to a target with bit 1 clear. -/
theorem test_witness_MisalignedTargetsFault :
    ((atPc 0x2000 0x13 [(1, 5), (2, 5)] 0).readReg 1 = (atPc 0x2000 0x13 [(1, 5), (2, 5)] 0).readReg 2 ∧
        ((atPc 0x2000 0x13 [(1, 5), (2, 5)] 0).pc + sext13 4094).getLsbD 1 = true) ∧
      ((atPc 0x2000 0x13 [(1, 5), (2, 6)] 0).readReg 1 ≠ (atPc 0x2000 0x13 [(1, 5), (2, 6)] 0).readReg 2 ∧
        ((atPc 0x2000 0x13 [(1, 5), (2, 6)] 0).pc + sext13 (-4094)).getLsbD 1 = true) ∧
      ((atPc 0x2000 0x13 [] 0).pc + sext21 1048574).getLsbD 1 = true ∧ (jalrTarget 0x3003 0).getLsbD 1 = true ∧
      ¬ ((atPc 0x2000 0x13 [(1, 5), (2, 6)] 0).readReg 1 = (atPc 0x2000 0x13 [(1, 5), (2, 6)] 0).readReg 2 ∧
        ((atPc 0x2000 0x13 [(1, 5), (2, 6)] 0).pc + sext13 4094).getLsbD 1 = true) ∧
      ¬ (True ∧ (jalrTarget 0x3001 0).getLsbD 1 = true) := by decide

theorem test_witness_JalLinksAndJumps :
    (0xFFF02000 = (atPc 0x2000 0x13 [] 0).pc + BitVec.ofInt 32 (0x100000 : BitVec 21).toInt ∧ (0x100000 : BitVec 21).toNat % 2 = 0 ∧
        (0xFFF02000 : Word).getLsbD 1 = false) ∧
      (0x00101FFE = (atPc 0x2000 0x13 [] 0).pc + BitVec.ofInt 32 (0x0FFFFE : BitVec 21).toInt ∧ (0x0FFFFE : BitVec 21).toNat % 2 = 0 ∧
        (0x00101FFE : Word).getLsbD 1 = true) := by decide

theorem test_witness_JalrLinksAndJumpsToTheOldRegisterValue :
    (0x3001 = (BitVec.ofInt 32 (((atPc 0x2000 0x13 [(1, 0x3001)] 0).readReg 1).toInt + (0 : BitVec 12).toInt)).toNat ∧ 0x3001 / 2 % 2 = 0) ∧
      (0xFFFFFFFF = (BitVec.ofInt 32 (((atPc 0x2000 0x13 [] 0).readReg 0).toInt + (0xFFF : BitVec 12).toInt)).toNat ∧ 0xFFFFFFFF / 2 % 2 = 1) := by
  decide

theorem test_witness_SelfJumpStaysForEver : Fetches (atPc 0xFFC 0x0000006F [] 0) 0x0000006F := by
  unfold Fetches
  decide

theorem test_witness_X0ReadsZeroAndDropsOnlyTheWrite :
    (Instr.lw 3 1 0).rdField.isSome = true ∧ (∃ t, exec ((Instr.lw 3 1 0).withRd 3) (atPc 0x100 0x13 [(1, 0x1000)] 5) = .next t) ∧
      exec ((Instr.lw 3 1 0).withRd 3) (atPc 0x100 0x13 [(1, 0x1001)] 5) = .fault (.loadAddrMisaligned 0x1001) :=
  ⟨rfl, ⟨_, rfl⟩, rfl⟩

/-- A register that is not rd, with an rd and with none. -/
theorem test_witness_OnlyRdIsWritten :
    (∃ t, exec (.add 31 1 2) (atPc 0x100 0x13 [(1, 5)] 0) = .next t) ∧ (Instr.add 31 1 2).rdField ≠ some 30 ∧
      (∃ t, exec (.sw 1 2 0) (atPc 0x100 0x13 [(1, 0x1000)] 0) = .next t) ∧ (Instr.sw 1 2 0).rdField ≠ some 31 :=
  ⟨⟨_, rfl⟩, by decide, ⟨_, rfl⟩, by decide⟩

/-- Two states that differ in x3 and x31 alone, which the instruction does not name; one where it faults. -/
theorem test_witness_ExecutionReadsOnlyTheNamedSources :
    (∀ r, (Instr.sub 3 1 2).rs1Field = some r ∨ (Instr.sub 3 1 2).rs2Field = some r →
        (atPc 0x100 0x13 [(1, 5), (2, 6)] 0).readReg r = (atPc 0x100 0x13 [(1, 5), (2, 6), (3, 9), (31, 9)] 0).readReg r) ∧
      (atPc 0x100 0x13 [(1, 5), (2, 6)] 0) ≠ (atPc 0x100 0x13 [(1, 5), (2, 6), (3, 9), (31, 9)] 0) ∧
      (atPc 0x100 0x13 [(1, 5), (2, 6)] 0).pc = (atPc 0x100 0x13 [(1, 5), (2, 6), (3, 9), (31, 9)] 0).pc ∧
      (atPc 0x100 0x13 [(1, 5), (2, 6)] 0).mem = (atPc 0x100 0x13 [(1, 5), (2, 6), (3, 9), (31, 9)] 0).mem ∧
      (atPc 0x100 0x13 [(1, 5), (2, 6)] 0).cfg = (atPc 0x100 0x13 [(1, 5), (2, 6), (3, 9), (31, 9)] 0).cfg ∧
      (∃ t, exec (.sub 3 1 2) (atPc 0x100 0x13 [(1, 5), (2, 6)] 0) = .next t) ∧
      exec (.lw 3 1 0) (atPc 0x100 0x13 [(1, 5)] 0) = .fault (.loadAddrMisaligned 5) :=
  ⟨by decide, by decide, rfl, rfl, rfl, ⟨_, rfl⟩, rfl⟩

theorem test_witness_OnlyStoresChangeMemory :
    (∃ t, exec (.jal 1 8) (atPc 0x100 0x13 [] 0) = .next t) ∧ (Instr.jal 1 8).isStore = false := ⟨⟨_, rfl⟩, rfl⟩

theorem test_witness_OnlyTransfersLeaveTheNextAddress :
    (∃ t, exec (.sb 1 2 0) (atPc 0x100 0x13 [(1, 0x1FFF)] 0) = .next t) ∧ (Instr.sb 1 2 0).isBranch = false ∧ (Instr.sb 1 2 0).isJump = false :=
  ⟨⟨_, rfl⟩, rfl, rfl⟩

/-- A step that goes on, a run of one step from a start state, and the three misaligned values of pc. -/
theorem test_witness_PcIsAlwaysAMultipleOfFour :
    (∃ t, step (atPc 0x100 0x06410093 [] 0) = .next t) ∧
      (loadedCfg.resetPc.toNat % 4 = 0 ∧ ∃ t, step (State.start loadedCfg (Vector.replicate 32 7)) = .next t) ∧
      (atPc 1 0x13 [] 0).pc.toNat % 4 ≠ 0 ∧ (atPc 2 0x13 [] 0).pc.toNat % 4 ≠ 0 ∧ (atPc 3 0x13 [] 0).pc.toNat % 4 ≠ 0 :=
  ⟨⟨_, rfl⟩, ⟨rfl, ⟨_, rfl⟩⟩, by decide⟩

theorem test_witness_StepKeepsTheGoodState :
    (atPc 0x100 0x0020A023 [(1, 0x1000), (2, 0xAABBCCDD)] 5).Inv ∧ (∃ t, step (atPc 0x100 0x0020A023 [(1, 0x1000), (2, 0xAABBCCDD)] 5) = .next t) :=
  ⟨⟨by decide, by decide, by decide⟩, ⟨_, rfl⟩⟩

theorem test_witness_RunsStartInAGoodState : loadedCfg.resetPc.toNat % 4 = 0 ∧ loadedCfg.initMem.wf := ⟨rfl, by decide⟩

/-- A run of one step of a loaded program; the first and the last address that can be fetched; a word that can be fetched. -/
theorem test_witness_FetchableBytesNeverChange :
    (∃ t, Steps (State.start loadedCfg (Vector.replicate 32 7)) t ∧ t.pc = 4 ∧ fetchWord t 0 = .ok 0x12345037) ∧
      (State.start loadedCfg (Vector.replicate 32 7)).cfg.accessible .fetch 0 = true ∧
      (State.start loadedCfg (Vector.replicate 32 7)).cfg.accessible .fetch 0xFFFFFFFF = true :=
  ⟨⟨_, .tail (.refl _) rfl, by decide, by decide⟩, by decide, by decide⟩

theorem test_witness_StepsKeepTheParameters : ∃ t, Steps (atPc 0x100 0x06410093 [] 0) t ∧ t.pc = 0x104 := ⟨_, .tail (.refl _) rfl, by decide⟩

theorem test_witness_RunStartsAtTheParameters : (31 : Reg) ≠ 0 ∧ (1 : Reg) ≠ 0 := by decide

/-- A run that has ended before its first step, and one that ends after a step. -/
theorem test_witness_RunEndsAtHaltPc :
    (stateWith { refuseCfg with haltPc := some 0x100 } 0x100 0x13 [] 0).cfg.haltPc =
        some (stateWith { refuseCfg with haltPc := some 0x100 } 0x100 0x13 [] 0).pc ∧
      (∃ t, runToHalt 1 (stateWith { refuseCfg with haltPc := some 0x104 } 0x100 0x13 [] 0) = .ended t ∧ t.pc = 0x104) :=
  ⟨by decide, ⟨_, rfl, by decide⟩⟩

theorem test_witness_FaultEndsTheRunInTheStateBefore : ∃ t, runToHalt 1 (atPc 0x100 0x73 [] 0) = .faulted (.illegalInstruction 0x73) t := ⟨_, rfl⟩

theorem test_witness_AssembledInstructionsAreEncodable : assembleLine [("loop".toList, 0x100)] 0x108 "beq x1, x2, loop" = some (.beq 1 2 (-8)) :=
  rfl

/-- The offset to a label is even and between the bounds. -/
def labelOffsetFits (lo hi : Int) (there here : Word) : Bool :=
  decide (lo ≤ (there - here).toInt ∧ (there - here).toInt ≤ hi ∧ (there - here).toInt % 2 = 0)

/-- A name that reads as a label and one that reads as a number; for the branches and for JAL the farthest labels, and labels out of range on each side or odd. -/
theorem test_witness_LabelsStandForRelativeOffsets :
    (isLabelName "zero_handler".toList = true ∧ isLabelName "0x10".toList = false ∧
      ∀ a : Word, ([("zero_handler".toList, a)] : Labels).lookup "zero_handler".toList = some a) ∧
      [0x1FFE, 0x0000, 0x2000, 0xFFFFFFFE, 0x1001].map (labelOffsetFits (-4096) 4094 · 0x1000) = [true, true, false, false, false] ∧
      [0x1FFFFE, 0x000000, 0x200000, 0xFFFFFFFE, 0x100001].map (labelOffsetFits (-1048576) 1048574 · 0x100000) =
        [true, true, false, false, false] :=
  ⟨⟨rfl, rfl, fun _ => rfl⟩, by decide, by decide⟩

/-- The line of S-4 in the form of R100. -/
theorem test_asm_line : asmLine "beq" [regName 1, regName 2, "loop".toList] = "beq x1, x2, loop" := by decide

end Sys2Proof.Tests
end

/-! R25: pc is a multiple of 4 in every state reached. The idea: the decoder gives even branch and jump offsets only, JALR clears bit 0 of its target,
and a transfer completes only when bit 1 of its target is clear (R169); every other instruction goes on to pc + 4. -/

namespace Sys2Proof.Machine

variable {w : Word} {i : Instr} {s t : State}

/-! ### The decoder gives well-formed instructions -/

theorem decodeOp_wellFormed (h : decodeOp w = .ok i) : i.wellFormed = true := by
  unfold decodeOp at h
  split at h <;> cases h <;> rfl

theorem decodeShiftLeftImm_wellFormed (h : decodeShiftLeftImm w = .ok i) : i.wellFormed = true := by
  unfold decodeShiftLeftImm at h
  split at h <;> cases h
  rfl

theorem decodeShiftRightImm_wellFormed (h : decodeShiftRightImm w = .ok i) : i.wellFormed = true := by
  unfold decodeShiftRightImm at h
  split at h <;> cases h <;> rfl

theorem decodeOpImm_wellFormed (h : decodeOpImm w = .ok i) : i.wellFormed = true := by
  unfold decodeOpImm at h
  split at h
  case h_2 => exact decodeShiftLeftImm_wellFormed h
  case h_6 => exact decodeShiftRightImm_wellFormed h
  all_goals
    cases h
    rfl

theorem decodeLoad_wellFormed (h : decodeLoad w = .ok i) : i.wellFormed = true := by
  unfold decodeLoad at h
  split at h <;> cases h <;> rfl

theorem decodeStore_wellFormed (h : decodeStore w = .ok i) : i.wellFormed = true := by
  unfold decodeStore at h
  split at h <;> cases h <;> rfl

theorem decodeBranch_wellFormed (h : decodeBranch w = .ok i) : i.wellFormed = true := by
  unfold decodeBranch at h
  split at h <;> cases h <;> simp [Instr.wellFormed]

theorem decodeJalr_wellFormed (h : decodeJalr w = .ok i) : i.wellFormed = true := by
  unfold decodeJalr at h
  split at h <;> cases h
  rfl

/-- A word decodes only to an instruction whose offset, if it has one, is even (R80, R82). -/
theorem decode_wellFormed (h : decode w = .ok i) : i.wellFormed = true := by
  unfold decode at h
  split at h
  · exact decodeOp_wellFormed h
  · exact decodeOpImm_wellFormed h
  · exact decodeLoad_wellFormed h
  · exact decodeStore_wellFormed h
  · exact decodeBranch_wellFormed h
  · cases h
    simp [Instr.wellFormed]
  · exact decodeJalr_wellFormed h
  · cases h
    rfl
  · cases h
    rfl
  · cases h

theorem immBField_even (hi : i.wellFormed = true) {off : BitVec 13} (ho : i.immBField = some off) :
    off.getLsbD 0 = false := by
  cases i with
  | beq | bne | blt | bge | bltu | bgeu =>
    cases ho
    simpa [Instr.wellFormed] using hi
  | _ => cases ho

theorem immJField_even (hi : i.wellFormed = true) {off : BitVec 21} (ho : i.immJField = some off) :
    off.getLsbD 0 = false := by
  cases i with
  | jal =>
    cases ho
    simpa [Instr.wellFormed] using hi
  | _ => cases ho

/-! ### Targets -/

theorem sext13_getLsbD_zero (off : BitVec 13) : (sext13 off).getLsbD 0 = off.getLsbD 0 := by
  rw [sext13, BitVec.getLsbD_signExtend]
  simp

theorem sext21_getLsbD_zero (off : BitVec 21) : (sext21 off).getLsbD 0 = off.getLsbD 0 := by
  rw [sext21, BitVec.getLsbD_signExtend]
  simp

/-- A sum of even words is even: there is no carry into bit 0. -/
theorem getLsbD_zero_add {a b : Word} (ha : a.getLsbD 0 = false) (hb : b.getLsbD 0 = false) :
    (a + b).getLsbD 0 = false := by
  rw [BitVec.getLsbD_add (by decide), ha, hb]
  simp

/-- From an aligned pc, an even offset leads to an aligned target, if bit 1 of the target is clear (R169). -/
theorem target_aligned {off : Word} (hpc : s.pc.toNat % 4 = 0) (h0 : off.getLsbD 0 = false)
    (h1 : (s.pc + off).getLsbD 1 = false) : (s.pc + off).toNat % 4 = 0 := by
  obtain ⟨hpc0, -⟩ := (toNat_mod4_eq_zero_iff _).1 hpc
  exact (toNat_mod4_eq_zero_iff _).2 ⟨getLsbD_zero_add hpc0 h0, h1⟩

theorem nextPc_aligned (hpc : s.pc.toNat % 4 = 0) : s.nextPc.toNat % 4 = 0 := by
  unfold State.nextPc
  bv_omega

/-! ### The step -/

/-- An instruction with an even offset, or none, goes on from an aligned pc to an aligned pc (R24, R169). -/
theorem exec_pc_aligned (hi : i.wellFormed = true) (hpc : s.pc.toNat % 4 = 0) (h : exec i s = .next t) :
    t.pc.toNat % 4 = 0 := by
  rcases exec_next_cases h with hw | hs | hb | hj
  case inl =>
    obtain ⟨-, -, -, rd, v, -, rfl⟩ := hw
    exact nextPc_aligned hpc
  case inr.inl =>
    obtain ⟨-, -, -, -, a, n, m, -, rfl, -⟩ := hs
    exact nextPc_aligned hpc
  case inr.inr.inl =>
    obtain ⟨-, -, -, -, off, ho, rfl | ⟨h1, rfl⟩⟩ := hb
    · exact nextPc_aligned hpc
    · exact target_aligned hpc ((sext13_getLsbD_zero off).trans (immBField_even hi ho)) h1
  case inr.inr.inr =>
    obtain ⟨-, -, -, rd, p, -, h1, rfl, ⟨off, ho, rfl⟩ | h0⟩ := hj
    · exact target_aligned hpc ((sext21_getLsbD_zero off).trans (immJField_even hi ho)) h1
    · exact (toNat_mod4_eq_zero_iff p).2 ⟨h0, h1⟩

/-- Whatever state a step starts from, the state it goes on to has an aligned pc (R25): only an aligned pc is fetched from. -/
theorem step_pc_aligned (h : step s = .next t) : t.pc.toNat % 4 = 0 := by
  obtain ⟨w, i, ⟨hpc, -⟩, hd, he⟩ := step_next h
  exact exec_pc_aligned (decode_wellFormed hd) hpc he

theorem steps_pc_aligned (h : Steps s t) (hs : s.pc.toNat % 4 = 0) : t.pc.toNat % 4 = 0 := by
  cases h with
  | refl => exact hs
  | tail _ hlast => exact step_pc_aligned hlast

/-- The alignment of pc is the first check of a step (R10, R204). -/
theorem step_of_pc_misaligned (h : s.pc.toNat % 4 ≠ 0) : step s = .fault (.instrAddrMisaligned s.pc) := by
  rcases fetchInstr_cases s with ⟨-, hf⟩ | ⟨hpc, -⟩ | ⟨w, e, ⟨hpc, -⟩, -⟩ | ⟨w, i, ⟨hpc, -⟩, -⟩
  · simp only [step, hf]
  all_goals exact absurd hpc h

/-- Settles O43: a step that goes on has fetched from an aligned pc and executed a well-formed instruction, so its next pc is aligned. -/
theorem pcIsAlwaysAMultipleOfFour : Obligations.PcIsAlwaysAMultipleOfFour :=
  ⟨fun _ _ => step_pc_aligned, fun _ _ _ hc h => steps_pc_aligned h hc, fun _ => step_of_pc_misaligned⟩

end Sys2Proof.Machine

/-! R78, R79, R80, R82: the sign-extended immediates of a decoded instruction, bit by bit, with their ranges. The idea: each decoder arm fills an
immediate from the one field function of its format; what the bits of that field are and what sign extension does to them is said once each. -/

namespace Sys2Proof.Machine

variable {w : Word} {i : Instr}

/-! ### The decoder takes each immediate from its field of the word -/

/-- Each sign-extended immediate is absent from `i`, or the field of its format in the word `w`. -/
structure ImmsReadFrom (w : Word) (i : Instr) : Prop where
  immI : i.immIField = none ∨ i.immIField = some (immIOf w)
  immS : i.immSField = none ∨ i.immSField = some (immSOf w)
  immB : i.immBField = none ∨ i.immBField = some (immBOf w)
  immJ : i.immJField = none ∨ i.immJField = some (immJOf w)

theorem eq_of_eq_none_or_eq_some {α : Type} {o : Option α} {x y : α} (h : o = none ∨ o = some x) (hy : o = some y) :
    y = x := by
  subst hy
  simpa using h

theorem decodeOp_imms (h : decodeOp w = .ok i) : ImmsReadFrom w i := by
  unfold decodeOp at h
  split at h <;> cases h <;> exact ⟨.inl rfl, .inl rfl, .inl rfl, .inl rfl⟩

theorem decodeShiftLeftImm_imms (h : decodeShiftLeftImm w = .ok i) : ImmsReadFrom w i := by
  unfold decodeShiftLeftImm at h
  split at h <;> cases h
  exact ⟨.inl rfl, .inl rfl, .inl rfl, .inl rfl⟩

theorem decodeShiftRightImm_imms (h : decodeShiftRightImm w = .ok i) : ImmsReadFrom w i := by
  unfold decodeShiftRightImm at h
  split at h <;> cases h <;> exact ⟨.inl rfl, .inl rfl, .inl rfl, .inl rfl⟩

theorem decodeOpImm_imms (h : decodeOpImm w = .ok i) : ImmsReadFrom w i := by
  unfold decodeOpImm at h
  split at h
  case h_2 => exact decodeShiftLeftImm_imms h
  case h_6 => exact decodeShiftRightImm_imms h
  all_goals
    cases h
    exact ⟨.inr rfl, .inl rfl, .inl rfl, .inl rfl⟩

theorem decodeLoad_imms (h : decodeLoad w = .ok i) : ImmsReadFrom w i := by
  unfold decodeLoad at h
  split at h <;> cases h <;> exact ⟨.inr rfl, .inl rfl, .inl rfl, .inl rfl⟩

theorem decodeStore_imms (h : decodeStore w = .ok i) : ImmsReadFrom w i := by
  unfold decodeStore at h
  split at h <;> cases h <;> exact ⟨.inl rfl, .inr rfl, .inl rfl, .inl rfl⟩

theorem decodeBranch_imms (h : decodeBranch w = .ok i) : ImmsReadFrom w i := by
  unfold decodeBranch at h
  split at h <;> cases h <;> exact ⟨.inl rfl, .inl rfl, .inr rfl, .inl rfl⟩

theorem decodeJalr_imms (h : decodeJalr w = .ok i) : ImmsReadFrom w i := by
  unfold decodeJalr at h
  split at h <;> cases h
  exact ⟨.inr rfl, .inl rfl, .inl rfl, .inl rfl⟩

/-- A word decodes only to an instruction whose immediate is the word's field of its format (R73 to R77). -/
theorem decode_imms (h : decode w = .ok i) : ImmsReadFrom w i := by
  unfold decode at h
  split at h
  · exact decodeOp_imms h
  · exact decodeOpImm_imms h
  · exact decodeLoad_imms h
  · exact decodeStore_imms h
  · exact decodeBranch_imms h
  · cases h
    exact ⟨.inl rfl, .inl rfl, .inl rfl, .inr rfl⟩
  · exact decodeJalr_imms h
  · cases h
    exact ⟨.inl rfl, .inl rfl, .inl rfl, .inl rfl⟩
  · cases h
    exact ⟨.inl rfl, .inl rfl, .inl rfl, .inl rfl⟩
  · cases h

/-! ### The bits of the fields -/

theorem immIOf_getLsbD (w : Word) {k : Nat} (hk : k < 12) : (immIOf w).getLsbD k = w.getLsbD (k + 20) := by
  simp [immIOf, hk, Nat.add_comm]

theorem immSOf_getLsbD (w : Word) {k : Nat} (hk : k < 12) :
    (immSOf w).getLsbD k = w.getLsbD (if k < 5 then k + 7 else k + 20) := by
  simp only [immSOf, BitVec.getLsbD_append, BitVec.getLsbD_extractLsb']
  grind

theorem immBOf_getLsbD (w : Word) {k : Nat} (hk : k < 13) :
    (immBOf w).getLsbD k =
      if k = 0 then false
      else w.getLsbD (if k < 5 then k + 7 else if k < 11 then k + 20 else if k = 11 then 7 else 31) := by
  simp only [immBOf, BitVec.getLsbD_append, BitVec.getLsbD_extractLsb']
  grind

theorem immJOf_getLsbD (w : Word) {k : Nat} (hk : k < 21) :
    (immJOf w).getLsbD k =
      if k = 0 then false
      else w.getLsbD (if k < 11 then k + 20 else if k = 11 then 20 else if k < 20 then k else 31) := by
  simp only [immJOf, BitVec.getLsbD_append, BitVec.getLsbD_extractLsb']
  grind

/-! ### Sign extension -/

/-- Sign extension copies the low bits and repeats the top one. -/
theorem signExtend_getLsbD_min {n : Nat} (x : BitVec (n + 1)) {k : Nat} (hk : k < 32) :
    (x.signExtend 32).getLsbD k = x.getLsbD (min k n) := by
  rw [BitVec.getLsbD_signExtend, BitVec.msb_eq_getLsbD_last]
  grind

/-- Sign extension keeps the signed value, so it stays in the range of the narrow field. -/
theorem signExtend_toInt_range {n : Nat} (x : BitVec (n + 1)) (hn : n < 32) :
    -2 ^ n ≤ (x.signExtend 32).toInt ∧ (x.signExtend 32).toInt < 2 ^ n := by
  rw [BitVec.toInt_signExtend_of_le hn]
  exact ⟨x.le_toInt, x.toInt_lt⟩

/-- A word is even as a signed number when its bit 0 is 0. -/
theorem toInt_even {v : Word} (h : v.getLsbD 0 = false) : v.toInt % 2 = 0 := by
  have hnat : v.toNat % 2 = 0 := by simpa [BitVec.getLsbD, Nat.testBit] using h
  rw [BitVec.toInt_eq_toNat_cond]
  omega

/-! ### The immediates as 32-bit values -/

theorem sext12_toInt_range (imm : BitVec 12) : -2048 ≤ (sext12 imm).toInt ∧ (sext12 imm).toInt ≤ 2047 := by
  have hrange : -2048 ≤ (sext12 imm).toInt ∧ (sext12 imm).toInt < 2048 := signExtend_toInt_range imm (by decide)
  omega

/-- `imm_I` = sext_12(inst[31:20]) (R78). -/
theorem sext12_immIOf_getLsbD (w : Word) {k : Nat} (hk : k < 32) :
    (sext12 (immIOf w)).getLsbD k = w.getLsbD (if k < 11 then k + 20 else 31) := by
  rw [sext12, signExtend_getLsbD_min _ hk, immIOf_getLsbD w (by omega)]
  grind

/-- `imm_S` = sext_12(inst[31:25] ‖ inst[11:7]) (R79). -/
theorem sext12_immSOf_getLsbD (w : Word) {k : Nat} (hk : k < 32) :
    (sext12 (immSOf w)).getLsbD k = w.getLsbD (if k < 5 then k + 7 else if k < 11 then k + 20 else 31) := by
  rw [sext12, signExtend_getLsbD_min _ hk, immSOf_getLsbD w (by omega)]
  grind

/-- `imm_B` = sext_13(inst[31] ‖ inst[7] ‖ inst[30:25] ‖ inst[11:8] ‖ 0) (R80). -/
theorem sext13_immBOf_getLsbD (w : Word) {k : Nat} (hk : k < 32) :
    (sext13 (immBOf w)).getLsbD k =
      if k = 0 then false
      else w.getLsbD (if k < 5 then k + 7 else if k < 11 then k + 20 else if k = 11 then 7 else 31) := by
  rw [sext13, signExtend_getLsbD_min _ hk, immBOf_getLsbD w (by omega)]
  grind

/-- `imm_J` = sext_21(inst[31] ‖ inst[19:12] ‖ inst[20] ‖ inst[30:21] ‖ 0) (R82). -/
theorem sext21_immJOf_getLsbD (w : Word) {k : Nat} (hk : k < 32) :
    (sext21 (immJOf w)).getLsbD k =
      if k = 0 then false
      else w.getLsbD (if k < 11 then k + 20 else if k = 11 then 20 else if k < 20 then k else 31) := by
  rw [sext21, signExtend_getLsbD_min _ hk, immJOf_getLsbD w (by omega)]
  grind

/-- The top of the range is 4094: the offset is even (R80). -/
theorem sext13_toInt_range {off : BitVec 13} (h0 : off.getLsbD 0 = false) :
    -4096 ≤ (sext13 off).toInt ∧ (sext13 off).toInt ≤ 4094 ∧ (sext13 off).toInt % 2 = 0 := by
  have heven := toInt_even ((sext13_getLsbD_zero off).trans h0)
  have hrange : -4096 ≤ (sext13 off).toInt ∧ (sext13 off).toInt < 4096 := signExtend_toInt_range off (by decide)
  omega

/-- The top of the range is 1048574: the offset is even (R82). -/
theorem sext21_toInt_range {off : BitVec 21} (h0 : off.getLsbD 0 = false) :
    -1048576 ≤ (sext21 off).toInt ∧ (sext21 off).toInt ≤ 1048574 ∧ (sext21 off).toInt % 2 = 0 := by
  have heven := toInt_even ((sext21_getLsbD_zero off).trans h0)
  have hrange : -1048576 ≤ (sext21 off).toInt ∧ (sext21 off).toInt < 1048576 := signExtend_toInt_range off (by decide)
  omega

/-! ### The statements -/

/-- Settles O5: the decoder takes `imm_I` and `imm_S` from their fields, and sign extension repeats inst[31]. -/
theorem twelveBitImmediatesAreReadFromTheirBits : Obligations.TwelveBitImmediatesAreReadFromTheirBits := by
  intro w i imm hd
  constructor
  · intro himm
    obtain rfl := eq_of_eq_none_or_eq_some (decode_imms hd).immI himm
    exact ⟨fun _ => sext12_immIOf_getLsbD w, sext12_toInt_range _⟩
  · intro himm
    obtain rfl := eq_of_eq_none_or_eq_some (decode_imms hd).immS himm
    exact ⟨fun _ => sext12_immSOf_getLsbD w, sext12_toInt_range _⟩

/-- Settles O6: the decoder takes `imm_B` and `imm_J` from their fields; bit 0 of a decoded offset is 0, which makes it even and lowers the top of
its range by one. -/
theorem branchAndJumpOffsetsAreReadFromTheirBits : Obligations.BranchAndJumpOffsetsAreReadFromTheirBits := by
  intro w i hd
  have hwf := decode_wellFormed hd
  constructor
  · intro off hoff
    have hrange := sext13_toInt_range (immBField_even hwf hoff)
    obtain rfl := eq_of_eq_none_or_eq_some (decode_imms hd).immB hoff
    exact ⟨fun _ => sext13_immBOf_getLsbD w, hrange⟩
  · intro off hoff
    have hrange := sext21_toInt_range (immJField_even hwf hoff)
    obtain rfl := eq_of_eq_none_or_eq_some (decode_imms hd).immJ hoff
    exact ⟨fun _ => sext21_immJOf_getLsbD w, hrange⟩

end Sys2Proof.Machine

/-! R111 to R116: addition, subtraction and comparison. The idea: each of these instructions is one `writeBack`, so only its value is left to prove; and
its word is built from fields, so the row's mask and the decoder read the same fields back. -/

namespace Sys2Proof.Machine

variable {i : Instr} {s : State}

/-! ### The words of the groups OP and OP-IMM -/

/-- A word of group OP lies in the row of its selectors; it is encoded so when the group's decoder gives the instruction back (R85). -/
theorem encodedBy_op (f7 : BitVec 7) (f3 : BitVec 3) {rd rs1 rs2 : Reg}
    (he : encode i = encodeR f7 rs2 rs1 f3 rd 0b0110011#7)
    (hd : decodeOp (encode i) = .ok i) : EncodedBy i 0xFE00707F (encodeR f7 0 0 f3 0 0b0110011#7) := by
  constructor
  · exact (and_maskR_eq_iff _ f7 f3 _).2 (by simp [he])
  · have hop : opcodeOf (encode i) = 0b0110011#7 := by simp [he]
    simp only [decode, hop, hd]

/-- A word of group OP-IMM lies in the row of its funct3; it is encoded so when the group's decoder gives the instruction back (R86). -/
theorem encodedBy_opImm (f3 : BitVec 3) {rd rs1 : Reg} {imm : BitVec 12}
    (he : encode i = encodeI imm rs1 f3 rd 0b0010011#7)
    (hd : decodeOpImm (encode i) = .ok i) : EncodedBy i 0x0000707F (encodeI 0 0 f3 0 0b0010011#7) := by
  constructor
  · exact (and_maskI_eq_iff _ f3 _).2 (by simp [he])
  · have hop : opcodeOf (encode i) = 0b0010011#7 := by simp [he]
    simp only [decode, hop, hd]

theorem encodedBy_add (rd rs1 rs2 : Reg) : EncodedBy (.add rd rs1 rs2) 0xFE00707F 0x00000033 :=
  encodedBy_op 0 0 rfl (by simp [encode, decodeOp])

theorem encodedBy_sub (rd rs1 rs2 : Reg) : EncodedBy (.sub rd rs1 rs2) 0xFE00707F 0x40000033 :=
  encodedBy_op 0b0100000 0 rfl (by simp [encode, decodeOp])

theorem encodedBy_slt (rd rs1 rs2 : Reg) : EncodedBy (.slt rd rs1 rs2) 0xFE00707F 0x00002033 :=
  encodedBy_op 0 0b010 rfl (by simp [encode, decodeOp])

theorem encodedBy_sltu (rd rs1 rs2 : Reg) : EncodedBy (.sltu rd rs1 rs2) 0xFE00707F 0x00003033 :=
  encodedBy_op 0 0b011 rfl (by simp [encode, decodeOp])

theorem encodedBy_addi (rd rs1 : Reg) (imm : BitVec 12) : EncodedBy (.addi rd rs1 imm) 0x0000707F 0x00000013 :=
  encodedBy_opImm 0 rfl (by simp [encode, decodeOpImm])

theorem encodedBy_slti (rd rs1 : Reg) (imm : BitVec 12) : EncodedBy (.slti rd rs1 imm) 0x0000707F 0x00002013 :=
  encodedBy_opImm 0b010 rfl (by simp [encode, decodeOpImm])

/-! ### The values -/

/-- An instruction that is one `writeBack` writes that value, in whatever form the value is stated. -/
theorem writesResult_of_writeBack {rd : Reg} {v v' : Word} (he : exec i s = writeBack rd v s) (hv : v = v') :
    WritesResult i s rd v' := by
  subst hv
  rw [WritesResult, he]
  exact writeBack_spec rd v s

/-- Read as signed, the sign-extended immediate is the immediate (R78). -/
theorem sext12_toInt (imm : BitVec 12) : (sext12 imm).toInt = imm.toInt :=
  BitVec.toInt_signExtend_of_le (by decide)

/-- The machine's sum is the low 32 bits of the exact signed sum, because the bits of a sum do not depend on the reading (R118). -/
theorem add_eq_ofInt_toInt_add (a b : Word) : a + b = BitVec.ofInt 32 (a.toInt + b.toInt) := by
  rw [BitVec.ofInt_add, BitVec.ofInt_toInt, BitVec.ofInt_toInt]

theorem sub_eq_ofInt_toInt_sub (a b : Word) : a - b = BitVec.ofInt 32 (a.toInt - b.toInt) := by
  apply BitVec.eq_of_toInt_eq
  rw [BitVec.toInt_sub, BitVec.toInt_ofInt]

theorem boolWord_ltSigned (a b : Word) : boolWord (ltSigned a b) = if a.toInt < b.toInt then 1 else 0 := by
  simp [boolWord, ltSigned]

theorem boolWord_ltUnsigned (a b : Word) : boolWord (ltUnsigned a b) = if a.toNat < b.toNat then 1 else 0 := by
  simp [boolWord, ltUnsigned]

/-! ### The statements -/

/-- Settles O16: each of the three is one `writeBack` of a sum or difference modulo 2^32. -/
theorem addSubAddiWriteTheLowBitsOfTheExactResult : Obligations.AddSubAddiWriteTheLowBitsOfTheExactResult := by
  intro s rd rs1 rs2 imm
  refine ⟨⟨encodedBy_add rd rs1 rs2, ?add⟩, ⟨encodedBy_sub rd rs1 rs2, ?sub⟩, ⟨encodedBy_addi rd rs1 imm, ?addi⟩⟩
  case add => exact writesResult_of_writeBack rfl (BitVec.add_def _ _)
  case sub => exact writesResult_of_writeBack rfl (sub_eq_ofInt_toInt_sub _ _)
  case addi =>
    rw [← sext12_toInt imm]
    exact writesResult_of_writeBack rfl (add_eq_ofInt_toInt_add _ _)

/-- Settles O17: each of the three is one `writeBack` of the truth value of its comparison. -/
theorem setLessThanWritesOneOrZero : Obligations.SetLessThanWritesOneOrZero := by
  intro s rd rs1 rs2 imm
  refine ⟨⟨encodedBy_slt rd rs1 rs2, ?slt⟩, ⟨encodedBy_sltu rd rs1 rs2, ?sltu⟩, ⟨encodedBy_slti rd rs1 imm, ?slti⟩⟩
  case slt => exact writesResult_of_writeBack rfl (boolWord_ltSigned _ _)
  case sltu => exact writesResult_of_writeBack rfl (boolWord_ltUnsigned _ _)
  case slti =>
    rw [← sext12_toInt imm]
    exact writesResult_of_writeBack rfl (boolWord_ltSigned _ _)

end Sys2Proof.Machine

/-! R121 to R133: bitwise operations and shifts. The idea: each of these instructions is one `writeBack`, so only the bits of its value are left to prove;
a register shift is an immediate shift by the low 5 bits of the register, so the two forms of a shift share the law of R133. -/

namespace Sys2Proof.Machine

variable {i : Instr} {s : State} {w : Word}

/-! ### The words -/

theorem encodedBy_and (rd rs1 rs2 : Reg) : EncodedBy (.and rd rs1 rs2) 0xFE00707F 0x00007033 :=
  encodedBy_op 0 0b111 rfl (by simp [encode, decodeOp])

theorem encodedBy_or (rd rs1 rs2 : Reg) : EncodedBy (.or rd rs1 rs2) 0xFE00707F 0x00006033 :=
  encodedBy_op 0 0b110 rfl (by simp [encode, decodeOp])

theorem encodedBy_xor (rd rs1 rs2 : Reg) : EncodedBy (.xor rd rs1 rs2) 0xFE00707F 0x00004033 :=
  encodedBy_op 0 0b100 rfl (by simp [encode, decodeOp])

theorem encodedBy_sll (rd rs1 rs2 : Reg) : EncodedBy (.sll rd rs1 rs2) 0xFE00707F 0x00001033 :=
  encodedBy_op 0 0b001 rfl (by simp [encode, decodeOp])

theorem encodedBy_srl (rd rs1 rs2 : Reg) : EncodedBy (.srl rd rs1 rs2) 0xFE00707F 0x00005033 :=
  encodedBy_op 0 0b101 rfl (by simp [encode, decodeOp])

theorem encodedBy_sra (rd rs1 rs2 : Reg) : EncodedBy (.sra rd rs1 rs2) 0xFE00707F 0x40005033 :=
  encodedBy_op 0b0100000 0b101 rfl (by simp [encode, decodeOp])

theorem encodedBy_andi (rd rs1 : Reg) (imm : BitVec 12) : EncodedBy (.andi rd rs1 imm) 0x0000707F 0x00007013 :=
  encodedBy_opImm 0b111 rfl (by simp [encode, decodeOpImm])

theorem encodedBy_ori (rd rs1 : Reg) (imm : BitVec 12) : EncodedBy (.ori rd rs1 imm) 0x0000707F 0x00006013 :=
  encodedBy_opImm 0b110 rfl (by simp [encode, decodeOpImm])

theorem encodedBy_xori (rd rs1 : Reg) (imm : BitVec 12) : EncodedBy (.xori rd rs1 imm) 0x0000707F 0x00004013 :=
  encodedBy_opImm 0b100 rfl (by simp [encode, decodeOpImm])

/-- An immediate shift is a word of group OP-IMM whose row also fixes inst[31:25] (R83, R86). -/
theorem encodedBy_shiftImm (f7 : BitVec 7) (f3 : BitVec 3) {rd rs1 : Reg} {shamt : BitVec 5}
    (he : encode i = encodeShift f7 shamt rs1 f3 rd 0b0010011#7)
    (hd : decodeOpImm (encode i) = .ok i) : EncodedBy i 0xFE00707F (encodeR f7 0 0 f3 0 0b0010011#7) := by
  constructor
  · exact (and_maskR_eq_iff _ f7 f3 _).2 (by simp [he])
  · have hop : opcodeOf (encode i) = 0b0010011#7 := by simp [he]
    simp only [decode, hop, hd]

theorem encodedBy_slli (rd rs1 : Reg) (shamt : BitVec 5) : EncodedBy (.slli rd rs1 shamt) 0xFE00707F 0x00001013 :=
  encodedBy_shiftImm 0 0b001 rfl (by simp [encode, decodeOpImm, decodeShiftLeftImm])

theorem encodedBy_srli (rd rs1 : Reg) (shamt : BitVec 5) : EncodedBy (.srli rd rs1 shamt) 0xFE00707F 0x00005013 :=
  encodedBy_shiftImm 0 0b101 rfl (by simp [encode, decodeOpImm, decodeShiftRightImm])

theorem encodedBy_srai (rd rs1 : Reg) (shamt : BitVec 5) : EncodedBy (.srai rd rs1 shamt) 0xFE00707F 0x40005013 :=
  encodedBy_shiftImm 0b0100000 0b101 rfl (by simp [encode, decodeOpImm, decodeShiftRightImm])

/-! ### Words of an immediate shift's opcode and funct3 with another selector -/

theorem opcodeOf_toNat (w : Word) : (opcodeOf w).toNat = w.toNat % 2 ^ 7 := by
  simp [opcodeOf, BitVec.extractLsb'_toNat]

theorem funct3Of_toNat (w : Word) : (funct3Of w).toNat = w.toNat / 2 ^ 12 % 8 := by
  simp [funct3Of, BitVec.extractLsb'_toNat, Nat.shiftRight_eq_div_pow]

/-- inst[31:25] is the top of the word, so no remainder is taken. -/
theorem funct7Of_toNat (w : Word) : (funct7Of w).toNat = w.toNat / 2 ^ 25 := by
  rw [funct7Of, BitVec.extractLsb'_toNat, Nat.shiftRight_eq_div_pow]
  omega

/-- A word of SLLI's opcode and funct3 is left to the selector inst[31:25] (R83, R86). -/
theorem decode_of_shiftLeftImm (hop : w.toNat % 2 ^ 7 = 0x13) (hf3 : w.toNat / 2 ^ 12 % 8 = 1) :
    decode w = decodeShiftLeftImm w := by
  have hop' : opcodeOf w = 0b0010011#7 := BitVec.eq_of_toNat_eq ((opcodeOf_toNat w).trans hop)
  have hf3' : funct3Of w = 0b001#3 := BitVec.eq_of_toNat_eq ((funct3Of_toNat w).trans hf3)
  simp only [decode, hop', decodeOpImm, hf3']

/-- A word of SRLI's and SRAI's opcode and funct3 is left to the selector inst[31:25] (R83, R86). -/
theorem decode_of_shiftRightImm (hop : w.toNat % 2 ^ 7 = 0x13) (hf3 : w.toNat / 2 ^ 12 % 8 = 5) :
    decode w = decodeShiftRightImm w := by
  have hop' : opcodeOf w = 0b0010011#7 := BitVec.eq_of_toNat_eq ((opcodeOf_toNat w).trans hop)
  have hf3' : funct3Of w = 0b101#3 := BitVec.eq_of_toNat_eq ((funct3Of_toNat w).trans hf3)
  simp only [decode, hop', decodeOpImm, hf3']

theorem decodeShiftLeftImm_error (h0 : w.toNat / 2 ^ 25 ≠ 0) : ∃ e, decodeShiftLeftImm w = .error e := by
  rw [← funct7Of_toNat] at h0
  unfold decodeShiftLeftImm
  split
  · next h => exact absurd (congrArg BitVec.toNat h) h0
  · exact ⟨_, rfl⟩

theorem decodeShiftRightImm_error (h0 : w.toNat / 2 ^ 25 ≠ 0) (h32 : w.toNat / 2 ^ 25 ≠ 0b0100000) :
    ∃ e, decodeShiftRightImm w = .error e := by
  rw [← funct7Of_toNat] at h0 h32
  unfold decodeShiftRightImm
  split
  · next h => exact absurd (congrArg BitVec.toNat h) h0
  · next h => exact absurd (congrArg BitVec.toNat h) h32
  · exact ⟨_, rfl⟩

/-- A fetched word that decodes to no instruction raises IllegalInstruction with the word (R10, R97). -/
theorem step_of_decode_error (hw : Fetches s w) (hd : ∃ e, decode w = .error e) :
    step s = .fault (.illegalInstruction w) := by
  obtain ⟨e, he⟩ := hd
  simp only [step, fetchInstr_of_fetches hw, he]

/-! ### The values -/

/-- Sign extension repeats bit 11 of the immediate (R78). -/
theorem sext12_getLsbD (imm : BitVec 12) {k : Nat} (hk : k < 32) : (sext12 imm).getLsbD k = imm.getLsbD (min k 11) :=
  signExtend_getLsbD_min imm hk

/-- The amount of a register shift is the register modulo 32 (R133). -/
theorem shiftAmount_toNat (v : Word) : (shiftAmount v).toNat = v.toNat % 32 := by
  simp [shiftAmount, BitVec.extractLsb'_toNat]

theorem shiftLeft_getLsbD (a : Word) (n : BitVec 5) {k : Nat} (hk : k < 32) :
    (shiftLeft a n).getLsbD k = if n.toNat ≤ k then a.getLsbD (k - n.toNat) else false := by
  rw [shiftLeft, BitVec.getLsbD_shiftLeft]
  split <;> simp [*]

theorem shiftRightLogical_getLsbD (a : Word) (n : BitVec 5) (k : Nat) :
    (shiftRightLogical a n).getLsbD k = if k + n.toNat ≤ 31 then a.getLsbD (k + n.toNat) else false := by
  rw [shiftRightLogical, BitVec.getLsbD_ushiftRight, Nat.add_comm]
  split
  · rfl
  · exact BitVec.getLsbD_of_ge _ _ (by omega)

theorem shiftRightLogical_toNat (a : Word) (n : BitVec 5) :
    (shiftRightLogical a n).toNat = a.toNat / 2 ^ n.toNat := by
  rw [shiftRightLogical, BitVec.toNat_ushiftRight, Nat.shiftRight_eq_div_pow]

/-- Every bit that enters from above is the sign, bit 31. -/
theorem shiftRightArith_getLsbD (a : Word) (n : BitVec 5) {k : Nat} (hk : k < 32) :
    (shiftRightArith a n).getLsbD k = a.getLsbD (min (k + n.toNat) 31) := by
  rw [shiftRightArith, BitVec.getLsbD_sshiftRight, BitVec.msb_eq_getLsbD_last, Nat.add_comm]
  grind

theorem shiftRightArith_toInt (a : Word) (n : BitVec 5) :
    (shiftRightArith a n).toInt = a.toInt / 2 ^ n.toNat := by
  rw [shiftRightArith, BitVec.toInt_sshiftRight, Int.shiftRight_eq_div_pow, Nat.cast_pow, Nat.cast_ofNat]

/-! ### The statements -/

/-- Settles O19: each of the three is one `writeBack` of the bitwise operation. -/
theorem andOrXorWorkBitByBit : Obligations.AndOrXorWorkBitByBit := by
  intro s rd rs1 rs2
  refine ⟨⟨encodedBy_and rd rs1 rs2, _, writesResult_of_writeBack rfl rfl, ?and⟩,
    ⟨encodedBy_or rd rs1 rs2, _, writesResult_of_writeBack rfl rfl, ?or⟩,
    ⟨encodedBy_xor rd rs1 rs2, _, writesResult_of_writeBack rfl rfl, ?xor⟩⟩
  case and => exact fun _ _ => BitVec.getLsbD_and
  case or => exact fun _ _ => BitVec.getLsbD_or
  case xor => exact fun _ _ => BitVec.getLsbD_xor

/-- Settles O20: each of the three is one `writeBack` of the bitwise operation with the sign-extended immediate. -/
theorem andiOriXoriSignExtendTheImmediate : Obligations.AndiOriXoriSignExtendTheImmediate := by
  intro s rd rs1 imm
  refine ⟨⟨encodedBy_andi rd rs1 imm, _, writesResult_of_writeBack rfl rfl, fun k hk => ?andi⟩,
    ⟨encodedBy_ori rd rs1 imm, _, writesResult_of_writeBack rfl rfl, fun k hk => ?ori⟩,
    ⟨encodedBy_xori rd rs1 imm, _, writesResult_of_writeBack rfl rfl, fun k hk => ?xori⟩⟩
  case andi => rw [BitVec.getLsbD_and, sext12_getLsbD imm hk]
  case ori => rw [BitVec.getLsbD_or, sext12_getLsbD imm hk]
  case xori => rw [BitVec.getLsbD_xor, sext12_getLsbD imm hk]

/-- Settles O21: SLL and SLLI are one `writeBack` of the left shift; a word of SLLI's opcode and funct3 with another selector does not decode. -/
theorem leftShiftsMoveBitsUp : Obligations.LeftShiftsMoveBitsUp := by
  intro s rd rs1 rs2 shamt
  rw [← shiftAmount_toNat]
  refine ⟨⟨encodedBy_sll rd rs1 rs2, _, writesResult_of_writeBack rfl rfl, ?sll⟩,
    ⟨encodedBy_slli rd rs1 shamt, _, writesResult_of_writeBack rfl rfl, ?slli⟩, ?illegal⟩
  case sll | slli => exact fun _ => shiftLeft_getLsbD _ _
  case illegal =>
    intro w hop hf3 h0 hw
    exact step_of_decode_error hw (decode_of_shiftLeftImm hop hf3 ▸ decodeShiftLeftImm_error h0)

/-- Settles O22: SRL and SRLI are one `writeBack` of the logical right shift; a word of their opcode and funct3 with a selector that is neither SRLI's
nor SRAI's does not decode. -/
theorem logicalRightShiftsDivideUnsigned : Obligations.LogicalRightShiftsDivideUnsigned := by
  intro s rd rs1 rs2 shamt
  rw [← shiftAmount_toNat]
  refine ⟨⟨encodedBy_srl rd rs1 rs2, _, writesResult_of_writeBack rfl rfl, ?srl⟩,
    ⟨encodedBy_srli rd rs1 shamt, _, writesResult_of_writeBack rfl rfl, ?srli⟩, ?illegal⟩
  case srl | srli => exact ⟨fun k _ => shiftRightLogical_getLsbD _ _ k, shiftRightLogical_toNat _ _⟩
  case illegal =>
    intro w hop hf3 h0 h32 hw
    exact step_of_decode_error hw (decode_of_shiftRightImm hop hf3 ▸ decodeShiftRightImm_error h0 h32)

/-- Settles O23: SRA and SRAI are one `writeBack` of the arithmetic right shift. -/
theorem arithmeticRightShiftsDivideTowardMinusInfinity :
    Obligations.ArithmeticRightShiftsDivideTowardMinusInfinity := by
  intro s rd rs1 rs2 shamt
  rw [← shiftAmount_toNat]
  refine ⟨⟨encodedBy_sra rd rs1 rs2, _, writesResult_of_writeBack rfl rfl, ?sra⟩,
    ⟨encodedBy_srai rd rs1 shamt, _, writesResult_of_writeBack rfl rfl, ?srai⟩⟩
  case sra | srai => exact ⟨fun _ => shiftRightArith_getLsbD _ _, shiftRightArith_toInt _ _⟩

end Sys2Proof.Machine

/-! R140 to R149: loads and stores. The idea: each of these instructions is one `loadTo` or `storeAt`, whose checks decide between completion and the
first fault that applies, whatever the width; what is left for each width is the value read, or the bytes written. -/

namespace Sys2Proof.Machine

variable {i : Instr} {s : State}

/-! ### The words -/

/-- An instruction that its word decodes to is encoded in the row of the word's funct3 and opcode (R86 to R90, R95). -/
theorem encodedBy_of_funct3_opcode (f3 : BitVec 3) (op : BitVec 7) (hf : funct3Of (encode i) = f3)
    (hop : opcodeOf (encode i) = op) (hd : decode (encode i) = .ok i) : EncodedBy i 0x0000707F (encodeI 0 0 f3 0 op) :=
  ⟨(and_maskI_eq_iff _ f3 op).2 ⟨hf, hop⟩, hd⟩

/-- A load is encoded in the row of its funct3 when the group's decoder gives it back (R87). -/
theorem encodedBy_load (f3 : BitVec 3) {rd rs1 : Reg} {imm : BitVec 12}
    (he : encode i = encodeI imm rs1 f3 rd 0b0000011#7)
    (hd : decodeLoad (encode i) = .ok i) : EncodedBy i 0x0000707F (encodeI 0 0 f3 0 0b0000011#7) := by
  have hop : opcodeOf (encode i) = 0b0000011#7 := by simp [he]
  exact encodedBy_of_funct3_opcode f3 _ (by simp [he]) hop (by simp only [decode, hop, hd])

/-- A store is encoded in the row of its funct3 when the group's decoder gives it back (R88). -/
theorem encodedBy_store (f3 : BitVec 3) {rs1 rs2 : Reg} {imm : BitVec 12}
    (he : encode i = encodeS imm rs2 rs1 f3 0b0100011#7)
    (hd : decodeStore (encode i) = .ok i) : EncodedBy i 0x0000707F (encodeI 0 0 f3 0 0b0100011#7) := by
  have hop : opcodeOf (encode i) = 0b0100011#7 := by simp [he]
  exact encodedBy_of_funct3_opcode f3 _ (by simp [he]) hop (by simp only [decode, hop, hd])

theorem encodedBy_lb (rd rs1 : Reg) (imm : BitVec 12) : EncodedBy (.lb rd rs1 imm) 0x0000707F 0x00000003 :=
  encodedBy_load 0 rfl (by simp [encode, decodeLoad])

theorem encodedBy_lh (rd rs1 : Reg) (imm : BitVec 12) : EncodedBy (.lh rd rs1 imm) 0x0000707F 0x00001003 :=
  encodedBy_load 0b001 rfl (by simp [encode, decodeLoad])

theorem encodedBy_lw (rd rs1 : Reg) (imm : BitVec 12) : EncodedBy (.lw rd rs1 imm) 0x0000707F 0x00002003 :=
  encodedBy_load 0b010 rfl (by simp [encode, decodeLoad])

theorem encodedBy_lbu (rd rs1 : Reg) (imm : BitVec 12) : EncodedBy (.lbu rd rs1 imm) 0x0000707F 0x00004003 :=
  encodedBy_load 0b100 rfl (by simp [encode, decodeLoad])

theorem encodedBy_lhu (rd rs1 : Reg) (imm : BitVec 12) : EncodedBy (.lhu rd rs1 imm) 0x0000707F 0x00005003 :=
  encodedBy_load 0b101 rfl (by simp [encode, decodeLoad])

theorem encodedBy_sb (rs1 rs2 : Reg) (imm : BitVec 12) : EncodedBy (.sb rs1 rs2 imm) 0x0000707F 0x00000023 :=
  encodedBy_store 0 rfl (by simp [encode, decodeStore])

theorem encodedBy_sh (rs1 rs2 : Reg) (imm : BitVec 12) : EncodedBy (.sh rs1 rs2 imm) 0x0000707F 0x00001023 :=
  encodedBy_store 0b001 rfl (by simp [encode, decodeStore])

theorem encodedBy_sw (rs1 rs2 : Reg) (imm : BitVec 12) : EncodedBy (.sw rs1 rs2 imm) 0x0000707F 0x00002023 :=
  encodedBy_store 0b010 rfl (by simp [encode, decodeStore])

/-! ### The outcomes of the checks -/

section Access

variable {a : Word} {n : Nat}

theorem loadTo_of_loadFault {f : Fault} (h : loadFault s a n = some f) (rd : Reg) (v : Word) :
    loadTo rd a n v s = .fault f := by
  simp only [loadTo, h, raise]

theorem loadTo_of_refusedMisaligned (h : RefusedMisaligned s a n) (rd : Reg) (v : Word) :
    loadTo rd a n v s = .fault (.loadAddrMisaligned a) :=
  loadTo_of_loadFault ((loadFault_eq_some_iff s a n _).2 (.inl ⟨h, rfl⟩)) rd v

theorem loadTo_of_inaccessible (hm : ¬ RefusedMisaligned s a n) (h : Inaccessible s .load a n) (rd : Reg) (v : Word) :
    loadTo rd a n v s = .fault (.loadAccessFault a) :=
  loadTo_of_loadFault ((loadFault_eq_some_iff s a n _).2 (.inr ⟨hm, h, rfl⟩)) rd v

/-- An instruction that is one allowed `loadTo` writes that value, in whatever form the value is stated. -/
theorem writesResult_of_loadTo {rd : Reg} {v v' : Word} (ha : LoadAllowed s a n) (he : exec i s = loadTo rd a n v s)
    (hv : v = v') : WritesResult i s rd v' := by
  subst hv
  rw [WritesResult, he]
  exact loadTo_of_allowed ha rd v

theorem storeAt_of_storeFault {f : Fault} (h : storeFault s a n = some f) (m : Memory) :
    storeAt a n m s = .fault f := by
  simp only [storeAt, h, raise]

/-- An instruction that is one `storeAt` has the four outcomes of `MemWrite`: it completes with the bytes that the new memory holds, or raises the
first of the three faults whose condition holds (R49, R204). -/
theorem outcomes_of_storeAt {m : Memory} {bs : List Byte} (he : exec i s = storeAt a n m s)
    (hb : StoredBytes s ((s.setMem m).setPc s.nextPc) a.toNat bs) :
    (StoreAllowed s a n → ∃ t, exec i s = .next t ∧ StoredBytes s t a.toNat bs) ∧
    (RefusedMisaligned s a n → exec i s = .fault (.storeAddrMisaligned a)) ∧
    (¬ RefusedMisaligned s a n → Inaccessible s .store a n → exec i s = .fault (.storeAccessFault a)) ∧
    (¬ RefusedMisaligned s a n → ¬ Inaccessible s .store a n → TouchesCode s a n → exec i s = .fault (.storeToCode a)) := by
  rw [he]
  refine ⟨fun h => ⟨_, storeAt_of_allowed h m, hb⟩, ?misaligned, ?access, ?code⟩
  all_goals intros; refine storeAt_of_storeFault ((storeFault_eq_some_iff s a n _).2 ?_) m
  case misaligned h => exact .inl ⟨h, rfl⟩
  case access hm h => exact .inr (.inl ⟨hm, h, rfl⟩)
  case code hm hi h => exact .inr (.inr ⟨hm, hi, h, rfl⟩)

/-- One byte is never misaligned. -/
theorem not_refusedMisaligned_one (s : State) (a : Word) : ¬ RefusedMisaligned s a 1 :=
  fun h => h.1 (Nat.mod_one _)

/-- One byte never runs past 0xFFFFFFFF, so only its own window counts. -/
theorem inaccessible_one_iff (s : State) (k : AccessKind) (a : Word) :
    Inaccessible s k a 1 ↔ s.cfg.accessible k a.toNat = false := by
  rw [Inaccessible, or_iff_right (by omega)]
  simp

theorem loadAllowed_one_iff (s : State) (a : Word) : LoadAllowed s a 1 ↔ s.cfg.accessible .load a.toNat = true := by
  simp [LoadAllowed, not_refusedMisaligned_one, inaccessible_one_iff]

end Access

/-! ### The values loaded -/

theorem zextByte_eq_ofNat (b : Byte) : zextByte b = BitVec.ofNat 32 b.toNat :=
  (BitVec.ofNat_toNat 32 b).symm

theorem zextHalf_eq_ofNat (h : Half) : zextHalf h = BitVec.ofNat 32 h.toNat :=
  (BitVec.ofNat_toNat 32 h).symm

/-- Sign extension reads a halfword of 0x8000 and above as its value minus 2^16 (R143). -/
theorem sextHalf_eq_ofInt (h : Half) :
    sextHalf h = BitVec.ofInt 32 (if h.toNat < 0x8000 then (h.toNat : Int) else (h.toNat : Int) - 0x10000) := by
  rw [sextHalf, BitVec.signExtend, BitVec.toInt_eq_toNat_cond]
  congr 1
  split_ifs <;> omega

theorem read32_eq_ofNat (m : Memory) (a : Nat) :
    m.read32 a = BitVec.ofNat 32 ((m.read a).toNat + 2 ^ 8 * (m.read (a + 1)).toNat + 2 ^ 16 * (m.read (a + 2)).toNat
      + 2 ^ 24 * (m.read (a + 3)).toNat) := by
  rw [← toNat_read32, BitVec.ofNat_toNat, BitVec.setWidth_eq]

/-! ### The bytes stored -/

/-- Memory replaced by one that differs in the bytes `bs` at `a` only, and pc + 4: exactly those bytes are stored. -/
theorem storedBytes_setMem {m : Memory} {a : Nat} {bs : List Byte} (hin : ∀ k, ∀ h : k < bs.length, m.read (a + k) = bs[k])
    (hout : ∀ b, b < a ∨ a + bs.length ≤ b → m.read b = s.mem.read b) :
    StoredBytes s ((s.setMem m).setPc s.nextPc) a bs :=
  ⟨hin, hout, fun _ => rfl, rfl, rfl⟩

theorem extractLsb'_eq_ofNat_div {w : Nat} (v : BitVec w) (k len : Nat) :
    v.extractLsb' k len = BitVec.ofNat len (v.toNat / 2 ^ k) := by
  rw [BitVec.extractLsb', Nat.shiftRight_eq_div_pow]

/-- A byte of the low half is the byte of the word. -/
theorem extractLsb'_low_half_eq_ofNat_div (v : Word) {k : Nat} (hk : k + 8 ≤ 16) :
    (v.extractLsb' 0 16).extractLsb' k 8 = BitVec.ofNat 8 (v.toNat / 2 ^ k) := by
  rw [← extractLsb'_eq_ofNat_div]
  ext j hj
  have hlt : k + j < 16 := by omega
  simp [hlt]

/-- SB stores x[rs2][7:0] (R147). -/
theorem storedBytes_write (s : State) (a : Nat) (v : Word) :
    StoredBytes s ((s.setMem (s.mem.write a (v.extractLsb' 0 8))).setPc s.nextPc) a [BitVec.ofNat 8 v.toNat] := by
  refine storedBytes_setMem (fun k hk => ?_) (fun b hb => ?_)
  · match k, hk with
    | 0, _ => simp [extractLsb'_eq_ofNat_div]
  · rw [List.length_singleton] at hb
    exact Memory.read_write_other _ _ (by omega)

/-- SH stores x[rs2][7:0] and x[rs2][15:8] (R148). -/
theorem storedBytes_write16 (s : State) (a : Nat) (v : Word) :
    StoredBytes s ((s.setMem (s.mem.write16 a (v.extractLsb' 0 16))).setPc s.nextPc) a
      [BitVec.ofNat 8 v.toNat, BitVec.ofNat 8 (v.toNat / 2 ^ 8)] := by
  refine storedBytes_setMem (fun k hk => ?_) (fun b hb => ?_)
  · rw [Memory.read_write16, extractLsb'_low_half_eq_ofNat_div v (by decide), extractLsb'_low_half_eq_ofNat_div v (by decide)]
    match k, hk with
    | 0, _ | 1, _ => simp
  · simp only [List.length_cons, List.length_nil] at hb
    rw [Memory.read_write16, if_neg (by omega), if_neg (by omega)]

/-- SW stores the four bytes of x[rs2], bits 7..0 at the lowest address (R149). -/
theorem storedBytes_write32 (s : State) (a : Nat) (v : Word) :
    StoredBytes s ((s.setMem (s.mem.write32 a v)).setPc s.nextPc) a
      [BitVec.ofNat 8 v.toNat, BitVec.ofNat 8 (v.toNat / 2 ^ 8), BitVec.ofNat 8 (v.toNat / 2 ^ 16),
        BitVec.ofNat 8 (v.toNat / 2 ^ 24)] := by
  refine storedBytes_setMem (fun k hk => ?_) (fun b hb => ?_)
  · match k, hk with
    | 0, _ | 1, _ | 2, _ | 3, _ => simp [Memory.read_write32, extractLsb'_eq_ofNat_div]
  · simp only [List.length_cons, List.length_nil] at hb
    rw [Memory.read_write32, if_neg (by omega), if_neg (by omega), if_neg (by omega), if_neg (by omega)]

/-! ### The statements -/

/-- Settles O27: LB and LBU are one `loadTo` of one byte, which is never misaligned and never runs past the top of the address space. -/
theorem loadByteExtendsTheByte : Obligations.LoadByteExtendsTheByte := by
  rintro s rd rs1 imm ea rfl
  refine ⟨encodedBy_lb rd rs1 imm, encodedBy_lbu rd rs1 imm, fun ha => ?value, fun hf => ?fault, (loadAllowed_one_iff s _).2⟩
  case value => exact ⟨writesResult_of_loadTo ha rfl rfl, writesResult_of_loadTo ha rfl (zextByte_eq_ofNat _)⟩
  case fault =>
    have hi := (inaccessible_one_iff s .load _).2 hf
    have hm := not_refusedMisaligned_one s (effAddr (s.readReg rs1) imm)
    exact ⟨loadTo_of_inaccessible hm hi _ _, loadTo_of_inaccessible hm hi _ _⟩

/-- Settles O28: LH and LHU are one `loadTo` of the little-endian halfword at ea. -/
theorem loadHalfExtendsTheHalfword : Obligations.LoadHalfExtendsTheHalfword := by
  rintro s rd rs1 imm ea h rfl
  refine ⟨encodedBy_lh rd rs1 imm, encodedBy_lhu rd rs1 imm, fun ha hh => ?value, fun hm => ?misaligned, fun hm hi => ?access⟩
  case value =>
    obtain rfl : (s.mem.read16 (effAddr (s.readReg rs1) imm).toNat).toNat = h := (toNat_read16 _ _).trans hh.symm
    exact ⟨writesResult_of_loadTo ha rfl (sextHalf_eq_ofInt _), writesResult_of_loadTo ha rfl (zextHalf_eq_ofNat _)⟩
  case misaligned => exact ⟨loadTo_of_refusedMisaligned hm _ _, loadTo_of_refusedMisaligned hm _ _⟩
  case access => exact ⟨loadTo_of_inaccessible hm hi _ _, loadTo_of_inaccessible hm hi _ _⟩

/-- Settles O29: LW is one `loadTo` of the little-endian word at ea. -/
theorem loadWordReadsFourBytes : Obligations.LoadWordReadsFourBytes := by
  rintro s rd rs1 imm ea rfl
  refine ⟨encodedBy_lw rd rs1 imm, fun ha => writesResult_of_loadTo ha rfl (read32_eq_ofNat _ _),
    fun hm => loadTo_of_refusedMisaligned hm _ _, fun hm hi => loadTo_of_inaccessible hm hi _ _⟩

/-- Settles O30: SB, SH and SW are one `storeAt` each, of a memory that differs in the bytes of the width at ea only. -/
theorem storesChangeExactlyTheirBytes : Obligations.StoresChangeExactlyTheirBytes := by
  rintro s rs1 rs2 imm ea i n pattern bs rfl hform
  simp only [List.mem_cons, List.not_mem_nil, or_false, Prod.mk.injEq] at hform
  obtain ⟨rfl, rfl, rfl, rfl⟩ | ⟨rfl, rfl, rfl, rfl⟩ | ⟨rfl, rfl, rfl, rfl⟩ := hform
  case inl => exact ⟨encodedBy_sb rs1 rs2 imm, outcomes_of_storeAt rfl (storedBytes_write s _ _)⟩
  case inr.inl => exact ⟨encodedBy_sh rs1 rs2 imm, outcomes_of_storeAt rfl (storedBytes_write16 s _ _)⟩
  case inr.inr => exact ⟨encodedBy_sw rs1 rs2 imm, outcomes_of_storeAt rfl (storedBytes_write32 s _ _)⟩

end Sys2Proof.Machine

/-! R160 to R169: control flow. The idea: each branch is one `branchIf` on its comparison and each jump one `jumpAndLink`, so what a transfer does is said
once for the two operations; what is left for each instruction is its word, its comparison as a proposition, or its target as a number. -/

namespace Sys2Proof.Machine

variable {i : Instr} {s : State} {p : Word}

/-! ### The words -/

/-- An offset that is even as a number has bit 0 clear, the bit the formats have no place for (R80, R82). -/
theorem getElem_zero_of_even {n : Nat} {off : BitVec (n + 1)} (h : off.toNat % 2 = 0) : off[0] = false := by
  simp [← BitVec.getLsbD_eq_getElem, BitVec.getLsbD, h]

/-- A branch is encoded in the row of its funct3 when the group's decoder gives it back (R89). -/
theorem encodedBy_branch (f3 : BitVec 3) {rs1 rs2 : Reg} {off : BitVec 13}
    (he : encode i = encodeB off rs2 rs1 f3 0b1100011#7)
    (hd : decodeBranch (encode i) = .ok i) : EncodedBy i 0x0000707F (encodeI 0 0 f3 0 0b1100011#7) := by
  have hop : opcodeOf (encode i) = 0b1100011#7 := by simp [he]
  exact encodedBy_of_funct3_opcode f3 _ (by simp [he]) hop (by simp only [decode, hop, hd])

section Branches

variable (rs1 rs2 : Reg) {off : BitVec 13} (h : off.toNat % 2 = 0)
include h

theorem encodedBy_beq : EncodedBy (.beq rs1 rs2 off) 0x0000707F 0x00000063 :=
  encodedBy_branch 0 rfl (by simp [encode, decodeBranch, getElem_zero_of_even h])

theorem encodedBy_bne : EncodedBy (.bne rs1 rs2 off) 0x0000707F 0x00001063 :=
  encodedBy_branch 0b001 rfl (by simp [encode, decodeBranch, getElem_zero_of_even h])

theorem encodedBy_blt : EncodedBy (.blt rs1 rs2 off) 0x0000707F 0x00004063 :=
  encodedBy_branch 0b100 rfl (by simp [encode, decodeBranch, getElem_zero_of_even h])

theorem encodedBy_bge : EncodedBy (.bge rs1 rs2 off) 0x0000707F 0x00005063 :=
  encodedBy_branch 0b101 rfl (by simp [encode, decodeBranch, getElem_zero_of_even h])

theorem encodedBy_bltu : EncodedBy (.bltu rs1 rs2 off) 0x0000707F 0x00006063 :=
  encodedBy_branch 0b110 rfl (by simp [encode, decodeBranch, getElem_zero_of_even h])

theorem encodedBy_bgeu : EncodedBy (.bgeu rs1 rs2 off) 0x0000707F 0x00007063 :=
  encodedBy_branch 0b111 rfl (by simp [encode, decodeBranch, getElem_zero_of_even h])

end Branches

theorem encodedBy_jal (rd : Reg) {off : BitVec 21} (h : off.toNat % 2 = 0) : EncodedBy (.jal rd off) 0x0000007F 0x0000006F := by
  have hop : opcodeOf (encode (.jal rd off)) = 0b1101111#7 := by simp [encode]
  refine ⟨(and_maskU_eq_iff _ _).2 hop, ?_⟩
  simp only [decode, hop]
  simp [encode, getElem_zero_of_even h]

theorem encodedBy_jalr (rd rs1 : Reg) (imm : BitVec 12) : EncodedBy (.jalr rd rs1 imm) 0x0000707F 0x00000067 := by
  have hop : opcodeOf (encode (.jalr rd rs1 imm)) = 0b1100111#7 := by simp [encode]
  refine encodedBy_of_funct3_opcode 0 _ (by simp [encode]) hop ?_
  simp only [decode, hop]
  simp [encode, decodeJalr]

/-! ### The comparisons -/

theorem eqWord_iff (a b : Word) : eqWord a b = true ↔ a = b := beq_iff_eq

theorem not_eqWord_iff (a b : Word) : (!eqWord a b) = true ↔ a ≠ b := by
  rw [Bool.not_eq_true', ← Bool.not_eq_true, eqWord_iff]

theorem ltSigned_iff (a b : Word) : ltSigned a b = true ↔ a.toInt < b.toInt := decide_eq_true_iff

theorem geSigned_iff (a b : Word) : geSigned a b = true ↔ a.toInt ≥ b.toInt := decide_eq_true_iff

theorem ltUnsigned_iff (a b : Word) : ltUnsigned a b = true ↔ a.toNat < b.toNat := decide_eq_true_iff

theorem geUnsigned_iff (a b : Word) : geUnsigned a b = true ↔ a.toNat ≥ b.toNat := decide_eq_true_iff

/-! ### The outcomes of a transfer -/

section Outcomes

variable {c : Bool} {off : Word} {cond : Prop} {rd : Reg}

/-- An instruction that is one `branchIf` has its three outcomes: passed, taken, or a fault at a target with bit 1 set (R160, R169). -/
theorem outcomes_of_branchIf (he : exec i s = branchIf c off s) (hc : c = true ↔ cond) :
    (¬ cond → ∃ t, exec i s = .next t ∧ OnlyMovedPc s t (s.pc + 4)) ∧
    (cond → (s.pc + off).getLsbD 1 = false → ∃ t, exec i s = .next t ∧ OnlyMovedPc s t (s.pc + off)) ∧
    (cond → (s.pc + off).getLsbD 1 = true → exec i s = .fault (.instrAddrMisaligned (s.pc + off))) := by
  rw [← hc, he]
  rcases branchIf_cases c off s with ⟨hcond, hb⟩ | ⟨hcond, h1, hb⟩ | ⟨hcond, h1, hb⟩ <;> rw [hb, hcond]
  case inl => exact ⟨fun _ => ⟨_, rfl, onlyMovedPc_setPc s _⟩, nofun, nofun⟩
  case inr.inl =>
    rw [h1]
    exact ⟨fun h => absurd rfl h, fun _ _ => ⟨_, rfl, onlyMovedPc_setPc s _⟩, nofun⟩
  case inr.inr =>
    rw [h1]
    exact ⟨fun h => absurd rfl h, nofun, fun _ _ => rfl⟩

/-- An instruction that is one `jumpAndLink` links and jumps, or raises at a target with bit 1 set (R167 to R169). -/
theorem outcomes_of_jumpAndLink (he : exec i s = jumpAndLink rd p s) :
    (p.getLsbD 1 = false → ∃ t, exec i s = .next t ∧ WroteReg s t rd (s.pc + 4) p) ∧
    (p.getLsbD 1 = true → exec i s = .fault (.instrAddrMisaligned p)) := by
  rw [he]
  rcases jumpAndLink_cases rd p s with ⟨h1, hj⟩ | ⟨h1, hj⟩ <;> rw [hj, h1]
  case inl => exact ⟨fun _ => ⟨_, rfl, wroteReg_setPc s rd _ p⟩, nofun⟩
  case inr => exact ⟨nofun, fun _ => rfl⟩

/-- A branch raises exactly when it is taken to a target with bit 1 set (R169). -/
theorem faultsExactly_of_branchIf (he : exec i s = branchIf c off s) (hc : c = true ↔ cond) :
    (cond → (s.pc + off).getLsbD 1 = true → exec i s = .fault (.instrAddrMisaligned (s.pc + off))) ∧
    (¬ (cond ∧ (s.pc + off).getLsbD 1 = true) → ∃ t, exec i s = .next t) := by
  obtain ⟨hpassed, htaken, hfault⟩ := outcomes_of_branchIf he hc
  refine ⟨hfault, fun hno => ?_⟩
  by_cases h : cond
  · obtain ⟨t, ht, -⟩ := htaken h (Bool.eq_false_iff.2 fun h1 => hno ⟨h, h1⟩)
    exact ⟨t, ht⟩
  · obtain ⟨t, ht, -⟩ := hpassed h
    exact ⟨t, ht⟩

/-- A jump is always taken: it raises exactly when its target has bit 1 set (R169). -/
theorem faultsExactly_of_jumpAndLink (he : exec i s = jumpAndLink rd p s) :
    (True → p.getLsbD 1 = true → exec i s = .fault (.instrAddrMisaligned p)) ∧
    (¬ (True ∧ p.getLsbD 1 = true) → ∃ t, exec i s = .next t) := by
  obtain ⟨hjump, hfault⟩ := outcomes_of_jumpAndLink he
  refine ⟨fun _ => hfault, fun hno => ?_⟩
  obtain ⟨t, ht, -⟩ := hjump (Bool.eq_false_iff.2 fun h1 => hno ⟨trivial, h1⟩)
  exact ⟨t, ht⟩

end Outcomes

/-! ### The targets of the jumps -/

/-- `imm_J` is the offset read as signed, as a 32-bit value (R82). -/
theorem sext21_eq_ofInt (off : BitVec 21) : sext21 off = BitVec.ofInt 32 off.toInt := rfl

/-- The mask 0xFFFFFFFE takes the last bit off the value. -/
theorem and_clearBit0_toNat (v : Word) : (v &&& 0xFFFFFFFE#32).toNat = v.toNat - v.toNat % 2 := by
  have hshift : v &&& 0xFFFFFFFE#32 = v >>> 1 <<< 1 := by
    apply BitVec.eq_of_getLsbD_eq
    intro k hk
    interval_cases k <;> simp
  rw [hshift, BitVec.toNat_shiftLeft, BitVec.toNat_ushiftRight, Nat.shiftLeft_eq, Nat.shiftRight_eq_div_pow]
  omega

/-- The target is the low 32 bits of the exact sum with its last bit taken off (R168). -/
theorem jalrTarget_eq_ofNat (base : Word) (imm : BitVec 12) {sum : Nat}
    (hsum : sum = (BitVec.ofInt 32 (base.toInt + imm.toInt)).toNat) :
    jalrTarget base imm = BitVec.ofNat 32 (sum - sum % 2) := by
  rw [← sext12_toInt imm, ← add_eq_ofInt_toInt_add] at hsum
  rw [jalrTarget, hsum, ← and_clearBit0_toNat, BitVec.ofNat_toNat, BitVec.setWidth_eq]

/-- Bit 1 of the target is bit 1 of the sum. -/
theorem jalrTarget_getLsbD_one (base : Word) (imm : BitVec 12) {sum : Nat}
    (hsum : sum = (BitVec.ofInt 32 (base.toInt + imm.toInt)).toNat) :
    (jalrTarget base imm).getLsbD 1 = decide (sum / 2 % 2 = 1) := by
  rw [← sext12_toInt imm, ← add_eq_ofInt_toInt_add] at hsum
  have hmask : (0xFFFFFFFE#32).getLsbD 1 = true := by decide
  rw [jalrTarget, BitVec.getLsbD_and, hmask, Bool.and_true, hsum, BitVec.getLsbD, Nat.testBit_eq_decide_div_mod_eq, pow_one]

/-! ### The statements -/

/-- Settles O33: each branch is one `branchIf` on its own comparison. -/
theorem branchesGoToTheTargetOrFallThrough : Obligations.BranchesGoToTheTargetOrFallThrough := by
  intro s rs1 rs2 off i pattern cond hform
  simp only [List.mem_cons, List.not_mem_nil, or_false, Prod.mk.injEq] at hform
  obtain ⟨rfl, rfl, rfl⟩ | ⟨rfl, rfl, rfl⟩ | ⟨rfl, rfl, rfl⟩ | ⟨rfl, rfl, rfl⟩ | ⟨rfl, rfl, rfl⟩ | ⟨rfl, rfl, rfl⟩ := hform
  · exact ⟨encodedBy_beq rs1 rs2, outcomes_of_branchIf rfl (eqWord_iff _ _)⟩
  · exact ⟨encodedBy_bne rs1 rs2, outcomes_of_branchIf rfl (not_eqWord_iff _ _)⟩
  · exact ⟨encodedBy_blt rs1 rs2, outcomes_of_branchIf rfl (ltSigned_iff _ _)⟩
  · exact ⟨encodedBy_bge rs1 rs2, outcomes_of_branchIf rfl (geSigned_iff _ _)⟩
  · exact ⟨encodedBy_bltu rs1 rs2, outcomes_of_branchIf rfl (ltUnsigned_iff _ _)⟩
  · exact ⟨encodedBy_bgeu rs1 rs2, outcomes_of_branchIf rfl (geUnsigned_iff _ _)⟩

/-- Settles O34: a transfer is one `branchIf` or one `jumpAndLink`, and these raise at no other place. -/
theorem misalignedTargetsFault : Obligations.MisalignedTargetsFault := by
  intro s rd rs1 rs2 off joff imm i taken p hform
  simp only [List.mem_cons, List.not_mem_nil, or_false, Prod.mk.injEq] at hform
  obtain ⟨rfl, rfl, rfl⟩ | ⟨rfl, rfl, rfl⟩ | ⟨rfl, rfl, rfl⟩ | ⟨rfl, rfl, rfl⟩ | ⟨rfl, rfl, rfl⟩ | ⟨rfl, rfl, rfl⟩ |
    ⟨rfl, rfl, rfl⟩ | ⟨rfl, rfl, rfl⟩ := hform
  · exact faultsExactly_of_branchIf rfl (eqWord_iff _ _)
  · exact faultsExactly_of_branchIf rfl (not_eqWord_iff _ _)
  · exact faultsExactly_of_branchIf rfl (ltSigned_iff _ _)
  · exact faultsExactly_of_branchIf rfl (geSigned_iff _ _)
  · exact faultsExactly_of_branchIf rfl (ltUnsigned_iff _ _)
  · exact faultsExactly_of_branchIf rfl (geUnsigned_iff _ _)
  · exact faultsExactly_of_jumpAndLink rfl
  · exact faultsExactly_of_jumpAndLink rfl

/-- Settles O35: JAL is one `jumpAndLink` to pc + imm_J. -/
theorem jalLinksAndJumps : Obligations.JalLinksAndJumps := by
  rintro s rd off p rfl
  rw [← sext21_eq_ofInt]
  exact ⟨encodedBy_jal rd, outcomes_of_jumpAndLink rfl⟩

/-- Settles O36: JALR is one `jumpAndLink` to a target taken from the state before the write, so rd = rs1 needs no case of its own. -/
theorem jalrLinksAndJumpsToTheOldRegisterValue : Obligations.JalrLinksAndJumpsToTheOldRegisterValue := by
  intro s rd rs1 imm sum hsum
  have hbit := jalrTarget_getLsbD_one (s.readReg rs1) imm hsum
  obtain ⟨hjump, hfault⟩ := outcomes_of_jumpAndLink (i := .jalr rd rs1 imm) (s := s) rfl
  rw [← jalrTarget_eq_ofNat (s.readReg rs1) imm hsum]
  exact ⟨encodedBy_jalr rd rs1 imm, fun h => hjump (hbit.trans (decide_eq_false (by omega))),
    fun h => hfault (hbit.trans (decide_eq_true h))⟩

end Sys2Proof.Machine

/-! R205, R218: exceptions. The idea: the decoder has no row for the opcodes of the system and fence words, so a step that fetches one raises; and a run
that faults either faults at its first step or goes on to a shorter run that faults, so both what led to the fault and what a longer bound adds (nothing)
follow by induction on the bound. -/

namespace Sys2Proof.Machine

variable {w : Word} {s t u : State} {f : Fault} {n : Nat}

/-! ### The system and fence opcodes -/

/-- No instruction has the opcode of ECALL, EBREAK, MRET, WFI and the CSR instructions, or the one of FENCE and FENCE.I (R84, R97). -/
theorem decode_of_system_or_fence (hop : w.toNat % 2 ^ 7 = 0b1110011 ∨ w.toNat % 2 ^ 7 = 0b0001111) :
    decode w = .error (.unknownOpcode (opcodeOf w)) := by
  rw [← opcodeOf_toNat] at hop
  unfold decode
  split
  case h_10 => rfl
  all_goals
    next hrow => simp [hrow] at hop

/-- Settles O10: a word of either opcode decodes to no instruction, and a fetched word that does not decode raises IllegalInstruction. -/
theorem systemAndFenceWordsAreIllegal : Obligations.SystemAndFenceWordsAreIllegal := by
  constructor
  case left => exact fun w hop s hw => step_of_decode_error hw ⟨_, decode_of_system_or_fence hop⟩
  case right =>
    simp only [List.forall_mem_cons, List.not_mem_nil, false_implies, implies_true, and_true]
    decide

/-! ### Runs that fault -/

/-- Steps can be put before the first one as well as after the last one. -/
theorem Steps.head (hs : step s = .next u) (h : Steps u t) : Steps s t := by
  induction h with
  | refl => exact .tail (.refl s) hs
  | tail _ hlast ih => exact ih.tail hlast

/-- No step is taken, so none faults. -/
theorem runToHalt_zero_ne_faulted (s : State) (f : Fault) (t : State) : runToHalt 0 s ≠ .faulted f t := by
  unfold runToHalt
  split <;> exact nofun

/-- A run faults when its first step does, in the state it starts from (R205), or when its first step goes on to a run that faults. -/
theorem runToHalt_succ_eq_faulted_iff :
    runToHalt (n + 1) s = .faulted f t ↔
      s.halted = false ∧ ((step s = .fault f ∧ t = s) ∨ ∃ u, step s = .next u ∧ runToHalt n u = .faulted f t) := by
  cases hhalt : s.halted with
  | true => simp [runToHalt, hhalt]
  | false =>
    cases hstep : step s with
    | next u => simp [runToHalt, hhalt, hstep]
    | fault g => simp [runToHalt, hhalt, hstep, eq_comm]
    | refused r => simp [runToHalt, hhalt, hstep]

/-- The state a run faults in is reached by steps, and it is the state whose step raises the fault. -/
theorem steps_of_runToHalt_faulted (h : runToHalt n s = .faulted f t) : Steps s t ∧ step t = .fault f := by
  induction n generalizing s with
  | zero => exact absurd h (runToHalt_zero_ne_faulted s f t)
  | succ n ih =>
    obtain ⟨-, ⟨hfault, rfl⟩ | ⟨u, hnext, hrest⟩⟩ := runToHalt_succ_eq_faulted_iff.1 h
    · exact ⟨.refl t, hfault⟩
    · obtain ⟨hsteps, hfault⟩ := ih hrest
      exact ⟨hsteps.head hnext, hfault⟩

/-- Nothing executes after a fault: a greater bound changes neither the fault nor the state (R205). -/
theorem runToHalt_faulted_add (m : Nat) (h : runToHalt n s = .faulted f t) : runToHalt (n + m) s = .faulted f t := by
  induction n generalizing s with
  | zero => exact absurd h (runToHalt_zero_ne_faulted s f t)
  | succ n ih =>
    rw [Nat.succ_add]
    obtain ⟨hhalt, hfault | ⟨u, hnext, hrest⟩⟩ := runToHalt_succ_eq_faulted_iff.1 h
    · exact runToHalt_succ_eq_faulted_iff.2 ⟨hhalt, .inl hfault⟩
    · exact runToHalt_succ_eq_faulted_iff.2 ⟨hhalt, .inr ⟨u, hnext, ih hrest⟩⟩

/-- Settles O50, by induction on the bound: once for what led to the fault, once for what a greater bound adds. -/
theorem faultEndsTheRunInTheStateBefore : Obligations.FaultEndsTheRunInTheStateBefore := by
  intro n s t f h
  obtain ⟨hsteps, hfault⟩ := steps_of_runToHalt_faulted h
  exact ⟨hsteps, hfault, fun m => runToHalt_faulted_add m h⟩

end Sys2Proof.Machine

/-! R246: a run ends in the first state whose pc is `HALT_PC`. The idea: of the two equations of `runToHalt`, only the test of pc answers an ended
run; a step that goes on leaves the question to the rest of the run. -/

namespace Sys2Proof.Machine

variable {s t : State} {n : Nat}

/-! ### Runs that end normally -/

theorem State.halted_iff : s.halted = true ↔ s.cfg.haltPc = some s.pc := beq_iff_eq

/-- At `HALT_PC` the run ends before any step, whatever the bound (R246). -/
theorem runToHalt_of_halted (n : Nat) (h : s.halted = true) : runToHalt n s = .ended s := by
  cases n with
  | zero => simp [runToHalt, h]
  | succ n => simp [runToHalt, h]

/-- Without a step, a run has ended only where it starts. -/
theorem runToHalt_zero_eq_ended_iff : runToHalt 0 s = .ended t ↔ s.halted = true ∧ s = t := by
  cases hhalt : s.halted <;> simp [runToHalt, hhalt]

/-- A run ends where it starts when that is at `HALT_PC`, and otherwise where the run after its first step ends; a first step that faults is no normal end (R246). -/
theorem runToHalt_succ_eq_ended_iff :
    runToHalt (n + 1) s = .ended t ↔
      (s.halted = true ∧ s = t) ∨ (s.halted = false ∧ ∃ u, step s = .next u ∧ runToHalt n u = .ended t) := by
  cases hhalt : s.halted with
  | true => simp [runToHalt_of_halted _ hhalt]
  | false => cases hstep : step s <;> simp [runToHalt, hhalt, hstep]

/-- The state a run ends in is reached by steps, and it is at `HALT_PC`. -/
theorem steps_of_runToHalt_ended (h : runToHalt n s = .ended t) : Steps s t ∧ t.halted = true := by
  induction n generalizing s with
  | zero =>
    obtain ⟨hhalt, rfl⟩ := runToHalt_zero_eq_ended_iff.1 h
    exact ⟨.refl s, hhalt⟩
  | succ n ih =>
    obtain ⟨hhalt, rfl⟩ | ⟨-, u, hnext, hrest⟩ := runToHalt_succ_eq_ended_iff.1 h
    · exact ⟨.refl s, hhalt⟩
    · obtain ⟨hsteps, hhalt⟩ := ih hrest
      exact ⟨hsteps.head hnext, hhalt⟩

/-- Settles O49: the run's own test of pc gives the first part, an induction on the bound the second. -/
theorem runEndsAtHaltPc : Obligations.RunEndsAtHaltPc := by
  constructor
  case left => exact fun n s hpc => runToHalt_of_halted n (State.halted_iff.2 hpc)
  case right => exact fun n s t h => (steps_of_runToHalt_ended h).imp_right State.halted_iff.1

end Sys2Proof.Machine

/-! R70 to R97: the decoder, the encoder and the opcode table agree. The idea: decoding inverts encoding, instruction by instruction, and encoding inverts
decoding, group by group, because a word is its fields put together. So a word that decodes is an encoding, and each claim about such a word is a claim about
the fields the encoder lays out. -/

namespace Sys2Proof.Machine

variable {w : Word} {i : Instr} {s : State}

/-! ### Decoding inverts encoding -/

theorem encodedBy_sltiu (rd rs1 : Reg) (imm : BitVec 12) : EncodedBy (.sltiu rd rs1 imm) 0x0000707F 0x00003013 :=
  encodedBy_opImm 0b011 rfl (by simp [encode, decodeOpImm])

theorem encodedBy_lui (rd : Reg) (imm20 : BitVec 20) : EncodedBy (.lui rd imm20) 0x0000007F 0x00000037 := by
  have hop : opcodeOf (encode (.lui rd imm20)) = 0b0110111#7 := by simp [encode]
  refine ⟨(and_maskU_eq_iff _ _).2 hop, ?_⟩
  simp only [decode, hop]
  simp [encode]

theorem encodedBy_auipc (rd : Reg) (imm20 : BitVec 20) : EncodedBy (.auipc rd imm20) 0x0000007F 0x00000017 := by
  have hop : opcodeOf (encode (.auipc rd imm20)) = 0b0010111#7 := by simp [encode]
  refine ⟨(and_maskU_eq_iff _ _).2 hop, ?_⟩
  simp only [decode, hop]
  simp [encode]

/-- An offset whose bit 0 is clear is even as a number (R80, R82). -/
theorem toNat_even_of_wellFormed {n : Nat} {off : BitVec (n + 1)} (h : (!off.getLsbD 0) = true) : off.toNat % 2 = 0 := by
  simpa [BitVec.getLsbD, Nat.testBit] using h

/-- Every well-formed instruction is encoded by the row of the table with its mnemonic (R72 to R92, R95). -/
theorem encodedBy_row (h : i.wellFormed = true) :
    ∃ r ∈ opcodeTable, r.mnemonic = i.mnemonic ∧ EncodedBy i r.mask r.pattern := by
  cases i with
  | add rd rs1 rs2 => exact ⟨⟨"ADD", _, _⟩, by decide, rfl, encodedBy_add rd rs1 rs2⟩
  | sub rd rs1 rs2 => exact ⟨⟨"SUB", _, _⟩, by decide, rfl, encodedBy_sub rd rs1 rs2⟩
  | slt rd rs1 rs2 => exact ⟨⟨"SLT", _, _⟩, by decide, rfl, encodedBy_slt rd rs1 rs2⟩
  | sltu rd rs1 rs2 => exact ⟨⟨"SLTU", _, _⟩, by decide, rfl, encodedBy_sltu rd rs1 rs2⟩
  | and rd rs1 rs2 => exact ⟨⟨"AND", _, _⟩, by decide, rfl, encodedBy_and rd rs1 rs2⟩
  | or rd rs1 rs2 => exact ⟨⟨"OR", _, _⟩, by decide, rfl, encodedBy_or rd rs1 rs2⟩
  | xor rd rs1 rs2 => exact ⟨⟨"XOR", _, _⟩, by decide, rfl, encodedBy_xor rd rs1 rs2⟩
  | sll rd rs1 rs2 => exact ⟨⟨"SLL", _, _⟩, by decide, rfl, encodedBy_sll rd rs1 rs2⟩
  | srl rd rs1 rs2 => exact ⟨⟨"SRL", _, _⟩, by decide, rfl, encodedBy_srl rd rs1 rs2⟩
  | sra rd rs1 rs2 => exact ⟨⟨"SRA", _, _⟩, by decide, rfl, encodedBy_sra rd rs1 rs2⟩
  | addi rd rs1 imm => exact ⟨⟨"ADDI", _, _⟩, by decide, rfl, encodedBy_addi rd rs1 imm⟩
  | slti rd rs1 imm => exact ⟨⟨"SLTI", _, _⟩, by decide, rfl, encodedBy_slti rd rs1 imm⟩
  | sltiu rd rs1 imm => exact ⟨⟨"SLTIU", _, _⟩, by decide, rfl, encodedBy_sltiu rd rs1 imm⟩
  | andi rd rs1 imm => exact ⟨⟨"ANDI", _, _⟩, by decide, rfl, encodedBy_andi rd rs1 imm⟩
  | ori rd rs1 imm => exact ⟨⟨"ORI", _, _⟩, by decide, rfl, encodedBy_ori rd rs1 imm⟩
  | xori rd rs1 imm => exact ⟨⟨"XORI", _, _⟩, by decide, rfl, encodedBy_xori rd rs1 imm⟩
  | slli rd rs1 shamt => exact ⟨⟨"SLLI", _, _⟩, by decide, rfl, encodedBy_slli rd rs1 shamt⟩
  | srli rd rs1 shamt => exact ⟨⟨"SRLI", _, _⟩, by decide, rfl, encodedBy_srli rd rs1 shamt⟩
  | srai rd rs1 shamt => exact ⟨⟨"SRAI", _, _⟩, by decide, rfl, encodedBy_srai rd rs1 shamt⟩
  | lb rd rs1 imm => exact ⟨⟨"LB", _, _⟩, by decide, rfl, encodedBy_lb rd rs1 imm⟩
  | lh rd rs1 imm => exact ⟨⟨"LH", _, _⟩, by decide, rfl, encodedBy_lh rd rs1 imm⟩
  | lw rd rs1 imm => exact ⟨⟨"LW", _, _⟩, by decide, rfl, encodedBy_lw rd rs1 imm⟩
  | lbu rd rs1 imm => exact ⟨⟨"LBU", _, _⟩, by decide, rfl, encodedBy_lbu rd rs1 imm⟩
  | lhu rd rs1 imm => exact ⟨⟨"LHU", _, _⟩, by decide, rfl, encodedBy_lhu rd rs1 imm⟩
  | sb rs1 rs2 imm => exact ⟨⟨"SB", _, _⟩, by decide, rfl, encodedBy_sb rs1 rs2 imm⟩
  | sh rs1 rs2 imm => exact ⟨⟨"SH", _, _⟩, by decide, rfl, encodedBy_sh rs1 rs2 imm⟩
  | sw rs1 rs2 imm => exact ⟨⟨"SW", _, _⟩, by decide, rfl, encodedBy_sw rs1 rs2 imm⟩
  | beq rs1 rs2 off => exact ⟨⟨"BEQ", _, _⟩, by decide, rfl, encodedBy_beq rs1 rs2 (toNat_even_of_wellFormed h)⟩
  | bne rs1 rs2 off => exact ⟨⟨"BNE", _, _⟩, by decide, rfl, encodedBy_bne rs1 rs2 (toNat_even_of_wellFormed h)⟩
  | blt rs1 rs2 off => exact ⟨⟨"BLT", _, _⟩, by decide, rfl, encodedBy_blt rs1 rs2 (toNat_even_of_wellFormed h)⟩
  | bge rs1 rs2 off => exact ⟨⟨"BGE", _, _⟩, by decide, rfl, encodedBy_bge rs1 rs2 (toNat_even_of_wellFormed h)⟩
  | bltu rs1 rs2 off => exact ⟨⟨"BLTU", _, _⟩, by decide, rfl, encodedBy_bltu rs1 rs2 (toNat_even_of_wellFormed h)⟩
  | bgeu rs1 rs2 off => exact ⟨⟨"BGEU", _, _⟩, by decide, rfl, encodedBy_bgeu rs1 rs2 (toNat_even_of_wellFormed h)⟩
  | jal rd off => exact ⟨⟨"JAL", _, _⟩, by decide, rfl, encodedBy_jal rd (toNat_even_of_wellFormed h)⟩
  | jalr rd rs1 imm => exact ⟨⟨"JALR", _, _⟩, by decide, rfl, encodedBy_jalr rd rs1 imm⟩
  | lui rd imm20 => exact ⟨⟨"LUI", _, _⟩, by decide, rfl, encodedBy_lui rd imm20⟩
  | auipc rd imm20 => exact ⟨⟨"AUIPC", _, _⟩, by decide, rfl, encodedBy_auipc rd imm20⟩

/-- Every operand of every well-formed instruction survives its encoding. -/
theorem decode_encode (h : i.wellFormed = true) : decode (encode i) = .ok i := by
  obtain ⟨r, -, -, -, hd⟩ := encodedBy_row h
  exact hd

/-- Settles O1, instruction by instruction: the decoder reads each field where the encoder has put it. -/
theorem decodeOfEncodeIsTheInstruction : Obligations.DecodeOfEncodeIsTheInstruction :=
  fun _ => decode_encode

/-! ### Encoding inverts decoding -/

section Fields

variable {f7 : BitVec 7} {f3 : BitVec 3} {op : BitVec 7}

theorem encodeR_eq_of_fields (h7 : funct7Of w = f7) (h3 : funct3Of w = f3) (hop : opcodeOf w = op) :
    encodeR f7 (rs2Of w) (rs1Of w) f3 (rdOf w) op = w := by
  subst h7 h3 hop
  exact encodeR_fields w

theorem encodeShift_eq_of_fields (h7 : funct7Of w = f7) (h3 : funct3Of w = f3) (hop : opcodeOf w = op) :
    encodeShift f7 (shamtOf w) (rs1Of w) f3 (rdOf w) op = w := by
  subst h7 h3 hop
  exact encodeShift_fields w

theorem encodeI_eq_of_fields (h3 : funct3Of w = f3) (hop : opcodeOf w = op) :
    encodeI (immIOf w) (rs1Of w) f3 (rdOf w) op = w := by
  subst h3 hop
  exact encodeI_fields w

theorem encodeS_eq_of_fields (h3 : funct3Of w = f3) (hop : opcodeOf w = op) :
    encodeS (immSOf w) (rs2Of w) (rs1Of w) f3 op = w := by
  subst h3 hop
  exact encodeS_fields w

theorem encodeB_eq_of_fields (h3 : funct3Of w = f3) (hop : opcodeOf w = op) :
    encodeB (immBOf w) (rs2Of w) (rs1Of w) f3 op = w := by
  subst h3 hop
  exact encodeB_fields w

theorem encodeU_eq_of_fields (hop : opcodeOf w = op) : encodeU (immUOf w) (rdOf w) op = w := by
  subst hop
  exact encodeU_fields w

theorem encodeJ_eq_of_fields (hop : opcodeOf w = op) : encodeJ (immJOf w) (rdOf w) op = w := by
  subst hop
  exact encodeJ_fields w

end Fields

theorem encode_of_decodeOp (hop : opcodeOf w = 0b0110011#7) (h : decodeOp w = .ok i) : encode i = w := by
  unfold decodeOp at h
  split at h <;> cases h
  all_goals next h7 h3 => exact encodeR_eq_of_fields h7 h3 hop

theorem encode_of_decodeShiftLeftImm (hop : opcodeOf w = 0b0010011#7) (h3 : funct3Of w = 0b001#3)
    (h : decodeShiftLeftImm w = .ok i) : encode i = w := by
  unfold decodeShiftLeftImm at h
  split at h <;> cases h
  next h7 => exact encodeShift_eq_of_fields h7 h3 hop

theorem encode_of_decodeShiftRightImm (hop : opcodeOf w = 0b0010011#7) (h3 : funct3Of w = 0b101#3)
    (h : decodeShiftRightImm w = .ok i) : encode i = w := by
  unfold decodeShiftRightImm at h
  split at h <;> cases h
  all_goals next h7 => exact encodeShift_eq_of_fields h7 h3 hop

theorem encode_of_decodeOpImm (hop : opcodeOf w = 0b0010011#7) (h : decodeOpImm w = .ok i) : encode i = w := by
  unfold decodeOpImm at h
  split at h
  case h_2 h3 => exact encode_of_decodeShiftLeftImm hop h3 h
  case h_6 h3 => exact encode_of_decodeShiftRightImm hop h3 h
  all_goals
    next h3 =>
      cases h
      exact encodeI_eq_of_fields h3 hop

theorem encode_of_decodeLoad (hop : opcodeOf w = 0b0000011#7) (h : decodeLoad w = .ok i) : encode i = w := by
  unfold decodeLoad at h
  split at h <;> cases h
  all_goals next h3 => exact encodeI_eq_of_fields h3 hop

theorem encode_of_decodeStore (hop : opcodeOf w = 0b0100011#7) (h : decodeStore w = .ok i) : encode i = w := by
  unfold decodeStore at h
  split at h <;> cases h
  all_goals next h3 => exact encodeS_eq_of_fields h3 hop

theorem encode_of_decodeBranch (hop : opcodeOf w = 0b1100011#7) (h : decodeBranch w = .ok i) : encode i = w := by
  unfold decodeBranch at h
  split at h <;> cases h
  all_goals next h3 => exact encodeB_eq_of_fields h3 hop

theorem encode_of_decodeJalr (hop : opcodeOf w = 0b1100111#7) (h : decodeJalr w = .ok i) : encode i = w := by
  unfold decodeJalr at h
  split at h <;> cases h
  next h3 => exact encodeI_eq_of_fields h3 hop

/-- No bit of a word that decodes is dropped (R70 to R92). -/
theorem encode_of_decode (h : decode w = .ok i) : encode i = w := by
  unfold decode at h
  split at h
  case h_1 hop => exact encode_of_decodeOp hop h
  case h_2 hop => exact encode_of_decodeOpImm hop h
  case h_3 hop => exact encode_of_decodeLoad hop h
  case h_4 hop => exact encode_of_decodeStore hop h
  case h_5 hop => exact encode_of_decodeBranch hop h
  case h_6 hop =>
    cases h
    exact encodeJ_eq_of_fields hop
  case h_7 hop => exact encode_of_decodeJalr hop h
  case h_8 hop | h_9 hop =>
    cases h
    exact encodeU_eq_of_fields hop
  case h_10 => cases h

/-- Settles O2, group by group: each arm of the decoder keeps every field of the word, and the selectors it has tested are those the encoder writes. -/
theorem encodeOfDecodeIsTheWord : Obligations.EncodeOfDecodeIsTheWord :=
  fun _ _ h => ⟨decode_wellFormed h, encode_of_decode h⟩

/-- A word decodes to the well-formed instruction it is the encoding of, and to no other. -/
theorem decode_eq_ok_iff : decode w = .ok i ↔ i.wellFormed = true ∧ encode i = w := by
  constructor
  · exact fun h => ⟨decode_wellFormed h, encode_of_decode h⟩
  · rintro ⟨hi, rfl⟩
    exact decode_encode hi

/-! ### The opcode table -/

/-- A word that decodes matches a row with the mnemonic of its instruction (R95). -/
theorem row_of_decode (h : decode w = .ok i) : ∃ r ∈ opcodeTable, r.mnemonic = i.mnemonic ∧ w &&& r.mask = r.pattern := by
  obtain ⟨hi, rfl⟩ := decode_eq_ok_iff.1 h
  obtain ⟨r, hr, hm, hw, -⟩ := encodedBy_row hi
  exact ⟨r, hr, hm, hw⟩

/-- Two rows whose patterns agree on the bits that both masks keep are one row. -/
theorem opcodeTable_disjoint :
    ∀ r ∈ opcodeTable, ∀ r' ∈ opcodeTable, r.pattern &&& r'.mask = r'.pattern &&& r.mask → r = r' := by
  decide

/-- No two rows match one word: their patterns would agree on the bits that both masks keep (R95). -/
theorem row_unique {r r' : Row} (hr : r ∈ opcodeTable) (hr' : r' ∈ opcodeTable) (h : w &&& r.mask = r.pattern)
    (h' : w &&& r'.mask = r'.pattern) : r = r' := by
  refine opcodeTable_disjoint r hr r' hr' ?_
  rw [← h, ← h', BitVec.and_assoc, BitVec.and_assoc, BitVec.and_comm r.mask]

/-- No two rows bear one mnemonic. -/
theorem opcodeTable_mnemonics : ∀ r ∈ opcodeTable, ∀ r' ∈ opcodeTable, r.mnemonic = r'.mnemonic → r = r' := by
  decide

/-- The word decodes to an instruction with the mnemonic. -/
def DecodesTo (w : Word) (mnemonic : String) : Prop :=
  ∃ i, decode w = .ok i ∧ i.mnemonic = mnemonic

section Rows

variable {f7 : BitVec 7} {f3 : BitVec 3} {op : BitVec 7}

theorem decodesTo_of_encode (i : Instr) (hi : i.wellFormed = true) (hw : encode i = w) : DecodesTo w i.mnemonic :=
  ⟨i, decode_eq_ok_iff.2 ⟨hi, hw⟩, rfl⟩

/-- A word that matches a row with the mask 0xFE00707F and is not an immediate shift is the row's instruction of its own register fields (R85). -/
theorem decodesTo_of_maskR (mk : Reg → Reg → Reg → Instr) (hi : ∀ rd rs1 rs2, (mk rd rs1 rs2).wellFormed = true)
    (he : ∀ rd rs1 rs2, encode (mk rd rs1 rs2) = encodeR f7 rs2 rs1 f3 rd op)
    (h : w &&& 0xFE00707F#32 = encodeR f7 0 0 f3 0 op) : DecodesTo w (mk (rdOf w) (rs1Of w) (rs2Of w)).mnemonic := by
  obtain ⟨h7, h3, hop⟩ := (and_maskR_eq_iff w f7 f3 op).1 h
  exact decodesTo_of_encode _ (hi _ _ _) ((he _ _ _).trans (encodeR_eq_of_fields h7 h3 hop))

/-- The same for an immediate shift (R83, R86). -/
theorem decodesTo_of_maskShift (mk : Reg → Reg → BitVec 5 → Instr) (hi : ∀ rd rs1 shamt, (mk rd rs1 shamt).wellFormed = true)
    (he : ∀ rd rs1 shamt, encode (mk rd rs1 shamt) = encodeShift f7 shamt rs1 f3 rd op)
    (h : w &&& 0xFE00707F#32 = encodeR f7 0 0 f3 0 op) : DecodesTo w (mk (rdOf w) (rs1Of w) (shamtOf w)).mnemonic := by
  obtain ⟨h7, h3, hop⟩ := (and_maskR_eq_iff w f7 f3 op).1 h
  exact decodesTo_of_encode _ (hi _ _ _) ((he _ _ _).trans (encodeShift_eq_of_fields h7 h3 hop))

/-- A word that matches an I-type row with the mask 0x0000707F is the row's instruction of its own fields (R86, R87, R90). -/
theorem decodesTo_of_maskI (mk : Reg → Reg → BitVec 12 → Instr) (hi : ∀ rd rs1 imm, (mk rd rs1 imm).wellFormed = true)
    (he : ∀ rd rs1 imm, encode (mk rd rs1 imm) = encodeI imm rs1 f3 rd op)
    (h : w &&& 0x0000707F#32 = encodeI 0 0 f3 0 op) : DecodesTo w (mk (rdOf w) (rs1Of w) (immIOf w)).mnemonic := by
  obtain ⟨h3, hop⟩ := (and_maskI_eq_iff w f3 op).1 h
  exact decodesTo_of_encode _ (hi _ _ _) ((he _ _ _).trans (encodeI_eq_of_fields h3 hop))

/-- The same for a store (R88). -/
theorem decodesTo_of_maskS (mk : Reg → Reg → BitVec 12 → Instr) (hi : ∀ rs1 rs2 imm, (mk rs1 rs2 imm).wellFormed = true)
    (he : ∀ rs1 rs2 imm, encode (mk rs1 rs2 imm) = encodeS imm rs2 rs1 f3 op)
    (h : w &&& 0x0000707F#32 = encodeI 0 0 f3 0 op) : DecodesTo w (mk (rs1Of w) (rs2Of w) (immSOf w)).mnemonic := by
  obtain ⟨h3, hop⟩ := (and_maskI_eq_iff w f3 op).1 h
  exact decodesTo_of_encode _ (hi _ _ _) ((he _ _ _).trans (encodeS_eq_of_fields h3 hop))

/-- The same for a branch, whose offset is even by its format (R80, R89). -/
theorem decodesTo_of_maskB (mk : Reg → Reg → BitVec 13 → Instr)
    (hi : ∀ rs1 rs2 off, (mk rs1 rs2 off).wellFormed = !off.getLsbD 0)
    (he : ∀ rs1 rs2 off, encode (mk rs1 rs2 off) = encodeB off rs2 rs1 f3 op)
    (h : w &&& 0x0000707F#32 = encodeI 0 0 f3 0 op) : DecodesTo w (mk (rs1Of w) (rs2Of w) (immBOf w)).mnemonic := by
  obtain ⟨h3, hop⟩ := (and_maskI_eq_iff w f3 op).1 h
  exact decodesTo_of_encode _ ((hi _ _ _).trans (by simp)) ((he _ _ _).trans (encodeB_eq_of_fields h3 hop))

/-- The same for a row with the mask 0x0000007F of the U-type (R92). -/
theorem decodesTo_of_maskU (mk : Reg → BitVec 20 → Instr) (hi : ∀ rd imm20, (mk rd imm20).wellFormed = true)
    (he : ∀ rd imm20, encode (mk rd imm20) = encodeU imm20 rd op)
    (h : w &&& 0x0000007F#32 = encodeU 0 0 op) : DecodesTo w (mk (rdOf w) (immUOf w)).mnemonic :=
  decodesTo_of_encode _ (hi _ _) ((he _ _).trans (encodeU_eq_of_fields ((and_maskU_eq_iff w op).1 h)))

/-- The same for JAL (R82, R91). -/
theorem decodesTo_jal (h : w &&& 0x0000007F#32 = 0x0000006F#32) : DecodesTo w "JAL" := by
  have hop : opcodeOf w = 0b1101111#7 := (and_maskU_eq_iff w _).1 h
  exact decodesTo_of_encode (.jal (rdOf w) (immJOf w)) (by simp [Instr.wellFormed]) (encodeJ_eq_of_fields hop)

end Rows

theorem opRows_decodesTo (w : Word) : ∀ r ∈ opRows, w &&& r.mask = r.pattern → DecodesTo w r.mnemonic := by
  simp only [opRows, List.forall_mem_cons, List.not_mem_nil, false_implies, implies_true, and_true]
  exact ⟨decodesTo_of_maskR .add (fun _ _ _ => rfl) (fun _ _ _ => rfl),
    decodesTo_of_maskR .sub (fun _ _ _ => rfl) (fun _ _ _ => rfl),
    decodesTo_of_maskR .slt (fun _ _ _ => rfl) (fun _ _ _ => rfl),
    decodesTo_of_maskR .sltu (fun _ _ _ => rfl) (fun _ _ _ => rfl),
    decodesTo_of_maskR .and (fun _ _ _ => rfl) (fun _ _ _ => rfl),
    decodesTo_of_maskR .or (fun _ _ _ => rfl) (fun _ _ _ => rfl),
    decodesTo_of_maskR .xor (fun _ _ _ => rfl) (fun _ _ _ => rfl),
    decodesTo_of_maskR .sll (fun _ _ _ => rfl) (fun _ _ _ => rfl),
    decodesTo_of_maskR .srl (fun _ _ _ => rfl) (fun _ _ _ => rfl),
    decodesTo_of_maskR .sra (fun _ _ _ => rfl) (fun _ _ _ => rfl)⟩

theorem opImmRows_decodesTo (w : Word) : ∀ r ∈ opImmRows, w &&& r.mask = r.pattern → DecodesTo w r.mnemonic := by
  simp only [opImmRows, List.forall_mem_cons, List.not_mem_nil, false_implies, implies_true, and_true]
  exact ⟨decodesTo_of_maskI .addi (fun _ _ _ => rfl) (fun _ _ _ => rfl),
    decodesTo_of_maskI .slti (fun _ _ _ => rfl) (fun _ _ _ => rfl),
    decodesTo_of_maskI .sltiu (fun _ _ _ => rfl) (fun _ _ _ => rfl),
    decodesTo_of_maskI .andi (fun _ _ _ => rfl) (fun _ _ _ => rfl),
    decodesTo_of_maskI .ori (fun _ _ _ => rfl) (fun _ _ _ => rfl),
    decodesTo_of_maskI .xori (fun _ _ _ => rfl) (fun _ _ _ => rfl),
    decodesTo_of_maskShift .slli (fun _ _ _ => rfl) (fun _ _ _ => rfl),
    decodesTo_of_maskShift .srli (fun _ _ _ => rfl) (fun _ _ _ => rfl),
    decodesTo_of_maskShift .srai (fun _ _ _ => rfl) (fun _ _ _ => rfl)⟩

theorem memoryRows_decodesTo (w : Word) : ∀ r ∈ memoryRows, w &&& r.mask = r.pattern → DecodesTo w r.mnemonic := by
  simp only [memoryRows, List.forall_mem_cons, List.not_mem_nil, false_implies, implies_true, and_true]
  exact ⟨decodesTo_of_maskI .lb (fun _ _ _ => rfl) (fun _ _ _ => rfl),
    decodesTo_of_maskI .lh (fun _ _ _ => rfl) (fun _ _ _ => rfl),
    decodesTo_of_maskI .lw (fun _ _ _ => rfl) (fun _ _ _ => rfl),
    decodesTo_of_maskI .lbu (fun _ _ _ => rfl) (fun _ _ _ => rfl),
    decodesTo_of_maskI .lhu (fun _ _ _ => rfl) (fun _ _ _ => rfl),
    decodesTo_of_maskS .sb (fun _ _ _ => rfl) (fun _ _ _ => rfl),
    decodesTo_of_maskS .sh (fun _ _ _ => rfl) (fun _ _ _ => rfl),
    decodesTo_of_maskS .sw (fun _ _ _ => rfl) (fun _ _ _ => rfl)⟩

theorem controlRows_decodesTo (w : Word) : ∀ r ∈ controlRows, w &&& r.mask = r.pattern → DecodesTo w r.mnemonic := by
  simp only [controlRows, List.forall_mem_cons, List.not_mem_nil, false_implies, implies_true, and_true]
  exact ⟨decodesTo_of_maskB .beq (fun _ _ _ => rfl) (fun _ _ _ => rfl),
    decodesTo_of_maskB .bne (fun _ _ _ => rfl) (fun _ _ _ => rfl),
    decodesTo_of_maskB .blt (fun _ _ _ => rfl) (fun _ _ _ => rfl),
    decodesTo_of_maskB .bge (fun _ _ _ => rfl) (fun _ _ _ => rfl),
    decodesTo_of_maskB .bltu (fun _ _ _ => rfl) (fun _ _ _ => rfl),
    decodesTo_of_maskB .bgeu (fun _ _ _ => rfl) (fun _ _ _ => rfl),
    decodesTo_jal,
    decodesTo_of_maskI .jalr (fun _ _ _ => rfl) (fun _ _ _ => rfl)⟩

theorem upperRows_decodesTo (w : Word) : ∀ r ∈ upperRows, w &&& r.mask = r.pattern → DecodesTo w r.mnemonic := by
  simp only [upperRows, List.forall_mem_cons, List.not_mem_nil, false_implies, implies_true, and_true]
  exact ⟨decodesTo_of_maskU .lui (fun _ _ => rfl) (fun _ _ => rfl),
    decodesTo_of_maskU .auipc (fun _ _ => rfl) (fun _ _ => rfl)⟩

/-- A word that matches a row decodes to that row's instruction (R95). -/
theorem decodesTo_of_row {r : Row} (hr : r ∈ opcodeTable) (h : w &&& r.mask = r.pattern) : DecodesTo w r.mnemonic := by
  simp only [opcodeTable, List.mem_append] at hr
  obtain (((hr | hr) | hr) | hr) | hr := hr
  · exact opRows_decodesTo w r hr h
  · exact opImmRows_decodesTo w r hr h
  · exact memoryRows_decodesTo w r hr h
  · exact controlRows_decodesTo w r hr h
  · exact upperRows_decodesTo w r hr h

/-- A word matches exactly the row of the instruction it decodes to. -/
theorem row_matches_iff {r : Row} (hr : r ∈ opcodeTable) : w &&& r.mask = r.pattern ↔ DecodesTo w r.mnemonic := by
  constructor
  · exact decodesTo_of_row hr
  · rintro ⟨i, hd, hm⟩
    obtain ⟨r', hr', hm', hw⟩ := row_of_decode hd
    obtain rfl := opcodeTable_mnemonics r' hr' r hr (hm'.trans hm)
    exact hw

theorem exists_decode_error (h : ∀ i, decode w ≠ .ok i) : ∃ e, decode w = .error e := by
  cases hd : decode w with
  | ok i => exact absurd hd (h i)
  | error e => exact ⟨e, rfl⟩

/-- Settles O3: the matching row and the decoded instruction determine each other; two matching rows would overlap, which no two rows of the table do; and a
fetched word of no row decodes to nothing. -/
theorem decodeSelectsTheOneMatchingRow : Obligations.DecodeSelectsTheOneMatchingRow := by
  intro w
  refine ⟨fun r => row_matches_iff, fun i => row_of_decode, fun r hr r' hr' => row_unique hr hr', fun hno s hs => ?illegal⟩
  case illegal =>
    refine step_of_decode_error hs (exists_decode_error fun i hd => ?_)
    obtain ⟨r, hr, -, hw⟩ := row_of_decode hd
    exact hno r hr hw

end Sys2Proof.Machine

/-! R71, R81, R83, R96: the fields of a word that decodes. The idea: such a word is the encoding of its instruction, so what a field of the word holds is
what the encoder has put there. -/

namespace Sys2Proof.Machine

variable {w : Word} {i : Instr} {s : State}

/-! ### The fields the encoder lays out -/

theorem rdOf_encode {r : Reg} (h : i.rdField = some r) : rdOf (encode i) = r := by
  cases i with
  | sb | sh | sw | beq | bne | blt | bge | bltu | bgeu => cases h
  | _ =>
    cases h
    simp [encode]

theorem rs1Of_encode {r : Reg} (h : i.rs1Field = some r) : rs1Of (encode i) = r := by
  cases i with
  | jal | lui | auipc => cases h
  | _ =>
    cases h
    simp [encode]

theorem rs2Of_encode {r : Reg} (h : i.rs2Field = some r) : rs2Of (encode i) = r := by
  cases i with
  | add | sub | slt | sltu | and | or | xor | sll | srl | sra | sb | sh | sw | beq | bne | blt | bge | bltu | bgeu =>
    cases h
    simp [encode]
  | _ => cases h

theorem immUOf_encode {imm20 : BitVec 20} (h : i.immUField = some imm20) : immUOf (encode i) = imm20 := by
  cases i with
  | lui | auipc =>
    cases h
    simp [encode]
  | _ => cases h

theorem shamtOf_encode {n : BitVec 5} (h : i.shamtField = some n) : shamtOf (encode i) = n := by
  cases i with
  | slli | srli | srai =>
    cases h
    simp [encode]
  | _ => cases h

/-! ### The fields as numbers -/

theorem extractLsb'_five_toNat (w : Word) (k : Nat) : (w.extractLsb' k 5).toNat = w.toNat / 2 ^ k % 32 := by
  rw [BitVec.extractLsb'_toNat, Nat.shiftRight_eq_div_pow]

/-- Settles O4: the word is the encoding of its instruction, and the encoder puts each register number in its five bits. -/
theorem registerFieldsAreReadFromTheirBits : Obligations.RegisterFieldsAreReadFromTheirBits := by
  intro w i r hd
  obtain rfl := encode_of_decode hd
  refine ⟨fun h => ?rd, fun h => ?rs1, fun h => ?rs2⟩
  case rd => exact (congrArg Fin.val (rdOf_encode h)).symm.trans (extractLsb'_five_toNat _ 7)
  case rs1 => exact (congrArg Fin.val (rs1Of_encode h)).symm.trans (extractLsb'_five_toNat _ 15)
  case rs2 => exact (congrArg Fin.val (rs2Of_encode h)).symm.trans (extractLsb'_five_toNat _ 20)

/-- `imm_U` = inst[31:12] ‖ 0^12 (R81). -/
theorem immU_immUOf_getLsbD (w : Word) {k : Nat} (hk : k < 32) :
    (immU (immUOf w)).getLsbD k = if k < 12 then false else w.getLsbD k := by
  simp only [immU, immUOf, BitVec.getLsbD_append, BitVec.getLsbD_extractLsb']
  grind

/-! ### The selectors of the immediate shifts -/

theorem decodeShiftLeftImm_of_selector (h : w.toNat / 2 ^ 25 = 0) :
    decodeShiftLeftImm w = .ok (.slli (rdOf w) (rs1Of w) (shamtOf w)) := by
  have h7 : funct7Of w = 0b0000000#7 := BitVec.eq_of_toNat_eq ((funct7Of_toNat w).trans h)
  simp only [decodeShiftLeftImm, h7]

/-- The left shift decodes with the selector 0000000 only, and then to SLLI (R83). -/
theorem decodeShiftLeftImm_eq_ok_iff :
    decodeShiftLeftImm w = .ok i ↔ w.toNat / 2 ^ 25 = 0 ∧ .slli (rdOf w) (rs1Of w) (shamtOf w) = i := by
  by_cases h0 : w.toNat / 2 ^ 25 = 0
  · simp only [decodeShiftLeftImm_of_selector h0, h0, Except.ok.injEq, true_and]
  · obtain ⟨e, he⟩ := decodeShiftLeftImm_error h0
    simp only [he, h0, false_and, reduceCtorEq]

theorem decodeShiftRightImm_of_srli (h : w.toNat / 2 ^ 25 = 0) :
    decodeShiftRightImm w = .ok (.srli (rdOf w) (rs1Of w) (shamtOf w)) := by
  have h7 : funct7Of w = 0b0000000#7 := BitVec.eq_of_toNat_eq ((funct7Of_toNat w).trans h)
  simp only [decodeShiftRightImm, h7]

theorem decodeShiftRightImm_of_srai (h : w.toNat / 2 ^ 25 = 32) :
    decodeShiftRightImm w = .ok (.srai (rdOf w) (rs1Of w) (shamtOf w)) := by
  have h7 : funct7Of w = 0b0100000#7 := BitVec.eq_of_toNat_eq ((funct7Of_toNat w).trans h)
  simp only [decodeShiftRightImm, h7]

/-- The right shifts decode with two selectors only: 0000000 to SRLI and 0100000 to SRAI (R83). -/
theorem decodeShiftRightImm_eq_ok_iff :
    decodeShiftRightImm w = .ok i ↔
      (w.toNat / 2 ^ 25 = 0 ∧ .srli (rdOf w) (rs1Of w) (shamtOf w) = i) ∨
      (w.toNat / 2 ^ 25 = 32 ∧ .srai (rdOf w) (rs1Of w) (shamtOf w) = i) := by
  by_cases h0 : w.toNat / 2 ^ 25 = 0
  · simp only [decodeShiftRightImm_of_srli h0, h0, Except.ok.injEq, true_and, OfNat.zero_ne_ofNat, false_and, or_false]
  · by_cases h32 : w.toNat / 2 ^ 25 = 32
    · simp only [decodeShiftRightImm_of_srai h32, h32, Except.ok.injEq, true_and, OfNat.ofNat_ne_zero, false_and, false_or]
    · obtain ⟨e, he⟩ := decodeShiftRightImm_error h0 h32
      simp only [he, h0, h32, false_and, or_false, reduceCtorEq]

/-- Settles O7: the first two parts read back what the encoder has put there; the other two are the selector tests of the two decoders of immediate shifts. -/
theorem upperImmediatesAndShiftAmountsAreReadFromTheirBits : Obligations.UpperImmediatesAndShiftAmountsAreReadFromTheirBits := by
  refine ⟨fun w i imm20 hd himm k hk => ?upper, fun w i n hd hn => ?amount, fun w hop hf3 => ?left, fun w hop hf3 => ?right⟩
  case upper =>
    obtain rfl := encode_of_decode hd
    rw [← immUOf_encode himm]
    exact immU_immUOf_getLsbD _ hk
  case amount =>
    obtain rfl := encode_of_decode hd
    rw [← shamtOf_encode hn]
    exact extractLsb'_five_toNat _ 20
  case left =>
    simp only [decode_of_shiftLeftImm hop hf3, decodeShiftLeftImm_eq_ok_iff]
    exact ⟨⟨fun ⟨_, h0, _⟩ => h0, fun h0 => ⟨_, h0, rfl⟩⟩, fun _ ⟨_, hi⟩ => hi ▸ rfl⟩
  case right =>
    simp only [decode_of_shiftRightImm hop hf3, decodeShiftRightImm_eq_ok_iff]
    refine ⟨⟨?_, fun h0 => ⟨_, .inl ⟨h0, rfl⟩, rfl⟩⟩, ⟨?_, fun h32 => ⟨_, .inr ⟨h32, rfl⟩, rfl⟩⟩, ?_⟩
    · rintro ⟨i, ⟨h0, -⟩ | ⟨-, rfl⟩, hm⟩
      · exact h0
      · exact absurd hm (show ¬ "SRAI" = "SRLI" by decide)
    · rintro ⟨i, ⟨-, rfl⟩ | ⟨h32, -⟩, hm⟩
      · exact absurd hm (show ¬ "SRLI" = "SRAI" by decide)
      · exact h32
    · rintro i (⟨-, rfl⟩ | ⟨-, rfl⟩)
      · exact .inl rfl
      · exact .inr rfl

/-! ### The last two bits -/

/-- The low bits of a word are the low bits of its opcode (R71). -/
theorem toNat_mod_four (w : Word) : w.toNat % 4 = (opcodeOf w).toNat % 4 := by
  rw [opcodeOf_toNat]
  omega

/-- Each of the nine opcodes ends in two ones (R84). -/
theorem encode_mod_four (i : Instr) : (encode i).toNat % 4 = 3 := by
  rw [toNat_mod_four]
  cases i <;> simp [encode]

/-- Settles O9: the opcodes end in two ones, and a word that decodes is the encoding of an instruction. -/
theorem everyInstructionEndsInTwoOnes : Obligations.EveryInstructionEndsInTwoOnes := by
  refine ⟨encode_mod_four, fun w hw s hs => ?illegal⟩
  case illegal =>
    refine step_of_decode_error hs (exists_decode_error fun i hd => hw ?_)
    rw [← encode_of_decode hd]
    exact encode_mod_four i

/-- Settles O8: each of the eleven words is the encoding of the instruction named, by evaluation. -/
theorem wordsOfTheSpecDecode : Obligations.WordsOfTheSpecDecode := by
  refine ⟨?_, ?_, ?_, ?_, ?_, ?_, ?_, ?_, ?_, ?_, ?_⟩ <;> exact decode_eq_ok_iff.2 (by decide)

end Sys2Proof.Machine

/-! R9, R10, R201, R204: what a step can answer. The idea: the fetch answers one of three faults or an instruction, whose execution is one of four shared
operations; each of these has its own faults and refuses nothing. -/

namespace Sys2Proof.Machine

variable {w : Word} {i : Instr} {s t : State} {f : Fault}

/-! ### The fetch -/

/-- Settles O11: the step's own checks have passed, and only the execution is left. -/
theorem stepRunsTheDecodedInstruction : Obligations.StepRunsTheDecodedInstruction := by
  intro s w i hw hd
  simp only [step, fetchInstr_of_fetches hw, hd]

/-- Steps 1 and 2 are in this order: an aligned pc that cannot be fetched from raises FetchAccessFault (R10, R50). -/
theorem step_of_not_fetchable (hpc : s.pc.toNat % 4 = 0)
    (hacc : ∃ j, j < 4 ∧ s.cfg.accessible .fetch (s.pc.toNat + j) = false) : step s = .fault (.fetchAccessFault s.pc) := by
  have hno : ∀ w, ¬ Fetches s w := by
    rintro w ⟨-, hall, -⟩
    obtain ⟨j, hj, hfalse⟩ := hacc
    exact absurd ((hall j hj).symm.trans hfalse) (by decide)
  rcases fetchInstr_cases s with ⟨hmis, -⟩ | ⟨-, -, hf⟩ | ⟨w, e, hw, -⟩ | ⟨w, i, hw, -⟩
  · exact absurd hpc hmis
  · simp only [step, hf]
  · exact absurd hw (hno w)
  · exact absurd hw (hno w)

/-- Settles O12: one check after the other, each with its fault. -/
theorem stepChecksPcThenFetchThenDecode : Obligations.StepChecksPcThenFetchThenDecode :=
  fun _ => ⟨step_of_pc_misaligned, step_of_not_fetchable, fun _ hw hno => step_of_decode_error hw (exists_decode_error hno)⟩

/-- A step refuses nothing: the fetch raises faults only, and every instruction has its meaning. -/
theorem step_ne_refused (s : State) (r : Refusal) : step s ≠ .refused r := by
  unfold step
  split
  · exact nofun
  · exact exec_ne_refused _ s r

/-- Settles O13: of the three outcomes, refusal does not occur. -/
theorem stepAnswersNextOrFault : Obligations.StepAnswersNextOrFault := by
  intro s
  cases hs : step s with
  | next t => exact .inl ⟨t, rfl⟩
  | fault f => exact .inr ⟨f, rfl⟩
  | refused r => exact absurd hs (step_ne_refused s r)

/-! ### The faults of the shared operations -/

theorem loadTo_eq_fault {rd : Reg} {a : Word} {n : Nat} {v : Word} (h : loadTo rd a n v s = .fault f) :
    f = .loadAddrMisaligned a ∨ f = .loadAccessFault a := by
  rcases loadTo_cases rd a n v s with ⟨g, hg, he⟩ | ⟨-, he⟩ <;> cases he.symm.trans h
  rcases (loadFault_eq_some_iff s a n f).1 hg with ⟨-, hf⟩ | ⟨-, -, hf⟩
  · exact .inl hf
  · exact .inr hf

theorem storeAt_eq_fault {a : Word} {n : Nat} {m : Memory} (h : storeAt a n m s = .fault f) :
    f = .storeAddrMisaligned a ∨ f = .storeAccessFault a ∨ f = .storeToCode a := by
  rcases storeAt_cases a n m s with ⟨g, hg, he⟩ | ⟨-, he⟩ <;> cases he.symm.trans h
  rcases (storeFault_eq_some_iff s a n f).1 hg with ⟨-, hf⟩ | ⟨-, -, hf⟩ | ⟨-, -, -, hf⟩
  · exact .inl hf
  · exact .inr (.inl hf)
  · exact .inr (.inr hf)

theorem branchIf_eq_fault {c : Bool} {off : Word} (h : branchIf c off s = .fault f) :
    f = .instrAddrMisaligned (s.pc + off) ∧ (s.pc + off).getLsbD 1 = true := by
  rcases branchIf_cases c off s with ⟨-, he⟩ | ⟨-, -, he⟩ | ⟨-, h1, he⟩ <;> cases he.symm.trans h
  exact ⟨rfl, h1⟩

theorem jumpAndLink_eq_fault {rd : Reg} {p : Word} (h : jumpAndLink rd p s = .fault f) :
    f = .instrAddrMisaligned p ∧ p.getLsbD 1 = true := by
  rcases jumpAndLink_cases rd p s with ⟨-, he⟩ | ⟨h1, he⟩ <;> cases he.symm.trans h
  exact ⟨rfl, h1⟩

/-! ### The instructions -/

/-- Settles O14: each instruction is one shared operation, and its faults are those of the operation; the instructions that only compute have none. -/
theorem faultsInExecutionAreThoseOfTheKind : Obligations.FaultsInExecutionAreThoseOfTheKind := by
  intro i s f h
  cases i with
  | lb rd rs1 imm | lh rd rs1 imm | lw rd rs1 imm | lbu rd rs1 imm | lhu rd rs1 imm =>
    exact .inl ⟨rfl, rs1, imm, rfl, rfl, loadTo_eq_fault h⟩
  | sb rs1 rs2 imm | sh rs1 rs2 imm | sw rs1 rs2 imm =>
    exact .inr (.inl ⟨rfl, rs1, imm, rfl, rfl, storeAt_eq_fault h⟩)
  | beq rs1 rs2 off | bne rs1 rs2 off | blt rs1 rs2 off | bge rs1 rs2 off | bltu rs1 rs2 off | bgeu rs1 rs2 off =>
    exact .inr (.inr (.inl ⟨rfl, off, rfl, branchIf_eq_fault h⟩))
  | jal rd off => exact .inr (.inr (.inr (.inl ⟨rd, off, rfl, jumpAndLink_eq_fault h⟩)))
  | jalr rd rs1 imm => exact .inr (.inr (.inr (.inr ⟨rd, rs1, imm, rfl, jumpAndLink_eq_fault h⟩)))
  | _ => cases h

/-- An instruction that is no load, store, branch or jump is one `writeBack` to its rd (R110, R120, R180). -/
theorem exec_eq_writeBack (s : State) (hl : i.isLoad = false) (hs : i.isStore = false) (hb : i.isBranch = false)
    (hj : i.isJump = false) : ∃ rd v, i.rdField = some rd ∧ exec i s = writeBack rd v s := by
  cases i with
  | lb | lh | lw | lbu | lhu => cases hl
  | sb | sh | sw => cases hs
  | beq | bne | blt | bge | bltu | bgeu => cases hb
  | jal | jalr => cases hj
  | _ => exact ⟨_, _, rfl, rfl⟩

/-- Settles O15: a `writeBack` always completes. -/
theorem computingInstructionsNeverFault : Obligations.ComputingInstructionsNeverFault := by
  intro i s hl hs hb hj
  obtain ⟨rd, v, hrd, he⟩ := exec_eq_writeBack s hl hs hb hj
  obtain ⟨t, ht, hw⟩ := writeBack_spec rd v s
  exact ⟨t, rd, v, he.trans ht, hrd, hw⟩

end Sys2Proof.Machine

/-! R104, R117, R181, R182: SLTIU, the upper immediates and the constants they build. The idea: each of these instructions is one `writeBack`, so only its
value is left to prove; and two `writeBack`s to one register leave the second value. -/

namespace Sys2Proof.Machine

variable {i : Instr} {s t u : State}

/-! ### SLTIU -/

/-- The sign-extended immediate read as unsigned: the lower half of the field keeps its value, the upper half lies at the top of the word (R78, R117). -/
theorem sext12_toNat (imm : BitVec 12) :
    (sext12 imm).toNat = if imm.toNat < 2048 then imm.toNat else imm.toNat + 0xFFFFF000 := by
  have hlt := imm.isLt
  rw [sext12, BitVec.signExtend, BitVec.toNat_ofInt, BitVec.toInt_eq_toNat_cond]
  split_ifs <;> omega

/-- Settles O18: SLTIU is one `writeBack` of the unsigned comparison with the sign-extended immediate. -/
theorem sltiuComparesWithTheSignExtendedImmediate : Obligations.SltiuComparesWithTheSignExtendedImmediate := by
  intro s rd rs1 imm
  rw [← sext12_toNat]
  exact ⟨encodedBy_sltiu rd rs1 imm, writesResult_of_writeBack rfl (boolWord_ltUnsigned _ _)⟩

/-! ### LUI and AUIPC -/

/-- Twelve zeros after the field are a factor of 4096 (R81). -/
theorem immU_toNat (imm20 : BitVec 20) : (immU imm20).toNat = imm20.toNat * 4096 := by
  rw [immU, BitVec.toNat_append, BitVec.toNat_ofNat, Nat.zero_mod, Nat.or_zero, Nat.shiftLeft_eq]

theorem immU_eq_ofNat (imm20 : BitVec 20) : immU imm20 = BitVec.ofNat 32 (imm20.toNat * 4096) := by
  rw [← immU_toNat, BitVec.ofNat_toNat, BitVec.setWidth_eq]

theorem add_immU_eq_ofNat (a : Word) (imm20 : BitVec 20) :
    a + immU imm20 = BitVec.ofNat 32 (a.toNat + imm20.toNat * 4096) := by
  rw [← immU_toNat]
  exact BitVec.add_def a _

/-- Settles O24: LUI is one `writeBack` of the upper immediate, AUIPC of its sum with pc. -/
theorem luiAndAuipcPlaceTheUpperImmediate : Obligations.LuiAndAuipcPlaceTheUpperImmediate := by
  intro s rd imm20
  exact ⟨⟨encodedBy_lui rd imm20, writesResult_of_writeBack rfl (immU_eq_ofNat imm20)⟩,
    ⟨encodedBy_auipc rd imm20, writesResult_of_writeBack rfl (add_immU_eq_ofNat s.pc imm20)⟩⟩

/-! ### LUI and then ADDI -/

/-- Bit 11 of a word, as the number that LUI's field takes on top. -/
theorem ite_getLsbD_toNat (c : Word) : (if c.getLsbD 11 then 1 else 0 : BitVec 20).toNat = c.toNat / 2 ^ 11 % 2 := by
  rw [BitVec.getLsbD, Nat.testBit_eq_decide_div_mod_eq]
  rcases Nat.mod_two_eq_zero_or_one (c.toNat / 2 ^ 11) with h | h <;> rw [h] <;> rfl

/-- Read as signed, the low twelve bits are the rest of c modulo 2^12, less 2^12 when c[11] = 1; the 1 added to the field makes up for it (R181). -/
theorem immU_add_sext12_eq (c : Word) :
    immU (c.extractLsb' 12 20 + (if c.getLsbD 11 then 1 else 0)) + sext12 (c.extractLsb' 0 12) = c := by
  have hc := c.isLt
  have hlow : (c.extractLsb' 0 12).toNat = c.toNat % 4096 := by simp [BitVec.extractLsb'_toNat]
  have hhigh : (c.extractLsb' 12 20).toNat = c.toNat / 4096 := by
    rw [BitVec.extractLsb'_toNat, Nat.shiftRight_eq_div_pow]
    omega
  apply BitVec.eq_of_toNat_eq
  rw [BitVec.toNat_add, immU_toNat, sext12_toNat, BitVec.toNat_add, ite_getLsbD_toNat, hlow, hhigh]
  split_ifs <;> omega

/-- Of two writes to one register the second stays, and nothing else is changed but pc. -/
theorem WroteReg.overwrite {rd : Reg} {v v' p p' : Word} (h : WroteReg s t rd v p) (h' : WroteReg t u rd v' p') :
    WroteReg s u rd v' p' where
  regs r := by
    rw [h'.regs r, h.regs r]
    split_ifs <;> rfl
  pc := h'.pc
  mem a := (h'.mem a).trans (h.mem a)
  cfg := h'.cfg.trans h.cfg

/-- A register that is not x0 reads the value written to it (R21, R22). -/
theorem WroteReg.readReg_self {rd : Reg} {v p : Word} (h : WroteReg s t rd v p) (hrd : rd ≠ 0) : t.readReg rd = v := by
  rw [h.regs rd, if_pos ⟨rfl, hrd⟩]

/-- Settles O25: LUI leaves the upper part in the register, and ADDI adds the signed lower part to it. -/
theorem luiThenAddiBuildsEveryConstant : Obligations.LuiThenAddiBuildsEveryConstant := by
  intro s rd c hrd
  obtain ⟨t, ht, hst⟩ := writeBack_spec rd (immU (c.extractLsb' 12 20 + (if c.getLsbD 11 then 1 else 0))) s
  obtain ⟨u, hu, htu⟩ := writeBack_spec rd (t.readReg rd + sext12 (c.extractLsb' 0 12)) t
  refine ⟨t, u, ht, hu, ?_⟩
  rw [hst.readReg_self hrd, immU_add_sext12_eq, hst.pc, BitVec.add_assoc] at htu
  exact hst.overwrite htu

/-- Settles O26: a write to x0 is dropped, so the `writeBack` of ADDI moves pc only. -/
theorem addiToX0IsNop : Obligations.AddiToX0IsNop :=
  fun _ _ _ => rfl

end Sys2Proof.Machine

/-! R42, R44, R52: a load after a store. The idea: a store that completes leaves the state with the new memory, in which the registers and the checks of a
later load are as before; so only the bytes read back are left to prove. -/

namespace Sys2Proof.Machine

variable {i : Instr} {s : State}

/-! ### The state after a store -/

/-- Whether a load is allowed depends on the parameters only, which a store does not write. -/
theorem loadAllowed_stored_iff (s : State) (m : Memory) (a : Word) (n : Nat) :
    LoadAllowed ((s.setMem m).setPc s.nextPc) a n ↔ LoadAllowed s a n := Iff.rfl

/-- A load from the memory a store has left writes what it reads there, in whatever form the value is stated. -/
theorem writesResult_load_stored {m : Memory} {rd : Reg} {a : Word} {n : Nat} {v v' : Word} (ha : LoadAllowed s a n)
    (he : exec i ((s.setMem m).setPc s.nextPc) = loadTo rd a n v ((s.setMem m).setPc s.nextPc)) (hv : v = v') :
    WritesResult i ((s.setMem m).setPc s.nextPc) rd v' :=
  writesResult_of_loadTo ((loadAllowed_stored_iff s m a n).2 ha) he hv

/-! ### The values read back -/

theorem zextByte_extractLsb' (v : Word) (k : Nat) :
    zextByte (v.extractLsb' k 8) = BitVec.ofNat 32 (v.toNat / 2 ^ k % 2 ^ 8) := by
  rw [zextByte_eq_ofNat, BitVec.extractLsb'_toNat, Nat.shiftRight_eq_div_pow]

theorem zextHalf_extractLsb' (v : Word) (k : Nat) :
    zextHalf (v.extractLsb' k 16) = BitVec.ofNat 32 (v.toNat / 2 ^ k % 2 ^ 16) := by
  rw [zextHalf_eq_ofNat, BitVec.extractLsb'_toNat, Nat.shiftRight_eq_div_pow]

/-- The second byte of a stored word is bits 15..8 of the value (R42). -/
theorem read_write32_second (m : Memory) (a : Nat) (v : Word) : (m.write32 a v).read (a + 1) = v.extractLsb' 8 8 := by
  simp [Memory.read_write32]

/-- The upper halfword of a stored word is bits 31..16 of the value (R41, R42). -/
theorem read16_write32_upper (m : Memory) (a : Nat) (v : Word) :
    (m.write32 a v).read16 (a + 2) = v.extractLsb' 16 16 := by
  apply BitVec.eq_of_toNat_eq
  rw [toNat_read16]
  simp [Memory.read_write32, BitVec.extractLsb'_toNat, Nat.shiftRight_eq_div_pow]
  omega

/-- Inside an access that does not run past 0xFFFFFFFF, addresses do not wrap. -/
theorem toNat_add_of_inside {k : AccessKind} {a : Word} {n j : Nat} (h : ¬ Inaccessible s k a n) (hj : j < n) :
    (a + BitVec.ofNat 32 j).toNat = a.toNat + j := by
  have hle := end_le_of_not_inaccessible h
  rw [BitVec.toNat_add, BitVec.toNat_ofNat]
  omega

/-! ### The statements -/

/-- Settles O31: for each width, what is read at the address of the store is what was written there. -/
theorem loadAfterStoreReturnsTheValue : Obligations.LoadAfterStoreReturnsTheValue := by
  intro s rd rs1 rs2 imm
  refine ⟨fun hs hl => ⟨_, storeAt_of_allowed hs _, writesResult_load_stored hl rfl ?word⟩,
    fun hs hl => ⟨_, storeAt_of_allowed hs _, writesResult_load_stored hl rfl ?half⟩,
    fun hs hl => ⟨_, storeAt_of_allowed hs _, writesResult_load_stored hl rfl ?byte⟩⟩
  case word => exact read32_write32 _ _ _
  case half =>
    have hread := read16_write16 s.mem (effAddr (s.readReg rs1) imm).toNat ((s.readReg rs2).extractLsb' 0 16)
    exact (congrArg zextHalf hread).trans (by rw [zextHalf_extractLsb', pow_zero, Nat.div_one])
  case byte =>
    have hread := Memory.read_write_self s.mem (effAddr (s.readReg rs1) imm).toNat ((s.readReg rs2).extractLsb' 0 8)
    exact (congrArg zextByte hread).trans (by rw [zextByte_extractLsb', pow_zero, Nat.div_one])

/-- Settles O32: the stored word does not wrap, so its second byte and its upper halfword lie 1 and 2 past its address. -/
theorem narrowLoadsSeeTheBytesOfAStoredWord : Obligations.NarrowLoadsSeeTheBytesOfAStoredWord := by
  intro s rd rs1 rs2 imm imm1 imm2 hs h1 h2 hl1 hl2
  have ⟨_, hin, _⟩ := hs
  have ha1 : (effAddr (s.readReg rs1) imm1).toNat = (effAddr (s.readReg rs1) imm).toNat + 1 :=
    (congrArg BitVec.toNat h1).trans (toNat_add_of_inside hin (by decide))
  have ha2 : (effAddr (s.readReg rs1) imm2).toNat = (effAddr (s.readReg rs1) imm).toNat + 2 :=
    (congrArg BitVec.toNat h2).trans (toNat_add_of_inside hin (by decide))
  refine ⟨_, storeAt_of_allowed hs _, writesResult_load_stored hl1 rfl ?byte, writesResult_load_stored hl2 rfl ?half⟩
  case byte =>
    have hread := read_write32_second s.mem (effAddr (s.readReg rs1) imm).toNat (s.readReg rs2)
    rw [← ha1] at hread
    exact (congrArg zextByte hread).trans (zextByte_extractLsb' _ 8)
  case half =>
    have hread := read16_write32_upper s.mem (effAddr (s.readReg rs1) imm).toNat (s.readReg rs2)
    rw [← ha2] at hread
    have hlt := (s.readReg rs2).isLt
    refine (congrArg zextHalf hread).trans ((zextHalf_extractLsb' _ 16).trans ?_)
    rw [Nat.mod_eq_of_lt (by omega)]

end Sys2Proof.Machine

/-! R21, R22: the registers. The idea: an instruction with an rd either faults whatever its rd is, or writes one value there and goes on to one pc; and each
of the shared operations, in two states that agree on pc, memory and parameters, does the same with the same operands. -/

namespace Sys2Proof.Machine

variable {i : Instr} {s s' t : State}

/-! ### x0 -/

@[simp] theorem State.readReg_zero (s : State) : s.readReg 0 = 0 := if_pos rfl

@[simp] theorem State.writeReg_zero (s : State) (v : Word) : s.writeReg 0 v = s := if_pos rfl

/-! ### The same instruction with another rd -/

/-- An outcome that depends on the destination register only by the register the one value is written to. -/
def OnlyWritesTo (s : State) (outcome : Reg → Result) : Prop :=
  (∃ f, ∀ rd, outcome rd = .fault f) ∨ ∃ v p, ∀ rd, outcome rd = .next ((s.writeReg rd v).setPc p)

theorem onlyWritesTo_loadTo (a : Word) (n : Nat) (v : Word) (s : State) : OnlyWritesTo s (fun rd => loadTo rd a n v s) := by
  unfold OnlyWritesTo loadTo
  cases loadFault s a n with
  | some f => exact .inl ⟨f, fun _ => rfl⟩
  | none => exact .inr ⟨v, s.nextPc, fun _ => rfl⟩

theorem onlyWritesTo_jumpAndLink (p : Word) (s : State) : OnlyWritesTo s (fun rd => jumpAndLink rd p s) := by
  unfold OnlyWritesTo jumpAndLink
  cases p.getLsbD 1 with
  | true => exact .inl ⟨_, fun _ => rfl⟩
  | false => exact .inr ⟨s.nextPc, p, fun _ => rfl⟩

/-- With another rd, an instruction that has one meets the same fault, or writes the same value there and goes on to the same pc (R21). -/
theorem onlyWritesTo_exec (s : State) (h : i.rdField.isSome = true) : OnlyWritesTo s (fun rd => exec (i.withRd rd) s) := by
  cases i with
  | sb | sh | sw | beq | bne | blt | bge | bltu | bgeu => cases h
  | lb | lh | lw | lbu | lhu => exact onlyWritesTo_loadTo _ _ _ s
  | jal | jalr => exact onlyWritesTo_jumpAndLink _ s
  | _ => exact .inr ⟨_, s.nextPc, fun _ => rfl⟩

/-- Settles O38: the outcome depends on rd only by the register written, and a write to x0 is dropped. -/
theorem x0ReadsZeroAndDropsOnlyTheWrite : Obligations.X0ReadsZeroAndDropsOnlyTheWrite := by
  refine ⟨State.readReg_zero, State.writeReg_zero, fun i rd s hrd => ?_⟩
  rcases onlyWritesTo_exec s hrd with ⟨g, hfault⟩ | ⟨v, p, hnext⟩
  · have h0 : exec (i.withRd 0) s = .fault g := hfault 0
    have hr : exec (i.withRd rd) s = .fault g := hfault rd
    rw [h0, hr]
    exact ⟨fun _ => .rfl, nofun⟩
  · have h0 : exec (i.withRd 0) s = .next ((s.writeReg 0 v).setPc p) := hnext 0
    have hr : exec (i.withRd rd) s = .next ((s.writeReg rd v).setPc p) := hnext rd
    rw [h0, hr]
    refine ⟨fun f => ⟨nofun, nofun⟩, fun t ht => ⟨_, rfl, ?_⟩⟩
    cases ht
    exact ⟨rfl, by simp, fun r => by simp⟩

/-! ### Two states that agree on what an instruction reads -/

/-- The second outcome has the fault of the first, or its pc, its memory and its value in the destination register, if there is one. -/
def SameOutcome (rd? : Option Reg) (o o' : Result) : Prop :=
  (∀ f, o = .fault f → o' = .fault f) ∧
  ∀ t, o = .next t → ∃ t', o' = .next t' ∧ t'.pc = t.pc ∧ t'.mem = t.mem ∧
    ∀ rd, rd? = some rd → t'.readReg rd = t.readReg rd

theorem sameOutcome_fault (rd? : Option Reg) (f : Fault) : SameOutcome rd? (.fault f) (.fault f) :=
  ⟨fun _ => id, nofun⟩

theorem sameOutcome_next {rd? : Option Reg} {t t' : State} (hpc : t'.pc = t.pc) (hmem : t'.mem = t.mem)
    (hrd : ∀ rd, rd? = some rd → t'.readReg rd = t.readReg rd) : SameOutcome rd? (.next t) (.next t') := by
  refine ⟨nofun, fun u hu => ⟨t', rfl, ?_⟩⟩
  cases hu
  exact ⟨hpc, hmem, hrd⟩

/-- The same write in two states leaves rd with the same value: the value written, or 0 if rd is x0. -/
theorem readReg_writeReg_self_eq (s s' : State) (rd : Reg) (v : Word) :
    (s'.writeReg rd v).readReg rd = (s.writeReg rd v).readReg rd := by
  by_cases h0 : rd = 0
  · subst h0
    simp
  · simp [State.readReg_writeReg, h0]

theorem sameOutcome_write {rd : Reg} {v p : Word} (hmem : s.mem = s'.mem) :
    SameOutcome (some rd) (.next ((s.writeReg rd v).setPc p)) (.next ((s'.writeReg rd v).setPc p)) := by
  refine sameOutcome_next rfl (by simp [hmem]) fun r hr => ?_
  cases hr
  exact readReg_writeReg_self_eq s s' rd v

section Agree

variable {rd : Reg} {a a' v v' p p' : Word} {n : Nat} (hpc : s.pc = s'.pc) (hmem : s.mem = s'.mem) (hcfg : s.cfg = s'.cfg)

include hpc in
theorem nextPc_eq_of_pc_eq : s.nextPc = s'.nextPc := congrArg (· + 4#32) hpc

include hcfg in
theorem loadFault_eq_of_cfg_eq (a : Word) (n : Nat) : loadFault s a n = loadFault s' a n := by
  unfold loadFault
  rw [hcfg]

include hcfg in
theorem storeFault_eq_of_cfg_eq (a : Word) (n : Nat) : storeFault s a n = storeFault s' a n := by
  unfold storeFault
  rw [hcfg]

include hpc hmem in
theorem sameOutcome_writeBack (hv : v = v') : SameOutcome (some rd) (writeBack rd v s) (writeBack rd v' s') := by
  subst hv
  unfold writeBack
  rw [nextPc_eq_of_pc_eq hpc]
  exact sameOutcome_write hmem

include hpc hmem hcfg in
theorem sameOutcome_loadTo (ha : a = a') (hv : v = v') : SameOutcome (some rd) (loadTo rd a n v s) (loadTo rd a' n v' s') := by
  subst ha
  unfold loadTo
  rw [loadFault_eq_of_cfg_eq hcfg]
  cases loadFault s' a n with
  | some f => exact sameOutcome_fault _ f
  | none => exact sameOutcome_writeBack hpc hmem hv

include hpc hcfg in
theorem sameOutcome_storeAt {m m' : Memory} (ha : a = a') (hm : m = m') :
    SameOutcome none (storeAt a n m s) (storeAt a' n m' s') := by
  subst ha hm
  unfold storeAt
  rw [storeFault_eq_of_cfg_eq hcfg]
  cases storeFault s' a n with
  | some f => exact sameOutcome_fault _ f
  | none => exact sameOutcome_next (nextPc_eq_of_pc_eq hpc).symm rfl nofun

include hpc hmem in
theorem sameOutcome_branchIf {c c' : Bool} {off : Word} (hc : c = c') :
    SameOutcome none (branchIf c off s) (branchIf c' off s') := by
  subst hc
  unfold branchIf
  rw [nextPc_eq_of_pc_eq hpc, hpc]
  split_ifs
  · exact sameOutcome_fault _ _
  · exact sameOutcome_next rfl hmem.symm nofun
  · exact sameOutcome_next rfl hmem.symm nofun

include hpc hmem in
theorem sameOutcome_jumpAndLink (hp : p = p') :
    SameOutcome (some rd) (jumpAndLink rd p s) (jumpAndLink rd p' s') := by
  subst hp
  unfold jumpAndLink
  rw [nextPc_eq_of_pc_eq hpc]
  split_ifs
  · exact sameOutcome_fault _ _
  · exact sameOutcome_write hmem

end Agree

/-- Settles O40: each instruction is one shared operation on operands made from the registers it names, pc and memory. -/
theorem executionReadsOnlyTheNamedSources : Obligations.ExecutionReadsOnlyTheNamedSources := by
  intro i s s' hreg hpc hmem hcfg
  change SameOutcome i.rdField (exec i s) (exec i s')
  cases i with
  | add rd rs1 rs2 | sub rd rs1 rs2 | slt rd rs1 rs2 | sltu rd rs1 rs2 | and rd rs1 rs2 | or rd rs1 rs2 | xor rd rs1 rs2
  | sll rd rs1 rs2 | srl rd rs1 rs2 | sra rd rs1 rs2 =>
    exact sameOutcome_writeBack hpc hmem (by rw [hreg rs1 (.inl rfl), hreg rs2 (.inr rfl)])
  | addi rd rs1 imm | slti rd rs1 imm | sltiu rd rs1 imm | andi rd rs1 imm | ori rd rs1 imm | xori rd rs1 imm
  | slli rd rs1 sh | srli rd rs1 sh | srai rd rs1 sh =>
    exact sameOutcome_writeBack hpc hmem (by rw [hreg rs1 (.inl rfl)])
  | lb rd rs1 imm | lh rd rs1 imm | lw rd rs1 imm | lbu rd rs1 imm | lhu rd rs1 imm =>
    exact sameOutcome_loadTo hpc hmem hcfg (by rw [hreg rs1 (.inl rfl)]) (by rw [hreg rs1 (.inl rfl), hmem])
  | sb rs1 rs2 imm | sh rs1 rs2 imm | sw rs1 rs2 imm =>
    exact sameOutcome_storeAt hpc hcfg (by rw [hreg rs1 (.inl rfl)])
      (by rw [hreg rs1 (.inl rfl), hreg rs2 (.inr rfl), hmem])
  | beq rs1 rs2 off | bne rs1 rs2 off | blt rs1 rs2 off | bge rs1 rs2 off | bltu rs1 rs2 off | bgeu rs1 rs2 off =>
    exact sameOutcome_branchIf hpc hmem (by rw [hreg rs1 (.inl rfl), hreg rs2 (.inr rfl)])
  | jal rd off => exact sameOutcome_jumpAndLink hpc hmem (by rw [hpc])
  | jalr rd rs1 imm => exact sameOutcome_jumpAndLink hpc hmem (by rw [hreg rs1 (.inl rfl)])
  | lui rd imm20 => exact sameOutcome_writeBack hpc hmem rfl
  | auipc rd imm20 => exact sameOutcome_writeBack hpc hmem (by rw [hpc])

end Sys2Proof.Machine

/-! R21, R24, R25, R29, R55: what every step and every run keeps. The idea: `exec_next_cases` says the four shapes of a step that goes on; each rule is read
off the shapes, and holds along a run by induction on its steps. -/

namespace Sys2Proof.Machine

variable {i : Instr} {s t : State}

/-! ### What one instruction leaves -/

/-- What an instruction that goes on leaves as it was, whatever its kind: the parameters, the cell of x0, every register but rd, the canonical form of
memory, the bytes that can be fetched, and all of memory if it is no store (R21, R22, R29, R55). -/
structure KeepsFrame (i : Instr) (s t : State) : Prop where
  cfg    : t.cfg = s.cfg
  x0Cell : t.x[0] = s.x[0]
  regs   : ∀ r, i.rdField ≠ some r → t.readReg r = s.readReg r
  memWf  : s.mem.wf → t.mem.wf
  code   : ∀ a, s.cfg.accessible .fetch a = true → t.byteAt a = s.byteAt a
  mem    : i.isStore = false → t.mem = s.mem

theorem keepsFrame_setPc (i : Instr) (s : State) (p : Word) : KeepsFrame i s (s.setPc p) :=
  ⟨rfl, rfl, fun _ _ => rfl, id, fun _ _ => rfl, fun _ => rfl⟩

theorem keepsFrame_write {rd : Reg} (hrd : i.rdField = some rd) (v p : Word) :
    KeepsFrame i s ((s.writeReg rd v).setPc p) where
  cfg := by simp
  x0Cell := by simp
  regs r hr := by
    have hne : r ≠ rd := fun h => hr (h ▸ hrd)
    simp [State.readReg_writeReg, hne]
  memWf := by simp
  code a _ := by simp
  mem _ := by simp

/-- A store is not allowed to touch a byte that can be fetched (R55). -/
theorem keepsFrame_store {a : Word} {n : Nat} {m : Memory} (hi : i.isStore = true) (hcode : ¬ TouchesCode s a n)
    (hout : ∀ b, b < a.toNat ∨ a.toNat + n ≤ b → m.read b = s.mem.read b) (hwf : s.mem.wf → m.wf) :
    KeepsFrame i s ((s.setMem m).setPc s.nextPc) where
  cfg := rfl
  x0Cell := rfl
  regs _ _ := rfl
  memWf := hwf
  code b hb := by
    refine hout b ?_
    by_contra hin
    refine hcode ⟨b - a.toNat, by omega, ?_⟩
    rwa [Nat.add_sub_cancel' (by omega)]
  mem hno := absurd (hi.symm.trans hno) (by decide)

theorem exec_keepsFrame (h : exec i s = .next t) : KeepsFrame i s t := by
  rcases exec_next_cases h with hw | hst | hb | hj
  case inl =>
    obtain ⟨-, -, -, rd, v, hrd, rfl⟩ := hw
    exact keepsFrame_write hrd v _
  case inr.inl =>
    obtain ⟨hi, -, -, -, a, n, m, ⟨-, -, hcode⟩, rfl, hout, hwf⟩ := hst
    exact keepsFrame_store hi hcode hout hwf
  case inr.inr.inl => obtain ⟨-, -, -, -, off, -, rfl | ⟨-, rfl⟩⟩ := hb <;> exact keepsFrame_setPc i s _
  case inr.inr.inr =>
    obtain ⟨-, -, -, rd, p, hrd, -, rfl, -⟩ := hj
    exact keepsFrame_write hrd _ p

/-- Settles O39: only rd is written, and stores and branches have none. -/
theorem onlyRdIsWritten : Obligations.OnlyRdIsWritten :=
  fun _ _ _ r h => (exec_keepsFrame h).regs r

/-- Settles O41: of the four shapes only that of a store replaces memory. -/
theorem onlyStoresChangeMemory : Obligations.OnlyStoresChangeMemory :=
  fun _ _ _ h hs a => congrArg (Memory.read · a) ((exec_keepsFrame h).mem hs)

/-- Settles O42: of the four shapes only those of a branch and a jump set pc to anything else. -/
theorem onlyTransfersLeaveTheNextAddress : Obligations.OnlyTransfersLeaveTheNextAddress := by
  intro i s t h hb hj
  rcases exec_next_cases h with hw | hst | ⟨-, -, hbr, -⟩ | ⟨-, -, hju, -⟩
  · obtain ⟨-, -, -, rd, v, -, rfl⟩ := hw
    rfl
  · obtain ⟨-, -, -, -, a, n, m, -, rfl, -⟩ := hst
    rfl
  · exact absurd (hbr.symm.trans hb) (by decide)
  · exact absurd (hju.symm.trans hj) (by decide)

/-! ### Good states -/

/-- Settles O44: pc by R25, the cell of x0 and memory by the shapes of the instruction executed. -/
theorem stepKeepsTheGoodState : Obligations.StepKeepsTheGoodState := by
  intro s t hs h
  obtain ⟨w, i, -, -, he⟩ := step_next h
  exact ⟨step_pc_aligned h, (exec_keepsFrame he).x0Cell.trans hs.x0Zero, (exec_keepsFrame he).memWf hs.memWf⟩

theorem start_inv {c : Config} (x : Vector Word 32) (hpc : c.resetPc.toNat % 4 = 0) (hmem : c.initMem.wf) :
    (State.start c x).Inv :=
  ⟨hpc, State.start_x0 c x, hmem⟩

/-- Settles O45: the state after reset is a start state, of an empty memory. -/
theorem runsStartInAGoodState : Obligations.RunsStartInAGoodState :=
  ⟨start_inv _ rfl Memory.wf_nil, fun _ x => start_inv x⟩

/-- Settles O48: the fields of the start state, and the registers other than x0 past the cell that is cleared. -/
theorem runStartsAtTheParameters : Obligations.RunStartsAtTheParameters := by
  intro c x
  refine ⟨rfl, State.readReg_zero _, fun r hr => ?_, fun _ => rfl, rfl⟩
  have hne : 0 ≠ r.val := fun h => hr (Fin.ext h.symm)
  simp [State.readReg, State.start, hr, hne]

/-! ### Runs -/

/-- A step changes no parameter: it is an instruction's execution. -/
theorem step_cfg (h : step s = .next t) : t.cfg = s.cfg := by
  obtain ⟨w, i, -, -, he⟩ := step_next h
  exact (exec_keepsFrame he).cfg

theorem steps_cfg (h : Steps s t) : t.cfg = s.cfg := by
  induction h with
  | refl => rfl
  | tail _ hlast ih => exact (step_cfg hlast).trans ih

/-- Settles O47, by induction on the steps. -/
theorem stepsKeepTheParameters : Obligations.StepsKeepTheParameters :=
  fun _ _ => steps_cfg

/-- What can be fetched is settled by the parameters, so a byte that can be fetched stays so along the steps, and stays as it is. -/
theorem steps_byteAt_of_fetchable {a : Nat} (h : Steps s t) (ha : s.cfg.accessible .fetch a = true) :
    t.byteAt a = s.byteAt a := by
  induction h with
  | refl => rfl
  | tail hsteps hlast ih =>
    obtain ⟨w, i, -, -, he⟩ := step_next hlast
    exact ((exec_keepsFrame he).code a (steps_cfg hsteps ▸ ha)).trans ih

theorem fetchWord_eq_ok {a w : Word} (h : fetchWord s a = .ok w) :
    (∀ j, j < 4 → s.cfg.accessible .fetch (a.toNat + j) = true) ∧ w = s.mem.read32 a.toNat := by
  unfold fetchWord at h
  split at h
  · next hacc =>
    cases h
    exact ⟨(Config.allAccessible_iff _ _ _ _).1 hacc, rfl⟩
  · cases h

/-- A word is read from its four bytes only (R41). -/
theorem read32_congr {m m' : Memory} {a : Nat} (h : ∀ j, j < 4 → m.read (a + j) = m'.read (a + j)) :
    m.read32 a = m'.read32 a := by
  have h0 : m.read a = m'.read a := h 0 (by decide)
  rw [Memory.read32, Memory.read32, h 3 (by decide), h 2 (by decide), h 1 (by decide), h0]

/-- Settles O46: no step writes a byte that can be fetched; a fetch that succeeds reads four such bytes. -/
theorem fetchableBytesNeverChange : Obligations.FetchableBytesNeverChange := by
  refine ⟨fun s t a => steps_byteAt_of_fetchable, fun c x t a w hsteps hf => ?_⟩
  obtain ⟨hacc, rfl⟩ := fetchWord_eq_ok hf
  rw [steps_cfg hsteps] at hacc
  exact read32_congr fun j hj => steps_byteAt_of_fetchable hsteps (hacc j hj)

/-! ### The jump to itself -/

theorem encode_selfJump : encode (.jal 0 0) = 0x0000006F#32 := by decide

/-- From an aligned pc, `jal x0, 0` writes nothing and goes to pc itself (R167). -/
theorem exec_selfJump (hpc : s.pc.toNat % 4 = 0) : exec (.jal 0 0) s = .next s := by
  have htarget : s.pc + sext21 0 = s.pc := BitVec.add_zero s.pc
  obtain ⟨-, h1⟩ := (toNat_mod4_eq_zero_iff s.pc).1 hpc
  change jumpAndLink 0 (s.pc + sext21 0) s = .next s
  rw [htarget, jumpAndLink, h1, State.writeReg_zero]
  rfl

theorem step_selfJump (h : Fetches s 0x0000006F) : step s = .next s := by
  have hd : decode 0x0000006F#32 = .ok (.jal 0 0) := decode_eq_ok_iff.2 ⟨rfl, encode_selfJump⟩
  rw [stepRunsTheDecodedInstruction s _ _ h hd]
  exact exec_selfJump h.1

/-- A state that a step leaves as it is meets no fault, however long the run. -/
theorem safeRun_of_step_self (h : step s = .next s) (n : Nat) : SafeRun n s := by
  intro f t
  induction n with
  | zero => exact runToHalt_zero_ne_faulted s f t
  | succ n ih =>
    intro hrun
    obtain ⟨-, ⟨hfault, -⟩ | ⟨u, hnext, hrest⟩⟩ := runToHalt_succ_eq_faulted_iff.1 hrun
    · cases h.symm.trans hfault
    · cases h.symm.trans hnext
      exact ih hrest

/-- Settles O37: the step is the same state again, so no run from there gets away from it. -/
theorem selfJumpStaysForEver : Obligations.SelfJumpStaysForEver :=
  fun _ h => ⟨step_selfJump h, safeRun_of_step_self (step_selfJump h)⟩

end Sys2Proof.Machine

/-! R100 to R102: the assembler. The idea: each line is read in one of eight forms, and only the forms of a branch and of JAL make an offset, which their
range tests keep even; a label gives the difference of two addresses, and sign extension does not change one that is in range. -/

namespace Sys2Proof.Machine

variable {labels : Labels} {here there : Word} {i : Instr} {args : List (List Char)} {name : List Char}

/-! ### Each form answers an instruction of its kind -/

theorem asmR_eq_some {mk : Reg → Reg → Reg → Instr} (h : asmR mk args = some i) : ∃ rd rs1 rs2, i = mk rd rs1 rs2 := by
  unfold asmR at h
  split at h
  · simp only [Option.bind_eq_bind, Option.bind_eq_some_iff, Option.pure_def, Option.some.injEq] at h
    obtain ⟨rd, -, rs1, -, rs2, -, rfl⟩ := h
    exact ⟨rd, rs1, rs2, rfl⟩
  · cases h

theorem asmI_eq_some {mk : Reg → Reg → BitVec 12 → Instr} (h : asmI mk args = some i) : ∃ rd rs1 imm, i = mk rd rs1 imm := by
  unfold asmI at h
  split at h
  · simp only [Option.bind_eq_bind, Option.bind_eq_some_iff, Option.pure_def, Option.some.injEq] at h
    obtain ⟨rd, -, rs1, -, imm, -, rfl⟩ := h
    exact ⟨rd, rs1, imm, rfl⟩
  · cases h

theorem asmShift_eq_some {mk : Reg → Reg → BitVec 5 → Instr} (h : asmShift mk args = some i) :
    ∃ rd rs1 shamt, i = mk rd rs1 shamt := by
  unfold asmShift at h
  split at h
  · simp only [Option.bind_eq_bind, Option.bind_eq_some_iff, Option.pure_def, Option.some.injEq] at h
    obtain ⟨rd, -, rs1, -, shamt, -, rfl⟩ := h
    exact ⟨rd, rs1, shamt, rfl⟩
  · cases h

theorem asmLoad_eq_some {mk : Reg → Reg → BitVec 12 → Instr} (h : asmLoad mk args = some i) :
    ∃ rd rs1 imm, i = mk rd rs1 imm := by
  unfold asmLoad at h
  split at h
  · simp only [Option.bind_eq_bind, Option.bind_eq_some_iff, Option.pure_def, Option.some.injEq] at h
    obtain ⟨⟨imm, rs1⟩, -, rd, -, rfl⟩ := h
    exact ⟨rd, rs1, imm, rfl⟩
  · cases h

theorem asmStore_eq_some {mk : Reg → Reg → BitVec 12 → Instr} (h : asmStore mk args = some i) :
    ∃ rs1 rs2 imm, i = mk rs1 rs2 imm := by
  unfold asmStore at h
  split at h
  · simp only [Option.bind_eq_bind, Option.bind_eq_some_iff, Option.pure_def, Option.some.injEq] at h
    obtain ⟨⟨imm, rs1⟩, -, rs2, -, rfl⟩ := h
    exact ⟨rs1, rs2, imm, rfl⟩
  · cases h

theorem asmBranch_eq_some {mk : Reg → Reg → BitVec 13 → Instr} (h : asmBranch labels here mk args = some i) :
    ∃ rs1 rs2 v off, offset13 v = some off ∧ i = mk rs1 rs2 off := by
  unfold asmBranch at h
  split at h
  · simp only [Option.bind_eq_bind, Option.bind_eq_some_iff, Option.pure_def, Option.some.injEq] at h
    obtain ⟨rs1, -, rs2, -, off, ⟨v, -, hoff⟩, rfl⟩ := h
    exact ⟨rs1, rs2, v, off, hoff, rfl⟩
  · cases h

theorem asmJal_eq_some (h : asmJal labels here args = some i) : ∃ rd v off, offset21 v = some off ∧ i = .jal rd off := by
  unfold asmJal at h
  split at h
  · simp only [Option.bind_eq_bind, Option.bind_eq_some_iff, Option.pure_def, Option.some.injEq] at h
    obtain ⟨rd, -, off, ⟨v, -, hoff⟩, rfl⟩ := h
    exact ⟨rd, v, off, hoff, rfl⟩
  · cases h

theorem asmU_eq_some {mk : Reg → BitVec 20 → Instr} (h : asmU mk args = some i) : ∃ rd imm20, i = mk rd imm20 := by
  unfold asmU at h
  split at h
  · simp only [Option.bind_eq_bind, Option.bind_eq_some_iff, Option.pure_def, Option.some.injEq] at h
    obtain ⟨rd, -, imm20, -, rfl⟩ := h
    exact ⟨rd, imm20, rfl⟩
  · cases h

/-! ### Offsets are even -/

/-- Bit 0 of an even number is 0, in every width. -/
theorem ofInt_getLsbD_zero {n : Nat} {v : Int} (h : v % 2 = 0) : (BitVec.ofInt (n + 1) v).getLsbD 0 = false := by
  have hmod : v % ((2 ^ (n + 1) : Nat) : Int) % 2 = 0 := by rw [Int.emod_emod_of_dvd v (by simp [pow_succ]), h]
  have heven : (BitVec.ofInt (n + 1) v).toNat % 2 = 0 := by
    rw [BitVec.toNat_ofInt]
    omega
  rw [BitVec.getLsbD_eq_getElem (by omega)]
  exact getElem_zero_of_even heven

theorem offset13_even {v : Int} {off : BitVec 13} (h : offset13 v = some off) : off.getLsbD 0 = false := by
  unfold offset13 at h
  split at h
  · next hv =>
    obtain ⟨-, -, heven⟩ := hv
    cases h
    exact ofInt_getLsbD_zero heven
  · cases h

theorem offset21_even {v : Int} {off : BitVec 21} (h : offset21 v = some off) : off.getLsbD 0 = false := by
  unfold offset21 at h
  split at h
  · next hv =>
    obtain ⟨-, -, heven⟩ := hv
    cases h
    exact ofInt_getLsbD_zero heven
  · cases h

/-- Whatever the mnemonic and the operands, an instruction that is answered has an even offset, or none (R80, R82, R101). -/
theorem asmInstr_wellFormed {op : String} (h : asmInstr labels here op args = some i) : i.wellFormed = true := by
  unfold asmInstr at h
  split at h
  case h_1 | h_2 | h_3 | h_4 | h_5 | h_6 | h_7 | h_8 | h_9 | h_10 =>
    obtain ⟨rd, rs1, rs2, rfl⟩ := asmR_eq_some h
    rfl
  case h_11 | h_12 | h_13 | h_14 | h_15 | h_16 =>
    obtain ⟨rd, rs1, imm, rfl⟩ := asmI_eq_some h
    rfl
  case h_17 | h_18 | h_19 =>
    obtain ⟨rd, rs1, shamt, rfl⟩ := asmShift_eq_some h
    rfl
  case h_20 | h_21 | h_22 | h_23 | h_24 | h_35 =>
    obtain ⟨rd, rs1, imm, rfl⟩ := asmLoad_eq_some h
    rfl
  case h_25 | h_26 | h_27 =>
    obtain ⟨rs1, rs2, imm, rfl⟩ := asmStore_eq_some h
    rfl
  case h_28 | h_29 | h_30 | h_31 | h_32 | h_33 =>
    obtain ⟨rs1, rs2, v, off, hoff, rfl⟩ := asmBranch_eq_some h
    exact congrArg (!·) (offset13_even hoff)
  case h_34 =>
    obtain ⟨rd, v, off, hoff, rfl⟩ := asmJal_eq_some h
    exact congrArg (!·) (offset21_even hoff)
  case h_36 | h_37 =>
    obtain ⟨rd, imm20, rfl⟩ := asmU_eq_some h
    rfl
  case h_38 =>
    split at h <;> cases h
    rfl
  case h_39 => cases h

/-- Settles O51: a line is its label, its mnemonic and its operands, and every form of operands answers well-formed instructions only. -/
theorem assembledInstructionsAreEncodable : Obligations.AssembledInstructionsAreEncodable := by
  intro labels here line i h
  rw [assembleLine, asmText] at h
  exact asmInstr_wellFormed h

/-! ### Labels -/

/-- The difference of two addresses, added back, is the other address. -/
theorem add_ofInt_sub_toInt (here there : Word) : here + BitVec.ofInt 32 (there - here).toInt = there := by
  rw [BitVec.ofInt_toInt, BitVec.add_comm, BitVec.sub_add_cancel]

/-- Sign extension of a number that the narrow field holds is the number. -/
theorem signExtend_ofInt {n : Nat} {v : Int} (hlo : -2 ^ n ≤ v) (hhi : v < 2 ^ n) :
    (BitVec.ofInt (n + 1) v).signExtend 32 = BitVec.ofInt 32 v := by
  rw [BitVec.signExtend, BitVec.toInt_ofInt_eq_self (by omega) (by simpa) (by simpa)]

/-- A difference that a branch can hold is made the offset, which leads to the label; any other is refused (R80, R102). -/
theorem offset13_outcomes (here there : Word) (mk : BitVec 13 → Instr) :
    (-4096 ≤ (there - here).toInt ∧ (there - here).toInt ≤ 4094 ∧ (there - here).toInt % 2 = 0 →
      ∃ off, (offset13 (there - here).toInt).map mk = some (mk off) ∧ here + sext13 off = there) ∧
    (¬ (-4096 ≤ (there - here).toInt ∧ (there - here).toInt ≤ 4094 ∧ (there - here).toInt % 2 = 0) →
      (offset13 (there - here).toInt).map mk = none) := by
  constructor
  · intro hv
    have hext : sext13 (BitVec.ofInt 13 (there - here).toInt) = BitVec.ofInt 32 (there - here).toInt :=
      signExtend_ofInt (by omega) (by omega)
    exact ⟨BitVec.ofInt 13 (there - here).toInt, by rw [offset13, if_pos hv, Option.map_some], hext ▸ add_ofInt_sub_toInt here there⟩
  · intro hv
    rw [offset13, if_neg hv, Option.map_none]

/-- A difference that JAL can hold is made the offset, which leads to the label; any other is refused (R82, R102). -/
theorem offset21_outcomes (here there : Word) (mk : BitVec 21 → Instr) :
    (-1048576 ≤ (there - here).toInt ∧ (there - here).toInt ≤ 1048574 ∧ (there - here).toInt % 2 = 0 →
      ∃ off, (offset21 (there - here).toInt).map mk = some (mk off) ∧ here + sext21 off = there) ∧
    (¬ (-1048576 ≤ (there - here).toInt ∧ (there - here).toInt ≤ 1048574 ∧ (there - here).toInt % 2 = 0) →
      (offset21 (there - here).toInt).map mk = none) := by
  constructor
  · intro hv
    have hext : sext21 (BitVec.ofInt 21 (there - here).toInt) = BitVec.ofInt 32 (there - here).toInt :=
      signExtend_ofInt (by omega) (by omega)
    exact ⟨BitVec.ofInt 21 (there - here).toInt, by rw [offset21, if_pos hv, Option.map_some], hext ▸ add_ofInt_sub_toInt here there⟩
  · intro hv
    rw [offset21, if_neg hv, Option.map_none]

/-- What `assembleLine_asmLine` asks of an operand. -/
theorem operand_regName (r : Reg) : regName r ≠ [] ∧ (regName r).all isPlain = true :=
  ⟨regName_ne_nil r, isPlain_regName r⟩

theorem operand_of_isLabelName (hn : isLabelName name = true) : name ≠ [] ∧ name.all isPlain = true := by
  simp only [isLabelName, Bool.and_eq_true, Bool.not_eq_true', List.isEmpty_eq_false_iff] at hn
  obtain ⟨⟨⟨hne, hplain⟩, -⟩, -⟩ := hn
  exact ⟨hne, hplain⟩

/-- The line of a branch to a label is the branch with the offset to it, if a branch can hold one. -/
theorem assembleLine_branch_label {op : String} {mk : Reg → Reg → BitVec 13 → Instr} (rs1 rs2 : Reg) (hn : isLabelName name = true)
    (hl : labels.lookup name = some there)
    (hop : op.toList ≠ [] ∧ op.toList.all isPlain = true ∧ op.toList.map Char.toLower = op.toList)
    (hasm : ∀ args, asmInstr labels here op args = asmBranch labels here mk args) :
    assembleLine labels here (asmLine op [regName rs1, regName rs2, name]) = (offset13 (there - here).toInt).map (mk rs1 rs2) := by
  obtain ⟨hne, hplain, hlow⟩ := hop
  have hargs : ∀ a ∈ [regName rs1, regName rs2, name], a ≠ [] ∧ a.all isPlain = true := by
    simp only [List.forall_mem_cons, List.not_mem_nil, false_implies, implies_true, and_true]
    exact ⟨operand_regName rs1, operand_regName rs2, operand_of_isLabelName hn⟩
  rw [assembleLine_asmLine labels here op _ (List.cons_ne_nil _ _) hne hplain hlow hargs, hasm]
  simp [asmBranch, parseTarget_label hn hl, Option.map_eq_bind]

/-- The line of JAL to a label is JAL with the offset to it, if JAL can hold one. -/
theorem assembleLine_jal_label (rd : Reg) (hn : isLabelName name = true) (hl : labels.lookup name = some there) :
    assembleLine labels here (asmLine "jal" [regName rd, name]) = (offset21 (there - here).toInt).map (.jal rd) := by
  have hargs : ∀ a ∈ [regName rd, name], a ≠ [] ∧ a.all isPlain = true := by
    simp only [List.forall_mem_cons, List.not_mem_nil, false_implies, implies_true, and_true]
    exact ⟨operand_regName rd, operand_of_isLabelName hn⟩
  have hasm : ∀ args, asmInstr labels here "jal" args = asmJal labels here args := fun _ => rfl
  rw [assembleLine_asmLine labels here "jal" _ (List.cons_ne_nil _ _) (by decide) (by decide) (by decide) hargs, hasm]
  simp [asmJal, parseTarget_label hn hl, Option.map_eq_bind]

/-- Settles O52: the line is read back as its mnemonic and operands, and the offset made from the label is the difference of the two addresses or none. -/
theorem labelsStandForRelativeOffsets : Obligations.LabelsStandForRelativeOffsets := by
  intro labels here there name rd rs1 rs2 hn hl
  rw [assembleLine_jal_label rd hn hl]
  refine ⟨fun op mk hform => ?branch, offset21_outcomes here there (.jal rd)⟩
  case branch =>
    suffices hline : assembleLine labels here (asmLine op [regName rs1, regName rs2, name]) =
        (offset13 (there - here).toInt).map (mk rs1 rs2) by
      rw [hline]
      exact offset13_outcomes here there (mk rs1 rs2)
    simp only [List.mem_cons, List.not_mem_nil, or_false, Prod.mk.injEq] at hform
    obtain ⟨rfl, rfl⟩ | ⟨rfl, rfl⟩ | ⟨rfl, rfl⟩ | ⟨rfl, rfl⟩ | ⟨rfl, rfl⟩ | ⟨rfl, rfl⟩ := hform
    all_goals
      refine assembleLine_branch_label rs1 rs2 hn hl ?_ fun _ => ?_
      · decide
      · rfl

end Sys2Proof.Machine
